-- ==== Sys2Proof/Word.lean ====
section
/-! DEFINITION. The words of LUTk-CLK (spec/10_state.md R11, R17; spec/30_encoding.md R80). -/

namespace Sys2Proof

/-- A register of the register file, an operand latch or the result latch: 32 bits (R11, R17). -/
abbrev Word := BitVec 32

/-- One byte of the register space (R51). -/
abbrev Byte := BitVec 8

/-- The opcode byte of a command word (R80). -/
abbrev Opcode := BitVec 8

/-- One command word `CW`: `op` in bits 71:64, `a1` in 63:32, `a0` in 31:0 (R80). -/
abbrev CommandWord := BitVec 72

end Sys2Proof
end

