-- ==== Sys2Proof/Config.lean ====
section
/-! DEFINITION. What an implementation of LUTk-CLK fixes: the open parameters of spec/00_scope.md R5 as
plain data, and the small named sets they use. A machine carries its parameters in `State.params`, which no
step changes, so a statement over all states is quantified over every parameter value (notes/assumptions/2.md). -/

namespace Sys2Proof

/-- VoltageScalingLevel (R86, R121): operand 0 is `low`, 1 is `high`. -/
inductive Level where
  | low
  | high
deriving DecidableEq, Repr

/-- The status codes of a response (R190). -/
inductive Status where
  | ok
  | invalidParameter
  | alreadyInitialized
  | notAvailable
deriving DecidableEq, Repr

/-- The eight states of the Clock Switch Sequencer, in order (R14). -/
inductive SeqState where
  | uninitialized
  | oscillatorReady
  | scalingSet
  | latencySet
  | pllProgrammed
  | pllLocked
  | switched
  | complete
deriving DecidableEq, Repr

/-- ClockDomainId (R86): the six queryable clocks. -/
inductive ClockDomain where
  | system
  | core
  | apb1Periph
  | apb2Periph
  | apb1Timer
  | apb2Timer
deriving DecidableEq, Repr

/-- The two bindings of the register space (R68). -/
inductive Binding where
  | production
  | test
deriving DecidableEq, Repr

/-- The gate register a USART instance sits on (R180). -/
inductive UsartBus where
  | apb1
  | apb2
deriving DecidableEq, Repr

/-- One entry of `USART_TABLE`: instance id, gate register and bit (R5, R180). -/
structure UsartEntry where
  id : Word
  bus : UsartBus
  bit : Fin 32
deriving DecidableEq, Repr

/-- One row of `MIN_LATENCY` for a level: up to `maxFreq` Hz, `waitStates` suffice (R5, R232). -/
structure LatencyRow where
  maxFreq : Nat
  waitStates : Nat
deriving DecidableEq, Repr

/-- The eight registers of the register file (R17 to R23, R50). -/
inductive RegName where
  | pwrCr
  | flashAcr
  | clkCr
  | pllCfgr
  | clkCfgr
  | gateAhb1
  | gateApb1
  | gateApb2
deriving DecidableEq, Repr

/-- A register and the lowest bit of a field in it. -/
structure RegBit where
  reg : RegName
  lo : Nat
deriving DecidableEq, Repr

/-- `REGMAP` (R5, R17, R66): the address of every register and the lowest bit of every named field. The register of
a field is the one R18 to R23 give it; only the five PLL fields may be split over registers (R130). The bits of
`USARTEN[id]` are in `USART_TABLE` (R23). -/
structure Regmap where
  pwrCrAddr : Word
  flashAcrAddr : Word
  clkCrAddr : Word
  pllCfgrAddr : Word
  clkCfgrAddr : Word
  gateAhb1Addr : Word
  gateApb1Addr : Word
  gateApb2Addr : Word
  vos : Nat
  latency : Nat
  prften : Nat
  icen : Nat
  dcen : Nat
  oscRdy : Nat
  pllOn : Nat
  pllRdy : Nat
  pllm : RegBit
  plln : RegBit
  pllp : RegBit
  pllq : RegBit
  pllsrc : RegBit
  sw : Nat
  sws : Nat
  hpre : Nat
  ppre1 : Nat
  ppre2 : Nat
  /-- the bit of `GPIOEN[k]` in `GATE_AHB1` -/
  gpioen : Vector Nat 8
deriving DecidableEq, Repr

/-- `RESET_PROFILE` (R5, R40): one word for each register of the register file (a settling field is reset
with nothing pending, so one word gives both of its values) and the values the latches come up with,
which the spec leaves unspecified (U13). -/
structure Profile where
  pwrCr : Word
  flashAcr : Word
  clkCr : Word
  pllCfgr : Word
  clkCfgr : Word
  gateAhb1 : Word
  gateApb1 : Word
  gateApb2 : Word
  op : Opcode
  a0 : Word
  a1 : Word
  st : Status
  rv : Word
deriving DecidableEq, Repr

/-- The open parameters of R5. -/
structure Params where
  /-- `REGMAP` -/
  regmap : Regmap
  /-- `VOS_ENC(LOW)` -/
  vosLow : BitVec 2
  /-- `VOS_ENC(HIGH)` -/
  vosHigh : BitVec 2
  /-- `F_MAX(LOW)`, in Hz -/
  fMaxLow : Nat
  /-- `F_MAX(HIGH)`, in Hz -/
  fMaxHigh : Nat
  /-- `MIN_LATENCY(·, LOW)`, rows by rising frequency -/
  latencyLow : List LatencyRow
  /-- `MIN_LATENCY(·, HIGH)`, rows by rising frequency -/
  latencyHigh : List LatencyRow
  /-- `USART_TABLE` -/
  usart : List UsartEntry
  /-- `ALLOW_INTERLEAVE` (R61) -/
  allowInterleave : Bool
  /-- `PLANT_LIVE` (R198, R240): past the end of `State.agenda` the plant takes every step that is enabled -/
  plantLive : Bool
  /-- the binding of the register space (R68) -/
  binding : Binding
  /-- `RESET_PROFILE` -/
  profile : Profile
deriving DecidableEq, Repr

end Sys2Proof
end

