-- ==== Sys2Proof/Syntax.lean ====
section
/-! DEFINITION. The command set CLKCMD version 1: one constructor for each row of spec/opcode_table.json
(spec/30_encoding.md R81, R82). A command keeps the operand words its format ignores (R83), because command
accept latches them (spec/10_state.md R12). -/

namespace Sys2Proof

/-- A PllWord, field by field (R84). `p` is the divider value itself; `rsv` must be 0 for the word to be valid. -/
structure PllWord where
  rsv : BitVec 8
  src : BitVec 1
  q : BitVec 4
  p : BitVec 4
  n : BitVec 9
  m : BitVec 6
deriving DecidableEq, Repr

/-- A PowerWord, field by field (R85); `rsv` must be 0 for the word to be valid. -/
structure PowerWord where
  rsv : BitVec 16
  level : BitVec 8
  ws : BitVec 8
deriving DecidableEq, Repr

/-- The eleven commands (R81). Formats I and P end with the ignored word `a1`, format Z carries both
ignored words (R82, R83). -/
inductive Instr where
  /-- `GET_FREQ domain` (R101) -/
  | getFreq (domain a1 : Word)
  /-- `SET_SCALING level` (R121) -/
  | setScaling (level a1 : Word)
  /-- `SET_LATENCY ws` (R124) -/
  | setLatency (ws a1 : Word)
  /-- `ENABLE_CACHE` (R126) -/
  | enableCache (a0 a1 : Word)
  /-- `ENABLE_PREFETCH` (R127) -/
  | enablePrefetch (a0 a1 : Word)
  /-- `PLL_CONFIGURE cfg` (R130) -/
  | pllConfigure (cfg : PllWord) (a1 : Word)
  /-- `PLL_ENABLE` (R132) -/
  | pllEnable (a0 a1 : Word)
  /-- `PLL_WAIT_LOCK` (R133) -/
  | pllWaitLock (a0 a1 : Word)
  /-- `SEQ_RUN cfg, pw` (R151) -/
  | seqRun (cfg : PllWord) (pw : PowerWord)
  /-- `GATE_GPIO id` (R181) -/
  | gateGpio (id a1 : Word)
  /-- `GATE_USART id` (R182) -/
  | gateUsart (id a1 : Word)
deriving DecidableEq, Repr

end Sys2Proof
end

