-- ==== Sys2Proof/WellFormed.lean ====
section
/-! DEFINITION. Which commands the assembler of spec/30_encoding.md R89 can write: words the format ignores
are assembled as 0, and a PllWord or PowerWord written by its keys has its reserved bits 0. Decoding and
execution do not ask for it (R82, R87: ignored bits take part in neither; R88: reserved operand bits make the
operand invalid, which is the command's own check). -/

namespace Sys2Proof

/-- The reserved bits of a PllWord are 0 (R84). -/
def PllWord.wellFormed (w : PllWord) : Bool := w.rsv == 0

/-- The reserved bits of a PowerWord are 0 (R85). -/
def PowerWord.wellFormed (w : PowerWord) : Bool := w.rsv == 0

/-- The command is one the assembler can write (R89). -/
def Instr.wellFormed : Instr → Bool
  | .getFreq _ a1 => a1 == 0
  | .setScaling _ a1 => a1 == 0
  | .setLatency _ a1 => a1 == 0
  | .enableCache a0 a1 => a0 == 0 && a1 == 0
  | .enablePrefetch a0 a1 => a0 == 0 && a1 == 0
  | .pllConfigure cfg a1 => cfg.wellFormed && a1 == 0
  | .pllEnable a0 a1 => a0 == 0 && a1 == 0
  | .pllWaitLock a0 a1 => a0 == 0 && a1 == 0
  | .seqRun cfg pw => cfg.wellFormed && pw.wellFormed
  | .gateGpio _ a1 => a1 == 0
  | .gateUsart _ a1 => a1 == 0

end Sys2Proof
end

