-- ==== Sys2Proof/Decode.lean ====
section
/-! DEFINITION. Decoding a command word (spec/30_encoding.md R80 to R88) and, after it, the encoder written
from the same tables. Decoding is total: it reads `op` and nothing else to select the command (R87) and
rejects a reserved opcode by name (R88). -/

namespace Sys2Proof

/-- `op = CW[71:64]` (R80). -/
def opOf (cw : CommandWord) : Opcode := cw.extractLsb' 64 8

/-- `a1 = CW[63:32]` (R80). -/
def a1Of (cw : CommandWord) : Word := cw.extractLsb' 32 32

/-- `a0 = CW[31:0]` (R80). -/
def a0Of (cw : CommandWord) : Word := cw.extractLsb' 0 32

/-- The fields of a PllWord (R84). -/
def pllWordOf (w : Word) : PllWord where
  rsv := w.extractLsb' 24 8
  src := w.extractLsb' 23 1
  q := w.extractLsb' 19 4
  p := w.extractLsb' 15 4
  n := w.extractLsb' 6 9
  m := w.extractLsb' 0 6

/-- The fields of a PowerWord (R85). -/
def powerWordOf (w : Word) : PowerWord where
  rsv := w.extractLsb' 16 16
  level := w.extractLsb' 8 8
  ws := w.extractLsb' 0 8

/-- Why a command word is no command. -/
inductive DecodeRefusal where
  /-- `op` is 0x00 or 0x0C to 0xFF (R88) -/
  | reservedOpcode (op : Opcode)
deriving DecidableEq, Repr

/-- The command an opcode selects, with its operands read as its format says (R82, R83, R87). -/
def decodeFields (op : Opcode) (a1 a0 : Word) : Except DecodeRefusal Instr :=
  match op.toNat with
  | 0x01 => .ok (.getFreq a0 a1)
  | 0x02 => .ok (.setScaling a0 a1)
  | 0x03 => .ok (.setLatency a0 a1)
  | 0x04 => .ok (.enableCache a0 a1)
  | 0x05 => .ok (.enablePrefetch a0 a1)
  | 0x06 => .ok (.pllConfigure (pllWordOf a0) a1)
  | 0x07 => .ok (.pllEnable a0 a1)
  | 0x08 => .ok (.pllWaitLock a0 a1)
  | 0x09 => .ok (.seqRun (pllWordOf a0) (powerWordOf a1))
  | 0x0A => .ok (.gateGpio a0 a1)
  | 0x0B => .ok (.gateUsart a0 a1)
  | _ => .error (.reservedOpcode op)

/-- Decoding (R87): total, one step. -/
def decode (cw : CommandWord) : Except DecodeRefusal Instr :=
  decodeFields (opOf cw) (a1Of cw) (a0Of cw)

/-- The command read from `nbits` bits `w`, numbered as the opcode table numbers them; the bits above
`nbits` are 0. -/
def decodeTableWord (nbits w : Nat) : Option Instr :=
  match decode (BitVec.ofNat 72 (w % 2 ^ nbits)) with
  | .ok i => some i
  | .error _ => none

/-! ## The encoder -/

/-- A PllWord as the word that carries it (R84). -/
def pllWordBits (c : PllWord) : Word := c.rsv ++ c.src ++ c.q ++ c.p ++ c.n ++ c.m

/-- A PowerWord as the word that carries it (R85). -/
def powerWordBits (c : PowerWord) : Word := c.rsv ++ c.level ++ c.ws

/-- The opcode of a command (R82). -/
def opcodeOf : Instr → Opcode
  | .getFreq _ _ => 0x01
  | .setScaling _ _ => 0x02
  | .setLatency _ _ => 0x03
  | .enableCache _ _ => 0x04
  | .enablePrefetch _ _ => 0x05
  | .pllConfigure _ _ => 0x06
  | .pllEnable _ _ => 0x07
  | .pllWaitLock _ _ => 0x08
  | .seqRun _ _ => 0x09
  | .gateGpio _ _ => 0x0A
  | .gateUsart _ _ => 0x0B

/-- The operand word `a0` of a command (R82, R83). -/
def word0Of : Instr → Word
  | .getFreq domain _ => domain
  | .setScaling level _ => level
  | .setLatency ws _ => ws
  | .enableCache a0 _ => a0
  | .enablePrefetch a0 _ => a0
  | .pllConfigure cfg _ => pllWordBits cfg
  | .pllEnable a0 _ => a0
  | .pllWaitLock a0 _ => a0
  | .seqRun cfg _ => pllWordBits cfg
  | .gateGpio id _ => id
  | .gateUsart id _ => id

/-- The operand word `a1` of a command (R82, R83). -/
def word1Of : Instr → Word
  | .getFreq _ a1 => a1
  | .setScaling _ a1 => a1
  | .setLatency _ a1 => a1
  | .enableCache _ a1 => a1
  | .enablePrefetch _ a1 => a1
  | .pllConfigure _ a1 => a1
  | .pllEnable _ a1 => a1
  | .pllWaitLock _ a1 => a1
  | .seqRun _ pw => powerWordBits pw
  | .gateGpio _ a1 => a1
  | .gateUsart _ a1 => a1

/-- `op ‖ a1 ‖ a0` (R80). -/
def commandWord (op : Opcode) (a1 a0 : Word) : CommandWord := op ++ a1 ++ a0

/-- The command word of a command. -/
def encode (i : Instr) : CommandWord := commandWord (opcodeOf i) (word1Of i) (word0Of i)

end Sys2Proof
end

