-- ==== Sys2Proof/Machine/Defaults.lean ====
section
/-! DEFINITION. The constants the source fixes and the spec's default values of the open parameters
(spec/00_scope.md R5, spec/10_state.md R26, R40, spec/70_reset_and_hazards.md R232). PRESUMED: every default here is
the STM32F401-class family's, as the spec gives it (notes/assumptions/1.md to notes/assumptions/3.md). -/

namespace Sys2Proof.Machine

/-- `F_OSC`, the fixed internal oscillator in Hz (R5, source). -/
def fOsc : Nat := 16000000

/-- The default `REGMAP` (R26; PRESUMED, notes/assumptions/1.md). -/
def defaultRegmap : Regmap where
  pwrCrAddr := 0x40007000
  flashAcrAddr := 0x40023C00
  clkCrAddr := 0x40023800
  pllCfgrAddr := 0x40023804
  clkCfgrAddr := 0x40023808
  gateAhb1Addr := 0x40023830
  gateApb1Addr := 0x40023840
  gateApb2Addr := 0x40023844
  vos := 14
  latency := 0
  prften := 8
  icen := 9
  dcen := 10
  oscRdy := 1
  pllOn := 24
  pllRdy := 25
  pllm := ⟨.pllCfgr, 0⟩
  plln := ⟨.pllCfgr, 6⟩
  pllp := ⟨.pllCfgr, 16⟩
  pllq := ⟨.pllCfgr, 24⟩
  pllsrc := ⟨.pllCfgr, 22⟩
  sw := 0
  sws := 2
  hpre := 4
  ppre1 := 10
  ppre2 := 13
  gpioen := #v[0, 1, 2, 3, 4, 5, 6, 7]

/-- The default `MIN_LATENCY`, the same for both levels (R232). -/
def defaultLatencyTable : List LatencyRow :=
  [⟨30000000, 0⟩, ⟨60000000, 1⟩, ⟨84000000, 2⟩]

/-- The default `USART_TABLE` (R180). -/
def defaultUsartTable : List UsartEntry :=
  [⟨1, .apb2, 4⟩, ⟨2, .apb1, 17⟩, ⟨6, .apb2, 5⟩]

/-- The default `RESET_PROFILE` (R40), with the bits of no named field as in spec/95_test_vectors.md
(`CLK_CR` 0x81, `PLL_CFGR` bit 29, 0 elsewhere). The latches, which the spec leaves unspecified, come up 0
(DESIGN CHOICE, notes/assumptions/4.md). -/
def defaultProfile : Profile where
  pwrCr := 0x00008000
  flashAcr := 0x00000000
  clkCr := 0x00000083
  pllCfgr := 0x24003010
  clkCfgr := 0x00000000
  gateAhb1 := 0x00000000
  gateApb1 := 0x00000000
  gateApb2 := 0x00000000
  op := 0
  a0 := 0
  a1 := 0
  st := .ok
  rv := 0

/-- The spec's default parameters (R5). `PLANT_LIVE`, which has no default, is taken as the programs of
spec/95_test_vectors.md take it (DESIGN CHOICE, notes/assumptions/6.md). -/
def defaultParams : Params where
  regmap := defaultRegmap
  vosLow := 0b01
  vosHigh := 0b10
  fMaxLow := 60000000
  fMaxHigh := 84000000
  latencyLow := defaultLatencyTable
  latencyHigh := defaultLatencyTable
  usart := defaultUsartTable
  allowInterleave := false
  plantLive := true
  binding := .production
  profile := defaultProfile

end Sys2Proof.Machine
end

