-- ==== Sys2Proof/Machine/State.lean ====
section
/-! DEFINITION. The state of LUTk-CLK as plain data (spec/10_state.md), the reasons a step can stop, and the
state after reset (R40, R220). -/

namespace Sys2Proof.Machine

/-- The named fields of which there is one each (R18 to R22). -/
inductive FixedField where
  | vos
  | latency
  | prften
  | icen
  | dcen
  | oscRdy
  | pllOn
  | pllRdy
  | pllm
  | plln
  | pllp
  | pllq
  | pllsrc
  | sw
  | sws
  | hpre
  | ppre1
  | ppre2
deriving DecidableEq, Repr

/-- Every named field (R18 to R23). -/
inductive FieldName where
  | fixed (f : FixedField)
  | gpioen (k : Fin 8)
  | usarten (id : Word)
deriving DecidableEq, Repr

/-- The settling fields, class RWS (R17, R30). -/
inductive SettlingField where
  | vos
  | latency
  | gpioen (k : Fin 8)
  | usarten (id : Word)
deriving DecidableEq, Repr

/-- The steps of the plant (R31). -/
inductive PlantStep where
  | settle (f : SettlingField)
  | oscReady
  | pllLock
  | muxSwitch
deriving DecidableEq, Repr

/-- One access of the register-port master: a read (`write = none`) or a write of `bytes` bytes at `addr`
(R50, R54). -/
structure PortAccess where
  addr : Word
  bytes : Nat
  write : Option Word
deriving DecidableEq, Repr

/-- One turn in the total order of R60, as the state's agenda lists them. `go` is a turn of the block's own:
a micro-step of the engine while a command runs, a command accept while it is idle. The others are the
plant's (R31), the register-port master's (R61), the test harness's (R32) and reset (R220). -/
inductive Turn where
  | go
  | plant (p : PlantStep)
  | port (a : PortAccess)
  | force (f : FieldName) (v : Word)
  | reset
deriving DecidableEq, Repr

/-- A command the requester holds (R13). `onlyIfOk`: it is issued only if the response before it was `OK`,
and dropped otherwise (R90). -/
structure Request where
  word : CommandWord
  onlyIfOk : Bool
deriving DecidableEq, Repr

/-- Why the machine stops with a fault (R196). A fault is recorded in `State.fault` by the step that meets it;
every later step answers it. All six are safe: the spec says the model refuses to say what a real block would do. -/
inductive Fault where
  /-- `SET_SCALING`, `SEQ_RUN`: level operand greater than 1 (R121, R151). Safe. -/
  | undefinedScalingLevel
  /-- `PLL_CONFIGURE`, `SEQ_RUN` at T4: `PLL_ON = 1` when the fields are to be written (R130, R155). Safe. -/
  | pllReconfigWhileRunning
  /-- `GET_FREQ`: `SWS = SRC_PLL` and `PLLM = 0` (R103). Safe. -/
  | divideByZero
  /-- `GET_FREQ`: `SWS = SRC_PLL` and the VCO product does not fit 32 bits (R103). Safe. -/
  | freqOverflow
  /-- A write that selects a source not ready or not wired, or switches off the source in use (R230). Safe. -/
  | clockGlitch
  /-- A plant step or a write of `HPRE` that would break `Safe` (R231). Safe. -/
  | flashTiming
deriving DecidableEq, Repr

/-- Why a step has no meaning: the spec says the action is not enabled, so no claim is made of a run with it. -/
inductive Refusal where
  /-- An instruction not modelled yet, raised by exec's arm alone. Safe. -/
  | notModelled (mnemonic : String)
  /-- A command while `BUSY = 1` (R12, U21), raised by every command. Safe. -/
  | commandWhileBusy
  /-- `SEQ_RUN` while `SEQ` is neither `UNINITIALIZED` nor `COMPLETE` (R151 corner case b). Safe. -/
  | sequencerMidway
  /-- A register-port access while `BUSY = 1` without `ALLOW_INTERLEAVE` (R61, U19). Safe. -/
  | portWhileBusy
  /-- A register-port access narrower than 32 bits (R54), or wider (notes/assumptions/14.md). Safe. -/
  | portWidth
  /-- A register-port access at an address that is not a multiple of 4 (R54). Safe. -/
  | portMisaligned
  /-- A register-port access of an aligned word that is none of the eight registers (R50, U20;
  notes/assumptions/11.md). Safe. -/
  | portNoRegister
  /-- `Force` in the production binding (R32). Safe. -/
  | forceInProduction
deriving DecidableEq, Repr

/-- One micro-step of a command (R7, R10). The list of those that are left is the engine's position `PH` (R15). -/
inductive Micro where
  /-- `t <- MemRead(addr(reg), 4)`, the first half of `MaskedWrite` (R56) -/
  | load (reg : RegName)
  /-- `MemWrite(addr(reg), 4, (t & ~mask) | (value & mask))`, its second half (R56) -/
  | store (reg : RegName) (mask value : Word)
  /-- one evaluation of `Poll(MemRead(addr(reg), 4) & mask = value)` (R58) -/
  | poll (reg : RegName) (mask value : Word)
  /-- `Barrier()` (R62) -/
  | barrier
  /-- the read of `CLK_CR` and the check of `PLL_ON` that opens `DoPllConfigure` (R130), its fault included
  (notes/assumptions/33.md) -/
  | checkPllOff
  /-- `SEQ <- q` (R14, R151) -/
  | setSeq (q : SeqState)
  /-- the read of `CLK_CFGR` of `GET_FREQ` (R101) -/
  | freqClk (d : ClockDomain)
  /-- the read of `PLL_CFGR` of `GET_FREQ` (R102) -/
  | freqPll (d : ClockDomain)
  /-- `raise E` (R7, R191) -/
  | raise (e : Status)
  /-- `done(v)` with the value computed so far (R7) -/
  | done
  /-- `fault X` (R7, R196) -/
  | fail (f : Fault)
deriving DecidableEq, Repr

/-- A register word as it was last written (`w`) and as it reads (`r`). They differ only in settling fields
with a write pending (R30); the bits of every other field and of no field are the same in both. -/
structure Reg where
  w : Word
  r : Word
deriving DecidableEq, Repr

/-- The register file (R17). -/
structure RegFile where
  pwrCr : Reg
  flashAcr : Reg
  clkCr : Reg
  pllCfgr : Reg
  clkCfgr : Reg
  gateAhb1 : Reg
  gateApb1 : Reg
  gateApb2 : Reg
deriving DecidableEq, Repr

/-- The machine's state. -/
structure State where
  /-- the parameters of R5 this machine was made with; no step changes them -/
  params : Params
  /-- latch `OP` (R11) -/
  op : Opcode
  /-- latch `A0` (R11) -/
  a0 : Word
  /-- latch `A1` (R11) -/
  a1 : Word
  /-- latch `ST` (R11, R190) -/
  st : Status
  /-- latch `RV` (R11) -/
  rv : Word
  /-- flag `BUSY` (R12) -/
  busy : Bool
  /-- the Sequencer's state register `SEQ` (R14) -/
  seq : SeqState
  /-- `PH`: the micro-steps of the command in progress that are left (R15) -/
  ph : List Micro
  /-- part of `PH`: the word read and not yet used (R15) -/
  t : Word
  /-- part of `PH`: the value the command will respond with (R15) -/
  val : Word
  /-- the register file (R17) -/
  regs : RegFile
  /-- `WLOG`: the engine's writes, oldest first (R33) -/
  wlog : List (Word × Word)
  /-- the register port's writes, oldest first (R33) -/
  plog : List (Word × Word)
  /-- `FAULT` (R34) -/
  fault : Option Fault
  /-- the model's own: the commands the requester will issue, in order (R13) -/
  requests : List Request
  /-- the model's own: the turns to come in the total order of R60 -/
  agenda : List Turn
deriving DecidableEq, Repr

/-- A register with no write pending. -/
def Reg.settled (v : Word) : Reg := ⟨v, v⟩

/-- The register file after reset with a profile (R40). -/
def RegFile.ofProfile (p : Profile) : RegFile where
  pwrCr := .settled p.pwrCr
  flashAcr := .settled p.flashAcr
  clkCr := .settled p.clkCr
  pllCfgr := .settled p.pllCfgr
  clkCfgr := .settled p.clkCfgr
  gateAhb1 := .settled p.gateAhb1
  gateApb1 := .settled p.gateApb1
  gateApb2 := .settled p.gateApb2

/-- The state after reset of a machine with given parameters (R40, R220). `PH` is empty (R15: meaningful only
while `BUSY = 1`). -/
def State.resetWith (p : Params) : State where
  params := p
  op := p.profile.op
  a0 := p.profile.a0
  a1 := p.profile.a1
  st := p.profile.st
  rv := p.profile.rv
  busy := false
  seq := .uninitialized
  ph := []
  t := 0
  val := 0
  regs := .ofProfile p.profile
  wlog := []
  plog := []
  fault := none
  requests := []
  agenda := []

/-- The state after reset with the spec's default parameters. -/
def State.reset : State := .resetWith defaultParams

end Sys2Proof.Machine
end

