-- ==== Sys2Proof/Machine/Fields.lean ====
section
/-! DEFINITION. Where every register and every named field lies, read off the parameter `REGMAP` (spec/10_state.md
R17 to R26), the access classes (R17), and the bit-field helpers over it. Everything else names fields only. -/

namespace Sys2Proof.Machine

/-- The byte address of a register (R17, R26). -/
def regAddr (m : Regmap) : RegName → Word
  | .pwrCr => m.pwrCrAddr
  | .flashAcr => m.flashAcrAddr
  | .clkCr => m.clkCrAddr
  | .pllCfgr => m.pllCfgrAddr
  | .clkCfgr => m.clkCfgrAddr
  | .gateAhb1 => m.gateAhb1Addr
  | .gateApb1 => m.gateApb1Addr
  | .gateApb2 => m.gateApb2Addr

/-- Every register (R50). -/
def allRegs : List RegName :=
  [.pwrCr, .flashAcr, .clkCr, .pllCfgr, .clkCfgr, .gateAhb1, .gateApb1, .gateApb2]

/-- The register at a byte address, if there is one (R50). -/
def regAt (m : Regmap) (a : Word) : Option RegName := allRegs.find? fun n => regAddr m n == a

/-- A register put in its place among registers listed by rising address. -/
def insertReg (m : Regmap) (n : RegName) : List RegName → List RegName
  | [] => [n]
  | k :: ks => if regAddr m n ≤ regAddr m k then n :: k :: ks else k :: insertReg m n ks

/-- Every register, by rising address. -/
def regsByAddress (m : Regmap) : List RegName := allRegs.foldr (insertReg m) []

/-- Where a field lies: its register, its lowest bit, its width. -/
structure Place where
  reg : RegName
  lo : Nat
  width : Nat
deriving DecidableEq, Repr

/-- The word with ones in `width` bits from `lo` up. -/
def onesAt (lo width : Nat) : Word := BitVec.ofNat 32 (2 ^ width - 1) <<< lo

/-- `mask(F)` of a place. -/
def Place.mask (pl : Place) : Word := onesAt pl.lo pl.width

/-- Two places share no bit. -/
abbrev Place.Apart (a b : Place) : Prop :=
  a.reg ≠ b.reg ∨ a.lo + a.width ≤ b.lo ∨ b.lo + b.width ≤ a.lo

/-- The bits of register `n` that lie in some of the places. -/
def placesMask (ps : List Place) (n : RegName) : Word :=
  ps.foldr (fun pl acc => if pl.reg = n then pl.mask ||| acc else acc) 0

/-! ## The fields of which there is one each -/

/-- Every field of R18 to R22. -/
def fixedFields : List FixedField :=
  [.vos, .latency, .prften, .icen, .dcen, .oscRdy, .pllOn, .pllRdy, .pllm, .plln, .pllp, .pllq, .pllsrc,
   .sw, .sws, .hpre, .ppre1, .ppre2]

/-- The five fields of the PLL configuration, in the order of R130. -/
def pllFields : List FixedField := [.pllm, .plln, .pllp, .pllq, .pllsrc]

/-- The width of a field (R18 to R22). -/
def FixedField.width : FixedField → Nat
  | .vos => 2
  | .latency => 4
  | .prften => 1
  | .icen => 1
  | .dcen => 1
  | .oscRdy => 1
  | .pllOn => 1
  | .pllRdy => 1
  | .pllm => 6
  | .plln => 9
  | .pllp => 2
  | .pllq => 4
  | .pllsrc => 1
  | .sw => 2
  | .sws => 2
  | .hpre => 4
  | .ppre1 => 3
  | .ppre2 => 3

/-- The register of a field: R18 to R22 name it, and `REGMAP` for the five PLL fields, which it may split (R130). -/
def FixedField.reg (m : Regmap) : FixedField → RegName
  | .vos => .pwrCr
  | .latency => .flashAcr
  | .prften => .flashAcr
  | .icen => .flashAcr
  | .dcen => .flashAcr
  | .oscRdy => .clkCr
  | .pllOn => .clkCr
  | .pllRdy => .clkCr
  | .pllm => m.pllm.reg
  | .plln => m.plln.reg
  | .pllp => m.pllp.reg
  | .pllq => m.pllq.reg
  | .pllsrc => m.pllsrc.reg
  | .sw => .clkCfgr
  | .sws => .clkCfgr
  | .hpre => .clkCfgr
  | .ppre1 => .clkCfgr
  | .ppre2 => .clkCfgr

/-- `lo(F)` (R17). -/
def FixedField.lo (m : Regmap) : FixedField → Nat
  | .vos => m.vos
  | .latency => m.latency
  | .prften => m.prften
  | .icen => m.icen
  | .dcen => m.dcen
  | .oscRdy => m.oscRdy
  | .pllOn => m.pllOn
  | .pllRdy => m.pllRdy
  | .pllm => m.pllm.lo
  | .plln => m.plln.lo
  | .pllp => m.pllp.lo
  | .pllq => m.pllq.lo
  | .pllsrc => m.pllsrc.lo
  | .sw => m.sw
  | .sws => m.sws
  | .hpre => m.hpre
  | .ppre1 => m.ppre1
  | .ppre2 => m.ppre2

/-- The place of a field (R17). -/
def FixedField.place (m : Regmap) (f : FixedField) : Place := ⟨f.reg m, f.lo m, f.width⟩

/-- `mask(F)` of a field. -/
def FixedField.mask (m : Regmap) (f : FixedField) : Word := (f.place m).mask

/-- `v << lo(F)`: a field's value in its place in the word. -/
def FixedField.put (m : Regmap) (f : FixedField) (v : Word) : Word := v <<< f.lo m

/-- The bits of a field in its register's word: `v[hi:lo]` (R6). -/
def FixedField.get (m : Regmap) (f : FixedField) (v : Word) : BitVec f.width :=
  v.extractLsb' (f.lo m) f.width

/-- `VOS` of a `PWR_CR` word (R18). -/
def vosOf (m : Regmap) (v : Word) : BitVec 2 := FixedField.vos.get m v
/-- `LATENCY` of a `FLASH_ACR` word (R19). -/
def latencyOf (m : Regmap) (v : Word) : BitVec 4 := FixedField.latency.get m v
/-- `OSC_RDY` of a `CLK_CR` word (R20). -/
def oscRdyOf (m : Regmap) (v : Word) : BitVec 1 := FixedField.oscRdy.get m v
/-- `PLL_ON` of a `CLK_CR` word (R20). -/
def pllOnOf (m : Regmap) (v : Word) : BitVec 1 := FixedField.pllOn.get m v
/-- `PLL_RDY` of a `CLK_CR` word (R20). -/
def pllRdyOf (m : Regmap) (v : Word) : BitVec 1 := FixedField.pllRdy.get m v
/-- `SW` of a `CLK_CFGR` word (R22). -/
def swOf (m : Regmap) (v : Word) : BitVec 2 := FixedField.sw.get m v
/-- `SWS` of a `CLK_CFGR` word (R22). -/
def swsOf (m : Regmap) (v : Word) : BitVec 2 := FixedField.sws.get m v
/-- `HPRE` of a `CLK_CFGR` word (R22). -/
def hpreOf (m : Regmap) (v : Word) : BitVec 4 := FixedField.hpre.get m v
/-- `PPRE1` of a `CLK_CFGR` word (R22). -/
def ppre1Of (m : Regmap) (v : Word) : BitVec 3 := FixedField.ppre1.get m v
/-- `PPRE2` of a `CLK_CFGR` word (R22). -/
def ppre2Of (m : Regmap) (v : Word) : BitVec 3 := FixedField.ppre2.get m v

/-! ## The gate enables -/

/-- The place of `GPIOEN[k]` (R23). -/
def gpioPlace (m : Regmap) (k : Fin 8) : Place := ⟨.gateAhb1, m.gpioen.get k, 1⟩

/-- The gate register of a USART bus (R180). -/
def busReg : UsartBus → RegName
  | .apb1 => .gateApb1
  | .apb2 => .gateApb2

/-- The entry of a USART instance id in `USART_TABLE`, if the id is a key (R180, R182). -/
def usartEntry (p : Params) (id : Word) : Option UsartEntry :=
  p.usart.find? fun e => e.id == id

/-- The place of the `USARTEN` bit of a table entry (R23, R180). -/
def usartPlace (e : UsartEntry) : Place := ⟨busReg e.bus, e.bit, 1⟩

/-- The place of a field; a USART instance that is no key of the table has none. -/
def FieldName.place (p : Params) : FieldName → Option Place
  | .fixed f => some (f.place p.regmap)
  | .gpioen k => some (gpioPlace p.regmap k)
  | .usarten id => (usartEntry p id).map usartPlace

/-! ## The access classes -/

/-- The places of every `GPIOEN[k]` (R23). -/
def gpioPlaces (m : Regmap) : List Place := (List.finRange 8).map (gpioPlace m)

/-- The places of every `USARTEN[id]` (R23). -/
def usartPlaces (p : Params) : List Place := p.usart.map usartPlace

/-- The places `REGMAP` gives. -/
def mapPlaces (m : Regmap) : List Place := fixedFields.map (FixedField.place m) ++ gpioPlaces m

/-- The places of every named field (R18 to R23). -/
def namedPlaces (p : Params) : List Place := mapPlaces p.regmap ++ usartPlaces p

/-- The places of the settling fields, class RWS (R17 to R23). -/
def rwsPlaces (p : Params) : List Place :=
  FixedField.vos.place p.regmap :: FixedField.latency.place p.regmap :: gpioPlaces p.regmap ++ usartPlaces p

/-- The places of the read-only fields, class RO (R20, R22). -/
def roPlaces (m : Regmap) : List Place :=
  [FixedField.oscRdy.place m, FixedField.pllRdy.place m, FixedField.sws.place m]

/-- The bits of the settling fields of a register. -/
def rwsMask (p : Params) (n : RegName) : Word := placesMask (rwsPlaces p) n

/-- The bits of the read-only fields of a register. -/
def roMask (m : Regmap) (n : RegName) : Word := placesMask (roPlaces m) n

/-- The bits of the five PLL fields in a register (R21, R130). -/
def pllFieldsMask (m : Regmap) (n : RegName) : Word := placesMask (pllFields.map (FixedField.place m)) n

/-- The bits of a register that belong to a named field (R18 to R23); the others are outside the block (R24). -/
def namedMask (p : Params) (n : RegName) : Word := placesMask (namedPlaces p) n

/-- The registers that hold the five PLL fields, each once, in the order M, N, P, Q, source (R130). A register that holds several
of them stands where its first field does, also where a field of another register comes between (DESIGN CHOICE,
notes/assumptions/35.md). -/
def pllRegs (m : Regmap) : List RegName := (pllFields.map (FixedField.reg m)).eraseDups

/-- The map is one R5, R17 and R50 admit: eight registers at eight word addresses, every field inside its register,
and no two fields on one bit. -/
abbrev mapWf (p : Params) : Prop :=
  allRegs.Pairwise (fun n k => regAddr p.regmap n ≠ regAddr p.regmap k)
    ∧ (∀ n ∈ allRegs, regAddr p.regmap n &&& 3 = 0)
    ∧ (∀ pl ∈ mapPlaces p.regmap, pl.lo + pl.width ≤ 32)
    ∧ (mapPlaces p.regmap).Pairwise Place.Apart
    ∧ ∀ e ∈ p.usart, ∀ pl ∈ mapPlaces p.regmap, (usartPlace e).Apart pl

/-! ## Words and registers -/

/-- `old` with the bits of `mask` taken from `new`. -/
def merge (mask new old : Word) : Word := (old &&& ~~~mask) ||| (new &&& mask)

/-- One register of the file. -/
def RegFile.get (f : RegFile) : RegName → Reg
  | .pwrCr => f.pwrCr
  | .flashAcr => f.flashAcr
  | .clkCr => f.clkCr
  | .pllCfgr => f.pllCfgr
  | .clkCfgr => f.clkCfgr
  | .gateAhb1 => f.gateAhb1
  | .gateApb1 => f.gateApb1
  | .gateApb2 => f.gateApb2

/-- The file with one register replaced. -/
def RegFile.set (f : RegFile) (n : RegName) (v : Reg) : RegFile :=
  match n with
  | .pwrCr => { f with pwrCr := v }
  | .flashAcr => { f with flashAcr := v }
  | .clkCr => { f with clkCr := v }
  | .pllCfgr => { f with pllCfgr := v }
  | .clkCfgr => { f with clkCfgr := v }
  | .gateAhb1 => { f with gateAhb1 := v }
  | .gateApb1 => { f with gateApb1 := v }
  | .gateApb2 => { f with gateApb2 := v }

/-- A register with the bits of `mask` set to those of `v`, as written and as read. -/
def Reg.force (x : Reg) (mask v : Word) : Reg := ⟨merge mask v x.w, merge mask v x.r⟩

/-- The canonical form of a register: outside its settling fields, what was written is what reads. -/
abbrev regWf (p : Params) (n : RegName) (x : Reg) : Prop :=
  (x.w ^^^ x.r) &&& ~~~ rwsMask p n = 0

/-- The canonical form of the register file. -/
abbrev RegFile.wf (p : Params) (f : RegFile) : Prop :=
  regWf p .pwrCr f.pwrCr ∧ regWf p .flashAcr f.flashAcr ∧ regWf p .clkCr f.clkCr
    ∧ regWf p .pllCfgr f.pllCfgr ∧ regWf p .clkCfgr f.clkCfgr ∧ regWf p .gateAhb1 f.gateAhb1
    ∧ regWf p .gateApb1 f.gateApb1 ∧ regWf p .gateApb2 f.gateApb2

/-- `Rd(F)` (R7): a field as it reads. -/
def RegFile.rd (f : RegFile) (m : Regmap) (q : FixedField) : BitVec q.width := q.get m (f.get (q.reg m)).r

/-- The byte at an address of the register space, little-endian (R51); an address outside the eight registers
holds none (R50). -/
def RegFile.byteAt (m : Regmap) (f : RegFile) (a : Word) : Option Byte :=
  (regAt m (a &&& ~~~ 3)).map fun n =>
    (f.get n).r.extractLsb' (8 * (a &&& 3).toNat) 8

/-- The 32 bytes of the register space as (address, byte) cells, by rising address (R50, R51). -/
def RegFile.image (m : Regmap) (f : RegFile) : List Host.Cell :=
  (regsByAddress m).flatMap fun n => (List.range 4).map fun i =>
    ((regAddr m n).toNat + i, (f.get n).r.extractLsb' (8 * i) 8)

end Sys2Proof.Machine
end

