-- ==== Sys2Proof/Machine/Clock.lean ====
section
/-! DEFINITION. The arithmetic of the clock tree (spec/40_derivation_engine.md R102 to R108): unsigned,
truncating, in the source's order; and the invariant `Safe` of spec/70_reset_and_hazards.md R231. -/

namespace Sys2Proof.Machine

/-- `SRC_OSC` (R22). -/
def srcOsc : BitVec 2 := 0b00

/-- `SRC_PLL` (R22). -/
def srcPll : BitVec 2 := 0b10

/-- `AHB_TABLE` (R5, R104). There is no divide-by-32 entry. -/
def ahbTable : Fin 8 → Nat
  | 0 => 2
  | 1 => 4
  | 2 => 8
  | 3 => 16
  | 4 => 64
  | 5 => 128
  | 6 => 256
  | 7 => 512

/-- `APB_TABLE` (R5, R105). -/
def apbTable : Fin 4 → Nat
  | 0 => 2
  | 1 => 4
  | 2 => 8
  | 3 => 16

/-- `AhbDiv(h)` (R104): bit 3 enables, bits 2:0 index the table. -/
def ahbDiv (h : BitVec 4) : Nat :=
  if h.getLsbD 3 then ahbTable (h.extractLsb' 0 3).toFin else 1

/-- `ApbDiv(pp)` (R105): bit 2 enables, bits 1:0 index the table. -/
def apbDiv (pp : BitVec 3) : Nat :=
  if pp.getLsbD 2 then apbTable (pp.extractLsb' 0 2).toFin else 1

/-- `P = 2 * (PLLP + 1)` (R21, R102). -/
def pllDivider (pp : BitVec 2) : Nat := 2 * (pp.toNat + 1)

/-- `PllOut(m, n, p)` (R103): divide, multiply, divide; `DivideByZero` when `m = 0`, `FreqOverflow` when the
product does not fit 32 bits. -/
def pllOut (m n p : Nat) : Except Fault Nat :=
  if m = 0 then .error .divideByZero
  else if 2 ^ 32 ≤ fOsc / m * n then .error .freqOverflow
  else .ok (fOsc / m * n / p)

/-- `PllOut` on the PLL fields as they read (R102). -/
def pllFreq (m : Regmap) (f : RegFile) : Except Fault Nat :=
  pllOut (f.rd m .pllm).toNat (f.rd m .plln).toNat (pllDivider (f.rd m .pllp))

/-- `TimerFreq(per, pdiv)` (R106). -/
def timerFreq (per pdiv : Nat) : Nat := if 1 < pdiv then 2 * per else per

/-- The core clock from the system clock (R101, R104). -/
def coreFreq (m : Regmap) (sys : Nat) (c : Word) : Nat := sys / ahbDiv (hpreOf m c)

/-- A peripheral bus clock from the core clock (R105). -/
def periphFreq (core : Nat) (pp : BitVec 3) : Nat := core / apbDiv pp

/-- The frequency of a domain, from the system clock and the `CLK_CFGR` word `c` (R101). -/
def domainFreq (m : Regmap) (d : ClockDomain) (sys : Nat) (c : Word) : Nat :=
  let core := coreFreq m sys c
  match d with
  | .system => sys
  | .core => core
  | .apb1Periph => periphFreq core (ppre1Of m c)
  | .apb2Periph => periphFreq core (ppre2Of m c)
  | .apb1Timer => timerFreq (periphFreq core (ppre1Of m c)) (apbDiv (ppre1Of m c))
  | .apb2Timer => timerFreq (periphFreq core (ppre2Of m c)) (apbDiv (ppre2Of m c))

/-- What `GET_FREQ CORE` would return from the registers as they read, when it returns a value (R231, R101). -/
def coreNow (m : Regmap) (f : RegFile) : Option Nat :=
  let c := f.clkCfgr.r
  if swsOf m c = srcPll then
    match pllFreq m f with
    | .ok sys => some (coreFreq m sys c)
    | .error _ => none
  else if swsOf m c = srcOsc then some (coreFreq m fOsc c)
  else none

/-- `VOS_ENC(level)` (R5). -/
def vosEnc (p : Params) : Level → BitVec 2
  | .low => p.vosLow
  | .high => p.vosHigh

/-- The level whose encoding `VOS.r` is, or `LOW` if none (R231). Where a `VOS_ENC` gives both levels one encoding, which
R5 does not rule out, it is `HIGH` that is shown (DESIGN CHOICE, notes/assumptions/29.md). -/
def levelShown (p : Params) (v : BitVec 2) : Level := if v = p.vosHigh then .high else .low

/-- `F_MAX(level)` (R5). -/
def fMax (p : Params) : Level → Nat
  | .low => p.fMaxLow
  | .high => p.fMaxHigh

/-- The rows of `MIN_LATENCY` for a level (R5). -/
def latencyRows (p : Params) : Level → List LatencyRow
  | .low => p.latencyLow
  | .high => p.latencyHigh

/-- `MIN_LATENCY(f, level)` (R5, R232): the wait states of the first row that reaches `f`; above the last row
the table gives none. -/
def minLatency (p : Params) (l : Level) (f : Nat) : Option Nat :=
  ((latencyRows p l).find? fun row => decide (f ≤ row.maxFreq)).map (·.waitStates)

/-- `LATENCY.r` is enough for core frequency `f` (R231). No count is known to be enough above the table
(notes/assumptions/18.md). -/
def latencyEnough (p : Params) (l : Level) (f ws : Nat) : Bool :=
  match minLatency p l f with
  | some need => decide (need ≤ ws)
  | none => false

/-- `Safe` (R231), on the words that read: true when `GET_FREQ CORE` would return no value. -/
def RegFile.safe (p : Params) (f : RegFile) : Bool :=
  match coreNow p.regmap f with
  | none => true
  | some core =>
    let l := levelShown p (vosOf p.regmap f.pwrCr.r)
    decide (core ≤ fMax p l) && latencyEnough p l core (latencyOf p.regmap f.flashAcr.r).toNat

end Sys2Proof.Machine
end

