-- ==== Sys2Proof/Machine/Operands.lean ====
section
/-! DEFINITION. The operands of the commands (spec/30_encoding.md R84 to R86, spec/43_gate_controller.md R180):
what each operand form means and which values are legal. -/

namespace Sys2Proof.Machine

/-- `PllValid(w)` (R84). -/
def pllValid (w : PllWord) : Bool :=
  w.rsv == 0
    && decide (2 ≤ w.m.toNat) && decide (w.m.toNat ≤ 63)
    && decide (50 ≤ w.n.toNat) && decide (w.n.toNat ≤ 432)
    && (w.p == 2 || w.p == 4 || w.p == 6 || w.p == 8)

/-- `PowerValid(w)` (R85). -/
def powerValid (w : PowerWord) : Bool := w.rsv == 0 && decide (w.ws.toNat ≤ 15)

/-- ClockDomainId (R86): 0 to 5, `none` above. -/
def domainOf (w : Word) : Option ClockDomain :=
  match w.toNat with
  | 0 => some .system
  | 1 => some .core
  | 2 => some .apb1Periph
  | 3 => some .apb2Periph
  | 4 => some .apb1Timer
  | 5 => some .apb2Timer
  | _ => none

/-- VoltageScalingLevel (R86): 0 is `LOW`, 1 is `HIGH`, `none` above: the number is the operand's value. -/
def levelOf (n : Nat) : Option Level :=
  match n with
  | 0 => some .low
  | 1 => some .high
  | _ => none

/-- A GPIO bank (R86): 0 (A) to 7 (H), `none` above. -/
def gpioBankOf (w : Word) : Option (Fin 8) :=
  if h : w.toNat < 8 then some ⟨w.toNat, h⟩ else none

/-- `PLLP = P div 2 - 1` (R84, R130). -/
def pllpEnc (p : BitVec 4) : Word := BitVec.ofNat 32 (p.toNat / 2 - 1)

/-- The values `DoPllConfigure` gives the five fields, in the order of R130. -/
def pllValues (w : PllWord) : List (FixedField × Word) :=
  [(.pllm, w.m.setWidth 32), (.plln, w.n.setWidth 32), (.pllp, pllpEnc w.p), (.pllq, w.q.setWidth 32),
   (.pllsrc, w.src.setWidth 32)]

/-- The value `DoPllConfigure` writes into those of the five fields that lie in register `n` (R130). -/
def pllImage (m : Regmap) (w : PllWord) (n : RegName) : Word :=
  (pllValues w).foldr (fun fv acc => if fv.1.reg m = n then fv.1.put m fv.2 ||| acc else acc) 0

/-- The document's one concrete PLL configuration, `BOOT_TARGET` (R5): M=16, N=336, P=4, Q=8. -/
def bootTarget : PllWord := { rsv := 0, src := 0, q := 8, p := 4, n := 336, m := 16 }

end Sys2Proof.Machine
end

