-- ==== Sys2Proof/Machine/Flags.lean ====
section
/-! DEFINITION. The status-like state (spec/10_state.md R16: there are no condition codes and no arithmetic
flags): the numeric codes of `ST` and `SEQ`, the response, the error response (this hardware's one way of
taking an exception, spec/60_exceptions.md R191), and the recording of a fault (R196). -/

namespace Sys2Proof.Machine

/-- The code of a status on `ST[1:0]` (R190). -/
def statusCode : Status → BitVec 2
  | .ok => 0
  | .invalidParameter => 1
  | .alreadyInitialized => 2
  | .notAvailable => 3

/-- The 3-bit encoding of a Sequencer state (R14). -/
def seqCode : SeqState → BitVec 3
  | .uninitialized => 0
  | .oscillatorReady => 1
  | .scalingSet => 2
  | .latencySet => 3
  | .pllProgrammed => 4
  | .pllLocked => 5
  | .switched => 6
  | .complete => 7

/-- The read-only output `seq_state[2:0]` (R14, R203). -/
def State.seqState (s : State) : BitVec 3 := seqCode s.seq

/-- The response pair the requester sees (R80, R190). -/
def State.response (s : State) : BitVec 2 × Word := (statusCode s.st, s.rv)

/-- `SEQ` is one of the six states a command accept never finds (R151 corner case b). -/
def seqMidway (q : SeqState) : Bool := !(q == .uninitialized) && !(q == .complete)

/-- The end of a command: the response is given and the engine is idle (R7, R12). `PH` means nothing any more
(R15), so it is emptied. -/
def respond (e : Status) (v : Word) (s : State) : State :=
  { s with st := e, rv := v, busy := false, ph := [], t := 0, val := 0 }

/-- `raise E` (R7, R191): `ST <- code(E)`, `RV <- 0`, `BUSY <- 0`; nothing else changes. There is no vector, no
saved context and no return (R191, R192). -/
def raiseError (e : Status) (s : State) : State := respond e 0 s

/-- `fault X` (R7, R34, R196): `FAULT` is set; `ST`, `RV`, `BUSY` stay. -/
def recordFault (f : Fault) (s : State) : State := { s with fault := some f }

/-- A command is in progress and no fault is recorded: the engine has a step (R10, R34). -/
def State.running (s : State) : Bool := s.busy && s.fault.isNone

/-- The block can accept a command (R12). -/
def State.idle (s : State) : Bool := !s.busy && s.fault.isNone

end Sys2Proof.Machine
end

