-- ==== Sys2Proof/Machine/Ops.lean ====
section
/-! DEFINITION. The shared operations: reading and writing the register file (spec/20_memory.md R52, R53), the
engine's micro-steps (R56 to R58, R62), the steps of the plant (spec/10_state.md R30, R31), the register port
(R54, R61), `Force` (R32), reset (R220), and the running of a command in the total order of R60. -/

namespace Sys2Proof.Machine

/-! ## The register file -/

/-- `MemRead(addr(n), 4)` (R52): a settling field reads `F.r`. -/
def memRead (s : State) (n : RegName) : Word := (s.regs.get n).r

/-- The bits of a register that a write of the production binding takes (R53): not the read-only ones, and not
the five PLL fields, wherever they lie, while `PLL_ON = 1`. -/
def takenMask (m : Regmap) (pllOn : Bool) (n : RegName) : Word :=
  ~~~ (roMask m n ||| if pllOn then pllFieldsMask m n else 0)

/-- One register after a write (R53): a settling field takes the value in `F.w` alone. -/
def writtenReg (p : Params) (pllOn : Bool) (n : RegName) (v : Word) (x : Reg) : Reg where
  w := merge (takenMask p.regmap pllOn n) v x.w
  r := merge (takenMask p.regmap pllOn n &&& ~~~ rwsMask p n) v x.r

/-- `PLL_ON` as it reads. -/
def RegFile.pllOn (m : Regmap) (f : RegFile) : Bool := pllOnOf m f.clkCr.r == 1

/-- The write from `f` to `f'` clears `PLL_ON` (R53). -/
def clearsPll (m : Regmap) (f f' : RegFile) : Bool := f.pllOn m && !f'.pllOn m

/-- The file with a field set to `v`, as written and as read: how a status field changes (R31, R53). -/
def RegFile.setField (m : Regmap) (q : FixedField) (v : Word) (f : RegFile) : RegFile :=
  f.set (q.reg m) ((f.get (q.reg m)).force (q.mask m) (q.put m v))

/-- The register file after a write of the production binding that meets no hazard (R53): when the write clears
`PLL_ON`, `PLL_RDY <- 0` in the same step. -/
def afterWrite (p : Params) (n : RegName) (v : Word) (f : RegFile) : RegFile :=
  let f' := f.set n (writtenReg p (f.pllOn p.regmap) n v (f.get n))
  if clearsPll p.regmap f f' then f'.setField p.regmap .pllRdy 0 else f'

/-- A source that may be selected (R230): wired, and ready. -/
def selectable (m : Regmap) (f : RegFile) (src : BitVec 2) : Bool :=
  if src = srcPll then pllRdyOf m f.clkCr.r == 1
  else if src = srcOsc then oscRdyOf m f.clkCr.r == 1
  else false

/-- The checks made at a write of register `n` that takes the file from `f` to `f'` (R53, R230, R231). A write that
breaks both R230 and R231 is recorded as `ClockGlitch`: the spec gives the two no order (DESIGN CHOICE,
notes/assumptions/31.md). -/
def writeHazard (p : Params) (n : RegName) (f f' : RegFile) : Option Fault :=
  let m := p.regmap
  if clearsPll m f f' ∧ swsOf m f.clkCfgr.r = srcPll then some .clockGlitch
  else if n = .clkCfgr ∧ swOf m f'.clkCfgr.r ≠ swsOf m f.clkCfgr.r
      ∧ ¬ selectable m f (swOf m f'.clkCfgr.r) then some .clockGlitch
  else if hpreOf m f'.clkCfgr.r ≠ hpreOf m f.clkCfgr.r ∧ ¬ f'.safe p then some .flashTiming
  else none

/-- Who writes the register file. -/
inductive Writer where
  | engine
  | port
deriving DecidableEq, Repr

/-- The write is recorded: the engine's in `WLOG`, the port's in the second list (R33, R53). -/
def logWrite (who : Writer) (n : RegName) (v : Word) (s : State) : State :=
  match who with
  | .engine => { s with wlog := s.wlog ++ [(regAddr s.params.regmap n, v)] }
  | .port => { s with plog := s.plog ++ [(regAddr s.params.regmap n, v)] }

/-- `MemWrite(addr(n), 4, v)` (R53), one step. In the test binding every bit is plain storage (R68). A write that
meets a hazard faults instead and leaves the file and the lists as they were (notes/assumptions/10.md). -/
def memWrite (who : Writer) (n : RegName) (v : Word) (s : State) : State :=
  match s.params.binding with
  | .test => logWrite who n v { s with regs := s.regs.set n ⟨v, v⟩ }
  | .production =>
    let f' := afterWrite s.params n v s.regs
    match writeHazard s.params n s.regs f' with
    | some f => recordFault f s
    | none => logWrite who n v { s with regs := f' }

/-! ## Command bodies as lists of micro-steps -/

/-- `MaskedWrite(n, mask, value)` (R7, R56): two micro-steps. -/
def maskedWrite (n : RegName) (mask value : Word) : List Micro := [.load n, .store n mask value]

/-- `OrIn(n, mask)` (R7, R57). -/
def orIn (n : RegName) (mask : Word) : List Micro := maskedWrite n mask mask

/-- `Poll(Rd(F) = v)` for a fixed field (R7, R58). -/
def pollField (m : Regmap) (f : FixedField) (v : Word) : List Micro :=
  [.poll (f.reg m) (f.mask m) (f.put m v)]

/-! ## The engine -/

/-- The read of `CLK_CFGR` in `GET_FREQ d` (R101, R102): with the PLL selected the word is kept and the PLL fields are
read next; with the oscillator selected the value is known; otherwise `NotAvailable` is raised. -/
def freqClkStep (d : ClockDomain) (rest : List Micro) (s : State) : State :=
  let m := s.params.regmap
  let c := memRead s .clkCfgr
  if swsOf m c = srcPll then { s with t := c, ph := rest }
  else if swsOf m c = srcOsc then
    { s with val := BitVec.ofNat 32 (domainFreq m d fOsc c), ph := rest.tail }
  else { s with ph := [.raise .notAvailable] }

/-- The read of the PLL fields in `GET_FREQ d` and the walk (R102, R103): one read of `PLL_CFGR`, or, where `REGMAP` splits
the fields, of the registers that hold them, at one point (DESIGN CHOICE, notes/assumptions/32.md). A fault of the walk is recorded
in the micro-step of that read, so no turn falls between the two (DESIGN CHOICE, notes/assumptions/33.md). -/
def freqPllStep (d : ClockDomain) (rest : List Micro) (s : State) : State :=
  match pllFreq s.params.regmap s.regs with
  | .ok sys => { s with val := BitVec.ofNat 32 (domainFreq s.params.regmap d sys s.t), ph := rest }
  | .error f => recordFault f s

/-- One micro-step `m`, with `rest` to follow. A poll whose condition is false leaves `PH` where it is (R58). -/
def runMicro (m : Micro) (rest : List Micro) (s : State) : State :=
  match m with
  | .load n => { s with t := memRead s n, ph := rest }
  | .store n mask v => memWrite .engine n (merge mask v s.t) { s with ph := rest }
  | .poll n mask v => if memRead s n &&& mask = v then { s with ph := rest } else s
  | .barrier => { s with ph := rest }
  | .checkPllOff =>
    if s.regs.pllOn s.params.regmap then recordFault .pllReconfigWhileRunning s else { s with ph := rest }
  | .setSeq q => { s with seq := q, ph := rest }
  | .freqClk d => freqClkStep d rest s
  | .freqPll d => freqPllStep d rest s
  | .raise e => raiseError e s
  | .done => respond .ok s.val s
  | .fail f => recordFault f s

/-- The engine's next micro-step, if it has one (R10, R34). -/
def engineStep (s : State) : State :=
  if s.running then
    match s.ph with
    | [] => s
    | m :: rest => runMicro m rest s
  else s

/-! ## The plant -/

/-- A settling field among the named ones. -/
def SettlingField.toField : SettlingField → FieldName
  | .vos => .fixed .vos
  | .latency => .fixed .latency
  | .gpioen k => .gpioen k
  | .usarten id => .usarten id

/-- The register and mask of a settling field; a USART instance that is no key has none. -/
def SettlingField.bits (p : Params) (q : SettlingField) : Option (RegName × Word) :=
  (q.toField.place p).map fun pl => (pl.reg, pl.mask)

/-- A write is pending in the bits `mask` of a register: `F.w != F.r` (R30). -/
def pending (mask : Word) (x : Reg) : Bool := (x.w ^^^ x.r) &&& mask != 0

/-- The condition under which a plant step is enabled (R30, R31). -/
def plantCondition (p : Params) (f : RegFile) : PlantStep → Bool
  | .settle q =>
    match SettlingField.bits p q with
    | some (n, mask) => pending mask (f.get n)
    | none => false
  | .oscReady => oscRdyOf p.regmap f.clkCr.r == 0
  | .pllLock => f.pllOn p.regmap && pllRdyOf p.regmap f.clkCr.r == 0
  | .muxSwitch =>
    swsOf p.regmap f.clkCfgr.r != swOf p.regmap f.clkCfgr.r
      && selectable p.regmap f (swOf p.regmap f.clkCfgr.r)

/-- The effect of a plant step on the register file (R30, R31). -/
def plantEffect (p : Params) (f : RegFile) : PlantStep → RegFile
  | .settle q =>
    match SettlingField.bits p q with
    | some (n, mask) =>
      let x := f.get n
      f.set n { x with r := merge mask x.w x.r }
    | none => f
  | .oscReady => f.setField p.regmap .oscRdy 1
  | .pllLock => f.setField p.regmap .pllRdy 1
  | .muxSwitch => f.setField p.regmap .sws ((swOf p.regmap f.clkCfgr.r).setWidth 32)

/-- The plant steps at which `Safe` is checked (R231). -/
def plantChecked : PlantStep → Bool
  | .settle .vos => true
  | .settle .latency => true
  | .settle (.gpioen _) => false
  | .settle (.usarten _) => false
  | .oscReady => false
  | .pllLock => false
  | .muxSwitch => true

/-- A plant step can be taken: the production binding has a plant (R68), no fault is recorded (R34), and the
step's own condition holds. -/
def plantEnabled (s : State) (q : PlantStep) : Bool :=
  s.params.binding == .production && s.fault.isNone && plantCondition s.params s.regs q

/-- A plant step (R31): one that is not enabled does nothing (notes/assumptions/13.md), one that would break `Safe`
faults `FlashTiming` instead (R231). -/
def plantStep (q : PlantStep) (s : State) : State :=
  if plantEnabled s q then
    let f' := plantEffect s.params s.regs q
    if plantChecked q && !f'.safe s.params then recordFault .flashTiming s
    else { s with regs := f' }
  else s

/-- Every settling field. -/
def settlingFields (p : Params) : List SettlingField :=
  [.vos, .latency] ++ (List.finRange 8).map .gpioen ++ p.usart.map (fun e => .usarten e.id)

/-- Every step the plant has. -/
def plantSteps (p : Params) : List PlantStep :=
  [.oscReady, .pllLock] ++ (settlingFields p).map .settle ++ [.muxSwitch]

/-- The plant takes each of its steps that is enabled, once. -/
def plantAll (s : State) : State := (plantSteps s.params).foldl (fun s q => plantStep q s) s

/-- What the plant does when the agenda says nothing more: under `PLANT_LIVE` it takes every enabled step,
otherwise none (R198, notes/assumptions/6.md). -/
def plantAlone (s : State) : State := if s.params.plantLive then plantAll s else s

/-! ## The register port, `Force` and reset -/

/-- A register-port access (R50, R54, R61). An aligned word access at an address that is no register is outside the block
and without effect on its state (R50): it is refused (U20; notes/assumptions/11.md). -/
def portStep (a : PortAccess) (s : State) : Host.Outcome State Fault Refusal :=
  if s.busy && !s.params.allowInterleave then .refused .portWhileBusy
  else if a.bytes ≠ 4 then .refused .portWidth
  else if a.addr &&& 3 ≠ 0 then .refused .portMisaligned
  else
    match regAt s.params.regmap a.addr, a.write with
    | some n, some v => .next (memWrite .port n v s)
    | some _, none => .next s
    | none, _ => .refused .portNoRegister

/-- `Force(F, v)` (R32): any field is set to `v`, as written and as read; only in the test binding. A field that
is in no register is not there to be set. R32 does not say when the harness may do so: here at any turn, the micro-steps of
a running command not excepted, whatever `ALLOW_INTERLEAVE` (DESIGN CHOICE, notes/assumptions/30.md). -/
def forceStep (q : FieldName) (v : Word) (s : State) : Host.Outcome State Fault Refusal :=
  match s.params.binding with
  | .production => .refused .forceInProduction
  | .test =>
    match q.place s.params with
    | none => .next s
    | some pl =>
      .next { s with regs := s.regs.set pl.reg ((s.regs.get pl.reg).force pl.mask (v <<< pl.lo)) }

/-- Reset (R220): the state of R40 for the same machine; what the outside world will do is not the machine's to
forget. -/
def resetStep (s : State) : State :=
  { State.resetWith s.params with requests := s.requests, agenda := s.agenda }

/-! ## Running a command in the total order of R60 -/

/-- One turn of the total order. -/
def turnStep (tn : Turn) (s : State) : Host.Outcome State Fault Refusal :=
  match tn with
  | .go => .next (engineStep s)
  | .plant q => .next (plantStep q s)
  | .port a => portStep a s
  | .force q v => forceStep q v s
  | .reset => .next (resetStep s)

/-- The engine's next micro-steps when the agenda is empty, at most `n`; before each the plant moves as
`plantAlone` says. -/
def engineAlone : Nat → State → State
  | 0, s => s
  | n + 1, s => if s.running then engineAlone n (engineStep (plantAlone s)) else s

/-- The turns of the agenda while the command in progress runs; then the engine with nobody else moving but the
plant. It ends with the command, with a fault, or, where a poll's condition stays false, with the engine still
polling (R58, R198). Turns not used stay on the agenda. -/
def runTurns : List Turn → State → Host.Outcome State Fault Refusal
  | [], s => .next (engineAlone s.ph.length { s with agenda := [] })
  | tn :: ts, s =>
    if s.running then
      match turnStep tn { s with agenda := ts } with
      | .next s' => runTurns ts s'
      | .fault f => .fault f
      | .refused r => .refused r
    else .next { s with agenda := tn :: ts }

/-- Command accept (R12): the latches take the command word's fields, `BUSY <- 1`, and the engine stands before
the command's first micro-step. -/
def accept (op : Opcode) (a1 a0 : Word) (body : List Micro) (s : State) : State :=
  { s with op := op, a1 := a1, a0 := a0, busy := true, ph := body, t := 0, val := 0 }

/-- A command word is accepted and run (R12). With a fault recorded nothing steps (R34); while a command runs
none is accepted (U21). -/
def issueWord (op : Opcode) (a1 a0 : Word) (body : List Micro) (s : State) :
    Host.Outcome State Fault Refusal :=
  match s.fault with
  | some f => .fault f
  | none =>
    if s.busy then .refused .commandWhileBusy
    else runTurns s.agenda (accept op a1 a0 body s)

/-- A command is accepted and its body run. -/
def issue (i : Instr) (body : List Micro) (s : State) : Host.Outcome State Fault Refusal :=
  issueWord (opcodeOf i) (word1Of i) (word0Of i) body s

/-- A reserved opcode (R88): accepted, no access, `INVALID_PARAMETER`. -/
def issueReserved (cw : CommandWord) (s : State) : Host.Outcome State Fault Refusal :=
  issueWord (opOf cw) (a1Of cw) (a0Of cw) [.raise .invalidParameter] s

end Sys2Proof.Machine
end

