-- ==== Sys2Proof/Machine/Derivation.lean ====
section
/-! DEFINITION. The Frequency Derivation Engine's command (spec/40_derivation_engine.md R101). -/

namespace Sys2Proof.Machine

/-- The micro-steps of `GET_FREQ` for a legal domain (R101, R110): one read of `CLK_CFGR`, one of `PLL_CFGR` only
with the PLL selected, the response. -/
def freqBody (d : ClockDomain) : List Micro := [.freqClk d, .freqPll d, .done]

/-- `GET_FREQ domain` (R101): a domain above 5 is rejected before any read. -/
def execGetFreq (domain a1 : Word) (s : State) : Host.Outcome State Fault Refusal :=
  issue (.getFreq domain a1)
    (match domainOf domain with
      | none => [.raise .invalidParameter]
      | some d => freqBody d) s

end Sys2Proof.Machine
end

