-- ==== Sys2Proof/Machine/Gates.lean ====
section
/-! DEFINITION. The Peripheral Clock Gate Controller (spec/43_gate_controller.md R180 to R184). -/

namespace Sys2Proof.Machine

/-- OR the bits in, then wait until they read back (R181, R182). -/
def gateBody (n : RegName) (mask : Word) : List Micro :=
  orIn n mask ++ [.poll n mask mask, .done]

/-- `GATE_GPIO id` (R181): an id above 7 is rejected before any access. -/
def execGateGpio (id a1 : Word) (s : State) : Host.Outcome State Fault Refusal :=
  issue (.gateGpio id a1)
    (match gpioBankOf id with
      | none => [.raise .invalidParameter]
      | some k => gateBody .gateAhb1 (gpioPlace s.params.regmap k).mask) s

/-- `GATE_USART id` (R182): an id that is no key of `USART_TABLE` is rejected before any access. -/
def execGateUsart (id a1 : Word) (s : State) : Host.Outcome State Fault Refusal :=
  issue (.gateUsart id a1)
    (match usartEntry s.params id with
      | none => [.raise .invalidParameter]
      | some e => gateBody (busReg e.bus) (usartPlace e).mask) s

end Sys2Proof.Machine
end

