-- ==== Sys2Proof/Machine/Leaf.lean ====
section
/-! DEFINITION. The leaf controllers' bodies and commands (spec/41_leaf_controllers.md R120 to R133). None looks at
`SEQ` (R120). -/

namespace Sys2Proof.Machine

/-! ## Power Scaling Controller -/

/-- `DoScaling(l)` (R121). -/
def doScaling (p : Params) (l : Level) : List Micro :=
  let v := (vosEnc p l).setWidth 32
  maskedWrite .pwrCr (FixedField.vos.mask p.regmap) (FixedField.vos.put p.regmap v)
    ++ pollField p.regmap .vos v

/-- `SET_SCALING level` (R121): a level above 1 faults before any access. -/
def execSetScaling (level a1 : Word) (s : State) : Host.Outcome State Fault Refusal :=
  issue (.setScaling level a1)
    (match levelOf level.toNat with
      | none => [.fail .undefinedScalingLevel]
      | some l => doScaling s.params l ++ [.done]) s

/-! ## Flash Latency Controller -/

/-- `DoLatency(ws)` (R124): write, poll, barrier. -/
def doLatency (m : Regmap) (ws : Word) : List Micro :=
  maskedWrite .flashAcr (FixedField.latency.mask m) (FixedField.latency.put m ws)
    ++ pollField m .latency ws ++ [.barrier]

/-- `SET_LATENCY ws` (R124): the whole operand is compared with 15. -/
def execSetLatency (ws a1 : Word) (s : State) : Host.Outcome State Fault Refusal :=
  issue (.setLatency ws a1)
    (if 15 < ws.toNat then [.raise .invalidParameter] else doLatency s.params.regmap ws ++ [.done]) s

/-- `ENABLE_CACHE` (R126): both cache enables in one write, no poll. -/
def execEnableCache (a0 a1 : Word) (s : State) : Host.Outcome State Fault Refusal :=
  issue (.enableCache a0 a1)
    (orIn .flashAcr (FixedField.icen.mask s.params.regmap ||| FixedField.dcen.mask s.params.regmap)
      ++ [.done]) s

/-- `ENABLE_PREFETCH` (R127). -/
def execEnablePrefetch (a0 a1 : Word) (s : State) : Host.Outcome State Fault Refusal :=
  issue (.enablePrefetch a0 a1) (orIn .flashAcr (FixedField.prften.mask s.params.regmap) ++ [.done]) s

/-! ## PLL Configurator -/

/-- `DoPllConfigure(w)` (R130): the running check, then one masked write of the five fields, or, where `REGMAP` splits
them, one for each register that holds some of them, in the order M, N, P, Q, source (of a register's fields the first counts,
notes/assumptions/35.md). -/
def doPllConfigure (m : Regmap) (w : PllWord) : List Micro :=
  .checkPllOff :: (pllRegs m).flatMap fun n => maskedWrite n (pllFieldsMask m n) (pllImage m w n)

/-- `PLL_CONFIGURE cfg` (R130): the parameter check comes before the running check. -/
def execPllConfigure (cfg : PllWord) (a1 : Word) (s : State) : Host.Outcome State Fault Refusal :=
  issue (.pllConfigure cfg a1)
    (if pllValid cfg then doPllConfigure s.params.regmap cfg ++ [.done] else [.raise .invalidParameter]) s

/-- `DoPllEnable()` (R132). -/
def doPllEnable (m : Regmap) : List Micro := orIn .clkCr (FixedField.pllOn.mask m)

/-- `PLL_ENABLE` (R132). -/
def execPllEnable (a0 a1 : Word) (s : State) : Host.Outcome State Fault Refusal :=
  issue (.pllEnable a0 a1) (doPllEnable s.params.regmap ++ [.done]) s

/-- `DoWaitLock()` (R133). -/
def doWaitLock (m : Regmap) : List Micro := pollField m .pllRdy 1

/-- `PLL_WAIT_LOCK` (R133). -/
def execPllWaitLock (a0 a1 : Word) (s : State) : Host.Outcome State Fault Refusal :=
  issue (.pllWaitLock a0 a1) (doWaitLock s.params.regmap ++ [.done]) s

end Sys2Proof.Machine
end

