-- ==== Sys2Proof/Machine/Sequencer.lean ====
section
/-! DEFINITION. The Clock Switch Sequencer (spec/42_sequencer.md R150 to R163): the transitions T1 to T7 and the
command that runs them. Each transition writes `SEQ` as its last micro-step. -/

namespace Sys2Proof.Machine

/-- T1 (R152): wait for the oscillator. -/
def seqT1 (m : Regmap) : List Micro := pollField m .oscRdy 1 ++ [.setSeq .oscillatorReady]

/-- T2 (R153): voltage scaling. -/
def seqT2 (p : Params) (l : Level) : List Micro := doScaling p l ++ [.setSeq .scalingSet]

/-- T3 (R154): flash latency, with its barrier. -/
def seqT3 (m : Regmap) (ws : Word) : List Micro := doLatency m ws ++ [.setSeq .latencySet]

/-- T4 (R155): program the PLL, which must not run. -/
def seqT4 (m : Regmap) (w : PllWord) : List Micro := doPllConfigure m w ++ [.setSeq .pllProgrammed]

/-- T5 (R156): enable the PLL and wait for lock. -/
def seqT5 (m : Regmap) : List Micro := doPllEnable m ++ doWaitLock m ++ [.setSeq .pllLocked]

/-- T6 (R157): select the PLL at the mux and wait for it to confirm. -/
def seqT6 (m : Regmap) : List Micro :=
  maskedWrite .clkCfgr (FixedField.sw.mask m) (FixedField.sw.put m (srcPll.setWidth 32))
    ++ pollField m .sws (srcPll.setWidth 32) ++ [.setSeq .switched]

/-- T7 (R158): the one-shot is spent. -/
def seqT7 : List Micro := [.setSeq .complete]

/-- The micro-steps of a whole run (R151). -/
def seqBody (p : Params) (w : PllWord) (l : Level) (ws : Word) : List Micro :=
  seqT1 p.regmap ++ seqT2 p l ++ seqT3 p.regmap ws ++ seqT4 p.regmap w ++ seqT5 p.regmap ++ seqT6 p.regmap
    ++ seqT7 ++ [.done]

/-- What `SEQ_RUN` runs once accepted, by its checks in order (R151, R193): the state, the parameters, the level. -/
def seqProgram (cfg : PllWord) (pw : PowerWord) (s : State) : List Micro :=
  if s.seq = .complete then [.raise .alreadyInitialized]
  else if ¬ (pllValid cfg ∧ powerValid pw) then [.raise .invalidParameter]
  else
    match levelOf pw.level.toNat with
    | none => [.fail .undefinedScalingLevel]
    | some l => seqBody s.params cfg l (pw.ws.setWidth 32)

/-- `SEQ_RUN cfg, pw` (R151). With `SEQ` between its first and last states no command is ever accepted; a total step
function refuses it there (R151 corner case b). -/
def execSeqRun (cfg : PllWord) (pw : PowerWord) (s : State) : Host.Outcome State Fault Refusal :=
  if s.idle && seqMidway s.seq then .refused .sequencerMidway
  else issue (.seqRun cfg pw) (seqProgram cfg pw s) s

end Sys2Proof.Machine
end

