-- ==== Sys2Proof/Machine/Dispatch.lean ====
section
/-! DEFINITION. One arm for each constructor of Instr: the command is accepted and run. -/

namespace Sys2Proof.Machine

def exec (i : Instr) (s : State) : Host.Outcome State Fault Refusal :=
  match i with
  | .getFreq domain a1 => Sys2Proof.Machine.execGetFreq domain a1 s
  | .setScaling level a1 => Sys2Proof.Machine.execSetScaling level a1 s
  | .setLatency ws a1 => Sys2Proof.Machine.execSetLatency ws a1 s
  | .enableCache a0 a1 => Sys2Proof.Machine.execEnableCache a0 a1 s
  | .enablePrefetch a0 a1 => Sys2Proof.Machine.execEnablePrefetch a0 a1 s
  | .pllConfigure cfg a1 => Sys2Proof.Machine.execPllConfigure cfg a1 s
  | .pllEnable a0 a1 => Sys2Proof.Machine.execPllEnable a0 a1 s
  | .pllWaitLock a0 a1 => Sys2Proof.Machine.execPllWaitLock a0 a1 s
  | .seqRun cfg pw => Sys2Proof.Machine.execSeqRun cfg pw s
  | .gateGpio id a1 => Sys2Proof.Machine.execGateGpio id a1 s
  | .gateUsart id a1 => Sys2Proof.Machine.execGateUsart id a1 s

end Sys2Proof.Machine
end

