-- ==== Sys2Proof/Machine/Fetch.lean ====
section
/-! DEFINITION. Which step comes next (spec/20_memory.md R60, spec/10_state.md R10, R12, R13): the block never
fetches; the requester presents its next command when the block is idle and it is the block's turn. -/

namespace Sys2Proof.Machine

/-- What the next step is. -/
inductive Chosen where
  /-- the requester presents this command, and the state to accept it in -/
  | command (i : Instr) (s : State)
  /-- any other step, with its outcome -/
  | other (o : Host.Outcome State Fault Refusal)

/-- The requester's turn in an idle block (R12, R13): the next command word is decoded (R87) and presented; a
reserved opcode is answered (R88); a command of a stopped sequence is dropped (R90). Whether the sequence is stopped is read off
`ST` as it stands, also where a reset has come since the last response (DESIGN CHOICE, notes/assumptions/34.md). With no
command left the block waits, idle (R220), and the plant may move. -/
def present (s : State) : Chosen :=
  match s.requests with
  | [] => .other (.next (if s.agenda = [] then plantAlone s else s))
  | q :: qs =>
    if q.onlyIfOk && s.st != .ok then .other (.next { s with requests := qs })
    else
      match decode q.word with
      | .ok i => .command i { s with requests := qs }
      | .error _ => .other (issueReserved q.word { s with requests := qs })

/-- The next step in the total order. With a fault recorded only reset is left (R34, R220). While a command runs,
it goes on. -/
def choose (s : State) : Chosen :=
  match s.fault with
  | some f =>
    match s.agenda with
    | .reset :: ts => .other (.next (resetStep { s with agenda := ts }))
    | _ => .other (.fault f)
  | none =>
    if s.busy then .other (runTurns s.agenda s)
    else
      match s.agenda with
      | [] => present s
      | .go :: ts => present { s with agenda := ts }
      | tn :: ts => .other (turnStep tn { s with agenda := ts })

/-- The block idle, with a command word next on the port and the block's own turn first: what `withFetchWord`
stores. -/
def presentNext (cw : CommandWord) (s : State) : State :=
  { s with
    fault := none, busy := false, ph := [], t := 0, val := 0
    requests := ⟨cw, false⟩ :: s.requests
    agenda := .go :: s.agenda }

end Sys2Proof.Machine
end

