-- ==== Sys2Proof/Machine/Step.lean ====
section
/-! DEFINITION. One step of the machine. -/

namespace Sys2Proof.Machine

/-- One step (R60): a command from its accept to its end or to where it waits, or one step of another agent. -/
def step (s : State) : Host.Outcome State Fault Refusal :=
  match choose s with
  | .command i s' => exec i s'
  | .other o => o

/-- `s` with the command whose bits are `w` presented next. -/
def State.withFetchWord (s : State) (nbits w : Nat) : State :=
  presentNext (BitVec.ofNat 72 (w % 2 ^ nbits)) s

end Sys2Proof.Machine
end

