-- ==== Sys2Proof/Machine/Assembler.lean ====
section
/-! DEFINITION. The text form of the command set (spec/30_encoding.md R89) and the pseudo-instruction `BRINGUP`
(R90). One line of text becomes the commands the requester holds for it (R13). Spaces, commas and the two
parentheses of a function call separate operands (notes/assumptions/19.md). -/

namespace Sys2Proof.Machine

/-- Why a line is not assembled. -/
inductive AsmError where
  /-- the first word is no mnemonic and no alias of R89 -/
  | unknownMnemonic
  /-- too few or too many operands, or a key missing or out of order -/
  | wrongOperands
  /-- an operand that is neither a numeral nor a name R89 gives for it -/
  | badOperand
  /-- a value too wide for its field (R89) -/
  | tooWide
deriving DecidableEq, Repr

/-- A character between two words of a line. -/
def isSeparator (c : Char) : Bool := c == ' ' || c == '\t' || c == ',' || c == '(' || c == ')'

/-- The words of a line, `acc` being the one begun. -/
def wordsFrom (acc : List Char) : List Char → List (List Char)
  | [] => if acc = [] then [] else [acc]
  | c :: cs =>
    if isSeparator c then
      if acc = [] then wordsFrom [] cs else acc :: wordsFrom [] cs
    else wordsFrom (acc ++ [c]) cs

/-- The words of a line without its comment (R89). -/
def wordsOf (line : List Char) : List (List Char) :=
  wordsFrom [] (line.takeWhile fun c => c != ';')

/-- The value of a digit. -/
def digitOf (c : Char) : Option Nat :=
  if '0' ≤ c ∧ c ≤ '9' then some (c.toNat - '0'.toNat)
  else if 'a' ≤ c ∧ c ≤ 'f' then some (c.toNat - 'a'.toNat + 10)
  else if 'A' ≤ c ∧ c ≤ 'F' then some (c.toNat - 'A'.toNat + 10)
  else none

/-- The number a list of digits stands for, after `acc`. -/
def digitsFrom (base acc : Nat) : List Char → Option Nat
  | [] => some acc
  | c :: cs =>
    match digitOf c with
    | some d => if d < base then digitsFrom base (base * acc + d) cs else none
    | none => none

/-- A decimal or `0x` numeral (R89). -/
def numeral : List Char → Option Nat
  | [] => none
  | '0' :: 'x' :: c :: cs => digitsFrom 16 0 (c :: cs)
  | cs => digitsFrom 10 0 cs

/-- The names a scalar operand may be written with, and their values (R86, R89). -/
abbrev NameTable := List (List Char × Nat)

/-- The domain names (R86). -/
def domainNames : NameTable :=
  [("SYSTEM".toList, 0), ("CORE".toList, 1), ("APB1_PERIPH".toList, 2), ("APB2_PERIPH".toList, 3),
   ("APB1_TIMER".toList, 4), ("APB2_TIMER".toList, 5)]

/-- The level names (R86). -/
def levelNames : NameTable := [("LOW".toList, 0), ("HIGH".toList, 1)]

/-- The GPIO bank names (R86). -/
def bankNames : NameTable :=
  [(['A'], 0), (['B'], 1), (['C'], 2), (['D'], 3), (['E'], 4), (['F'], 5), (['G'], 6), (['H'], 7)]

/-- A numeral or a name, as a value of `width` bits (R89). -/
def valueOf (names : NameTable) (width : Nat) (w : List Char) : Except AsmError (BitVec width) :=
  match (names.lookup w).orElse fun _ => numeral w with
  | none => .error .badOperand
  | some v => if v < 2 ^ width then .ok (BitVec.ofNat width v) else .error .tooWide

/-- A value written `key=value` (R89). -/
def keyedValue (key : List Char) (names : NameTable) (width : Nat) (w : List Char) :
    Except AsmError (BitVec width) :=
  if w.take (key.length + 1) = key ++ ['='] then valueOf names width (w.drop (key.length + 1))
  else .error .wrongOperands

/-- A PllWord written by its keys (R89). -/
def pllKeys (m n p q src : List Char) : Except AsmError PllWord := do
  let m ← keyedValue ['M'] [] 6 m
  let n ← keyedValue ['N'] [] 9 n
  let p ← keyedValue ['P'] [] 4 p
  let q ← keyedValue ['Q'] [] 4 q
  let src ← keyedValue "SRC".toList [] 1 src
  return { rsv := 0, src := src, q := q, p := p, n := n, m := m }

/-- A PowerWord written by its keys (R89). -/
def powerKeys (level ws : List Char) : Except AsmError PowerWord := do
  let level ← keyedValue "LEVEL".toList levelNames 8 level
  let ws ← keyedValue "WS".toList [] 8 ws
  return { rsv := 0, level := level, ws := ws }

/-- The commands `BRINGUP` expands to, in order (R90). -/
def bringup (cfg : PllWord) (pw : PowerWord) : List Instr :=
  [.setLatency (pw.ws.setWidth 32) 0, .setScaling (pw.level.setWidth 32) 0, .seqRun cfg pw]

/-- `BRINGUP` as the requester holds it: each command after the first is issued only if the response before it
was `OK` (R90). -/
def bringupRequests (cfg : PllWord) (pw : PowerWord) : List Request :=
  match bringup cfg pw with
  | [] => []
  | i :: is => ⟨encode i, false⟩ :: is.map fun j => ⟨encode j, true⟩

/-- The request for one command. -/
def single (i : Instr) : List Request := [⟨encode i, false⟩]

/-- A command with one scalar operand. -/
def assembleScalar (names : NameTable) (f : Word → Instr) : List (List Char) → Except AsmError (List Request)
  | [w] => (valueOf names 32 w).map fun v => single (f v)
  | _ => .error .wrongOperands

/-- A command with no operand. -/
def assembleBare (i : Instr) : List (List Char) → Except AsmError (List Request)
  | [] => .ok (single i)
  | _ => .error .wrongOperands

/-- A command with a PllWord operand. -/
def assemblePll (f : PllWord → Instr) : List (List Char) → Except AsmError (List Request)
  | [m, n, p, q, src] => (pllKeys m n p q src).map fun c => single (f c)
  | _ => .error .wrongOperands

/-- A command with a PllWord and a PowerWord operand. -/
def assemblePower (f : PllWord → PowerWord → List Request) :
    List (List Char) → Except AsmError (List Request)
  | [m, n, p, q, src, level, ws] => do
    let c ← pllKeys m n p q src
    let pw ← powerKeys level ws
    return f c pw
  | _ => .error .wrongOperands

/-- The mnemonics of R81, the source's function names as their aliases (R89), and `BRINGUP` (R90), each with how
its operands are read. -/
def mnemonicTable : List (List Char × (List (List Char) → Except AsmError (List Request))) :=
  [("GET_FREQ".toList, assembleScalar domainNames fun v => .getFreq v 0),
   ("get_frequency".toList, assembleScalar domainNames fun v => .getFreq v 0),
   ("SET_SCALING".toList, assembleScalar levelNames fun v => .setScaling v 0),
   ("set_scaling".toList, assembleScalar levelNames fun v => .setScaling v 0),
   ("SET_LATENCY".toList, assembleScalar [] fun v => .setLatency v 0),
   ("set_latency".toList, assembleScalar [] fun v => .setLatency v 0),
   ("ENABLE_CACHE".toList, assembleBare (.enableCache 0 0)),
   ("enable_cache".toList, assembleBare (.enableCache 0 0)),
   ("ENABLE_PREFETCH".toList, assembleBare (.enablePrefetch 0 0)),
   ("enable_prefetch".toList, assembleBare (.enablePrefetch 0 0)),
   ("PLL_CONFIGURE".toList, assemblePll fun c => .pllConfigure c 0),
   ("configure".toList, assemblePll fun c => .pllConfigure c 0),
   ("PLL_ENABLE".toList, assembleBare (.pllEnable 0 0)),
   ("enable".toList, assembleBare (.pllEnable 0 0)),
   ("PLL_WAIT_LOCK".toList, assembleBare (.pllWaitLock 0 0)),
   ("wait_lock".toList, assembleBare (.pllWaitLock 0 0)),
   ("SEQ_RUN".toList, assemblePower fun c pw => single (.seqRun c pw)),
   ("GATE_GPIO".toList, assembleScalar bankNames fun v => .gateGpio v 0),
   ("enable_gpio_bank".toList, assembleScalar bankNames fun v => .gateGpio v 0),
   ("GATE_USART".toList, assembleScalar [] fun v => .gateUsart v 0),
   ("enable_usart".toList, assembleScalar [] fun v => .gateUsart v 0),
   ("BRINGUP".toList, assemblePower bringupRequests)]

/-- One line of text (R89): the commands the requester holds for it, none for an empty line. -/
def assemble (line : List Char) : Except AsmError (List Request) :=
  match wordsOf line with
  | [] => .ok []
  | m :: operands =>
    match mnemonicTable.lookup m with
    | some f => f operands
    | none => .error .unknownMnemonic

end Sys2Proof.Machine
end

