-- ==== Sys2Proof/Safety.lean ====
section
/-! DEFINITION. What counts as a safe run, in the terms the statements use: `Safe` (spec/70_reset_and_hazards.md
R231), final, hung and undisturbed states, and the invariant of the machine. -/

namespace Sys2Proof.Machine

/-- `Safe` (R231) of a state. -/
abbrev State.Safe (s : State) : Prop := s.regs.safe s.params = true

/-- A final state: the last command has been answered and no fault is recorded (R8, R34). -/
abbrev State.Final (s : State) : Prop := s.busy = false ∧ s.fault = none

/-- A fault is recorded (R34). -/
abbrev State.Faulted (s : State) : Prop := s.fault.isSome = true

/-- The engine stands at a poll whose condition is false (R58). -/
abbrev State.Polling (s : State) : Prop :=
  s.running = true ∧
    match s.ph with
    | .poll n mask v :: _ => memRead s n &&& mask ≠ v
    | _ => False

/-- No plant step is enabled (R31): nothing is pending, both sources are ready or off, the mux has followed. -/
abbrev State.Settled (s : State) : Prop :=
  (plantSteps s.params).all (fun q => !plantEnabled s q) = true

/-- The mux has followed its select (R31). -/
abbrev State.MuxFollowed (s : State) : Prop :=
  swsOf s.params.regmap (memRead s .clkCfgr) = swOf s.params.regmap (memRead s .clkCfgr)

/-- Nobody but the engine moves of itself: no turn of another agent is to come, and where the plant is live it has
no step to take and no switch to make. -/
abbrev State.Undisturbed (s : State) : Prop :=
  s.agenda = [] ∧
    (s.params.plantLive = true → s.params.binding = .production → s.Settled ∧ s.MuxFollowed)

/-- A plant answers a write (R30): it is live, or there is none because every write reads back at once (R68). -/
abbrev State.PlantAnswers (s : State) : Prop :=
  s.params.plantLive = true ∨ s.params.binding = .test

/-- `s` after command `i` has been accepted and answered (R12, R7), nothing else changed. -/
def State.answered (s : State) (i : Instr) (e : Status) (v : Word) : State :=
  { s with
    op := opcodeOf i, a1 := word1Of i, a0 := word0Of i
    st := e, rv := v, busy := false, ph := [], t := 0, val := 0 }

/-- `s` after the engine has written `v` to register `n` and the register holds `x` (R33, R53). -/
def State.stored (s : State) (n : RegName) (v : Word) (x : Reg) : State :=
  { s with regs := s.regs.set n x, wlog := s.wlog ++ [(regAddr s.params.regmap n, v)] }

/-- The word of register `n` with those of the five PLL fields that lie in it set from a PllWord (R130). -/
def pllWordOver (m : Regmap) (cfg : PllWord) (f : RegFile) (n : RegName) : Word :=
  merge (pllFieldsMask m n) (pllImage m cfg n) (f.get n).r

/-- The register file with the five PLL fields set from a PllWord, wherever `REGMAP` puts them (R130). -/
def RegFile.programmed (m : Regmap) (cfg : PllWord) (f : RegFile) : RegFile :=
  (pllRegs m).foldl (fun g n => g.set n (.settled (pllWordOver m cfg f n))) f

/-- The writes that do it, one for each register that holds some of the fields (R130). -/
def pllWrites (m : Regmap) (cfg : PllWord) (f : RegFile) : List (Word × Word) :=
  (pllRegs m).map fun n => (regAddr m n, pllWordOver m cfg f n)

/-- `t` is `s` stopped by a fault in command `i` before any response (R196): accepted, not answered, `BUSY = 1`. -/
structure State.FaultedIn (s : State) (i : Instr) (f : Fault) (t : State) : Prop where
  fault : t.fault = some f
  busy : t.busy = true
  st : t.st = s.st
  rv : t.rv = s.rv
  op : t.op = opcodeOf i
  a1 : t.a1 = word1Of i
  a0 : t.a0 = word0Of i
  params : t.params = s.params
  plog : t.plog = s.plog
  requests : t.requests = s.requests

/-- The registers a command stores to when it stores at all (R55). -/
def storedRegs (p : Params) : Instr → List RegName
  | .getFreq _ _ => []
  | .setScaling _ _ => [.pwrCr]
  | .setLatency _ _ => [.flashAcr]
  | .enableCache _ _ => [.flashAcr]
  | .enablePrefetch _ _ => [.flashAcr]
  | .pllConfigure _ _ => pllRegs p.regmap
  | .pllEnable _ _ => [.clkCr]
  | .pllWaitLock _ _ => []
  | .seqRun _ _ => [.pwrCr, .flashAcr] ++ pllRegs p.regmap ++ [.clkCr, .clkCfgr]
  | .gateGpio _ _ => [.gateAhb1]
  | .gateUsart id _ =>
    match usartEntry p id with
    | some e => [busReg e.bus]
    | none => []

/-- A turn of the engine or the plant. -/
def Turn.internal : Turn → Bool
  | .go => true
  | .plant _ => true
  | .port _ => false
  | .force _ _ => false
  | .reset => false

/-- Of the other agents only the plant is to move (R61 with `ALLOW_INTERLEAVE = false`; no reset, no harness). -/
abbrev State.PlantOnly (s : State) : Prop := s.agenda.all Turn.internal = true

/-- The parameters are ones the spec admits: the map is well-formed (R5, R17), the two levels are told apart (R5, R18),
the reset profile has nothing that a running PLL or a switched mux would contradict, and it satisfies `Safe`
(R40, R231). -/
abbrev paramsWf (p : Params) : Prop :=
  mapWf p ∧ p.vosLow ≠ p.vosHigh
    ∧ (RegFile.ofProfile p.profile).safe p = true
    ∧ (pllRdyOf p.regmap p.profile.clkCr = 1 → pllOnOf p.regmap p.profile.clkCr = 1)
    ∧ (swsOf p.regmap p.profile.clkCfgr = srcPll → pllRdyOf p.regmap p.profile.clkCr = 1)

/-- The clock tree is as R31 lets it be: a locked PLL is on, and a PLL in use is locked. -/
abbrev RegFile.clockOk (m : Regmap) (f : RegFile) : Prop :=
  (pllRdyOf m f.clkCr.r = 1 → f.pllOn m = true)
    ∧ (swsOf m f.clkCfgr.r = srcPll → pllRdyOf m f.clkCr.r = 1)

/-- A list of micro-steps that leads to a response or a fault whatever its reads find (R7, R8). -/
def bodyOk : List Micro → Bool
  | [] => false
  | .done :: _ => true
  | .raise _ :: _ => true
  | .fail _ :: _ => true
  | .freqClk _ :: .freqPll _ :: rest => bodyOk rest
  | .freqClk _ :: _ => false
  | .freqPll _ :: rest => bodyOk rest
  | .load _ :: rest => bodyOk rest
  | .store _ _ _ :: rest => bodyOk rest
  | .poll _ _ _ :: rest => bodyOk rest
  | .barrier :: rest => bodyOk rest
  | .checkPllOff :: rest => bodyOk rest
  | .setSeq _ :: rest => bodyOk rest

/-- While a command runs the engine has a step that leads on (R198); while none does, `PH` is empty (R15). -/
abbrev State.EngineOk (s : State) : Prop :=
  (s.busy = true → bodyOk s.ph = true) ∧ (s.busy = false → s.ph = [])

/-- The Sequencer's part of `PH`: from state `q` on, each state it will be put in is the one after the state before it
(R14, R159), and a frequency query puts it in none. -/
def seqInOrder (q : SeqState) : List Micro → Bool
  | [] => true
  | .setSeq q' :: rest => decide ((seqCode q').toNat = (seqCode q).toNat + 1) && seqInOrder q' rest
  | .freqClk _ :: rest => rest.all fun m => match m with
    | .setSeq _ => false
    | _ => true
  | .load _ :: rest => seqInOrder q rest
  | .store _ _ _ :: rest => seqInOrder q rest
  | .poll _ _ _ :: rest => seqInOrder q rest
  | .barrier :: rest => seqInOrder q rest
  | .checkPllOff :: rest => seqInOrder q rest
  | .freqPll _ :: rest => seqInOrder q rest
  | .raise _ :: rest => seqInOrder q rest
  | .done :: rest => seqInOrder q rest
  | .fail _ :: rest => seqInOrder q rest

/-- The command in progress, if there is one, takes `SEQ` through its states in order (R159). -/
abbrev State.SeqOk (s : State) : Prop := s.busy = true → seqInOrder s.seq s.ph = true

/-- The invariant of the machine in the production binding. -/
abbrev State.Inv (s : State) : Prop :=
  paramsWf s.params ∧ s.params.binding = .production ∧ s.regs.wf s.params ∧ s.regs.clockOk s.params.regmap ∧ s.Safe

end Sys2Proof.Machine
end

