-- ==== Sys2Proof/Certificates/Slice0/Obligations.lean ====
section
/-! DEFINITION. The statements for the provers, from the numbered rules of spec/. Each docstring names the rules. -/

open Sys2Proof Sys2Proof.Machine

/-! ## Encoding and decoding -/

/-- R80 to R85: decoding the word of a command gives the command back, every operand at every value. -/
def Obligations.DecodeOfEncodeIsTheCommand : Prop :=
  ∀ i : Instr, decode (encode i) = .ok i

/-- R80 to R85: the command decoded from a word encodes to that very word, so no bit of it is dropped, ignored
bits included. -/
def Obligations.EncodeOfDecodeIsTheWord : Prop :=
  ∀ (cw : CommandWord) (i : Instr), decode cw = .ok i → encode i = cw

/-- R82, R87: `op` and nothing else selects the command, and every other `op` is reserved. R84, R85: each field of a PllWord and of
a PowerWord is the number its bits of the operand word stand for. -/
def Obligations.OpcodeSelectsTheCommand : Prop :=
  (∀ (op : Opcode) (a1 a0 : Word),
    decode (commandWord 0x01 a1 a0) = .ok (.getFreq a0 a1)
    ∧ decode (commandWord 0x02 a1 a0) = .ok (.setScaling a0 a1)
    ∧ decode (commandWord 0x03 a1 a0) = .ok (.setLatency a0 a1)
    ∧ decode (commandWord 0x04 a1 a0) = .ok (.enableCache a0 a1)
    ∧ decode (commandWord 0x05 a1 a0) = .ok (.enablePrefetch a0 a1)
    ∧ decode (commandWord 0x06 a1 a0) = .ok (.pllConfigure (pllWordOf a0) a1)
    ∧ decode (commandWord 0x07 a1 a0) = .ok (.pllEnable a0 a1)
    ∧ decode (commandWord 0x08 a1 a0) = .ok (.pllWaitLock a0 a1)
    ∧ decode (commandWord 0x09 a1 a0) = .ok (.seqRun (pllWordOf a0) (powerWordOf a1))
    ∧ decode (commandWord 0x0A a1 a0) = .ok (.gateGpio a0 a1)
    ∧ decode (commandWord 0x0B a1 a0) = .ok (.gateUsart a0 a1)
    ∧ (op = 0x00 ∨ 0x0C ≤ op.toNat →
        decode (commandWord op a1 a0) = .error (.reservedOpcode op)))
  ∧ ∀ w : Word,
    (pllWordOf w).m.toNat = w.toNat % 64 ∧ (pllWordOf w).n.toNat = w.toNat / 2 ^ 6 % 512
    ∧ (pllWordOf w).p.toNat = w.toNat / 2 ^ 15 % 16 ∧ (pllWordOf w).q.toNat = w.toNat / 2 ^ 19 % 16
    ∧ (pllWordOf w).src.toNat = w.toNat / 2 ^ 23 % 2 ∧ (pllWordOf w).rsv.toNat = w.toNat / 2 ^ 24 % 256
    ∧ (powerWordOf w).ws.toNat = w.toNat % 256 ∧ (powerWordOf w).level.toNat = w.toNat / 2 ^ 8 % 256
    ∧ (powerWordOf w).rsv.toNat = w.toNat / 2 ^ 16 % 65536

/-- R89's three examples: the words written out there decode to the commands they stand for. -/
def Obligations.ExampleWordsDecode : Prop :=
  decode 0x010000000000000004 = .ok (.getFreq 4 0)
  ∧ decode 0x030000000000000002 = .ok (.setLatency 2 0)
  ∧ decode 0x090000010200425410 = .ok (.seqRun bootTarget ⟨0, 1, 2⟩)

/-- R89: the three example lines assemble to the words given there, and an alias does as its mnemonic. -/
def Obligations.ExampleLinesAssemble : Prop :=
  assemble "GET_FREQ APB1_TIMER".toList = .ok [⟨0x010000000000000004, false⟩]
  ∧ assemble "SET_LATENCY 2".toList = .ok [⟨0x030000000000000002, false⟩]
  ∧ assemble "SEQ_RUN M=16, N=336, P=4, Q=8, SRC=0, LEVEL=HIGH, WS=2".toList
      = .ok [⟨0x090000010200425410, false⟩]
  ∧ assemble "get_frequency(SYSTEM)".toList = assemble "GET_FREQ SYSTEM".toList

/-- R90: `BRINGUP` is three commands in order, the second and third issued only after an `OK`; and a command held
back by a response that is not `OK` is dropped with nothing done. That the requester drops it by a step, and that it goes by
`ST` as it stands, which a reset may have set since the response, are the model's (notes/assumptions/20.md,
notes/assumptions/34.md). -/
def Obligations.BringupStopsAtTheFirstError : Prop :=
  (∀ (cfg : PllWord) (pw : PowerWord), bringupRequests cfg pw =
    [⟨encode (.setLatency (pw.ws.setWidth 32) 0), false⟩,
     ⟨encode (.setScaling (pw.level.setWidth 32) 0), true⟩,
     ⟨encode (.seqRun cfg pw), true⟩])
  ∧ ∀ (s : State) (cw : CommandWord) (qs : List Request),
      s.idle = true → s.agenda = [] → s.requests = ⟨cw, true⟩ :: qs → s.st ≠ .ok →
      step s = .next { s with requests := qs }

/-! ## The step -/

/-- R12, R13, R60: in an idle block whose turn it is, the requester's next word is decoded and the step is that
command's meaning, with the word taken from the requester. R10, R60, R61: the step of an idle block whose next turn is another
agent's is that turn; while a command runs the next turn is taken first, whoever's it is, and the step goes on from there, so a
turn can fall between any two micro-steps of the command. R56, R58, R62: of the engine's own turns, the two halves of a masked
write are two, each evaluation of a poll is one, and a barrier is one, which changes nothing but the engine's position. That the order to come is listed as data, and that a step runs a command on to its
end, are the model's forms (notes/assumptions/5.md, notes/assumptions/7.md). -/
def Obligations.StepRunsThePresentedCommand : Prop :=
  (∀ (s : State) (q : Request) (qs : List Request) (ts : List Turn) (i : Instr),
    s.idle = true → s.requests = q :: qs → (q.onlyIfOk = true → s.st = .ok) →
    (s.agenda = .go :: ts ∨ (s.agenda = [] ∧ ts = [])) → decode q.word = .ok i →
    step s = exec i { s with requests := qs, agenda := ts })
  ∧ (∀ (s : State) (tn : Turn) (ts : List Turn), s.idle = true → s.agenda = tn :: ts → tn ≠ .go →
    step s = turnStep tn { s with agenda := ts })
  ∧ (∀ (s : State) (tn : Turn) (ts : List Turn), s.running = true → s.agenda = tn :: ts →
    (∀ u, turnStep tn { s with agenda := ts } = .next u → u.running = true → step s = step u)
    ∧ (∀ u, turnStep tn { s with agenda := ts } = .next u → u.running = false → step s = .next u)
    ∧ ∀ r, turnStep tn { s with agenda := ts } = .refused r → step s = .refused r)
  ∧ (∀ u : State,
    turnStep .go u = .next (engineStep u)
    ∧ (∀ q, turnStep (.plant q) u = .next (plantStep q u))
    ∧ (∀ a, turnStep (.port a) u = portStep a u)
    ∧ ∀ q v, turnStep (.force q v) u = forceStep q v u)
  ∧ ∀ (u : State) (n : RegName) (mask v : Word) (rest : List Micro), u.running = true →
    (u.ph = .load n :: rest → engineStep u = { u with t := memRead u n, ph := rest })
    ∧ (u.ph = .store n mask v :: rest →
      engineStep u = memWrite .engine n ((u.t &&& ~~~ mask) ||| (v &&& mask)) { u with ph := rest })
    ∧ (u.ph = .poll n mask v :: rest → memRead u n &&& mask = v → engineStep u = { u with ph := rest })
    ∧ (u.ph = .poll n mask v :: rest → memRead u n &&& mask ≠ v → engineStep u = u)
    ∧ (u.ph = .barrier :: rest → engineStep u = { u with ph := rest })

/-- What `withFetchWord` stores is the command the next step runs, whatever the state. -/
def Obligations.StoredCommandIsRunNext : Prop :=
  ∀ (s : State) (nbits w : Nat) (i : Instr), decodeTableWord nbits w = some i →
    step (s.withFetchWord nbits w)
      = exec i { s with fault := none, busy := false, ph := [], t := 0, val := 0 }

/-- R88: a reserved opcode is accepted, nothing is accessed, and the response is `INVALID_PARAMETER` with 0. -/
def Obligations.ReservedOpcodeIsAnswered : Prop :=
  ∀ (s : State) (cw : CommandWord) (qs : List Request),
    s.idle = true → s.Undisturbed → s.requests = ⟨cw, false⟩ :: qs →
    (opOf cw = 0x00 ∨ 0x0C ≤ (opOf cw).toNat) →
    step s = .next { s with
      requests := qs, op := opOf cw, a1 := a1Of cw, a0 := a0Of cw
      st := .invalidParameter, rv := 0, ph := [], t := 0, val := 0 }

/-- R34, R196: with a fault recorded neither a command nor the engine nor the plant does anything, and every step
but reset answers the fault. -/
def Obligations.FaultStopsEveryAgent : Prop :=
  ∀ (s : State) (f : Fault), s.fault = some f →
    (∀ i, exec i s = .fault f) ∧ engineStep s = s ∧ (∀ q, plantStep q s = s)
    ∧ (s.agenda.head? ≠ some .reset → step s = .fault f)

/-- R12: a command is accepted only when `BUSY = 0`: while a command runs every command is refused. -/
def Obligations.BusyBlockRefusesCommands : Prop :=
  ∀ (s : State) (i : Instr), s.running = true → exec i s = .refused .commandWhileBusy

/-- R58, R198: an engine at a poll whose condition is false, with nobody else to move, steps for ever without
responding: the step leads back to the very same state. -/
def Obligations.PollThatNeverHoldsHangs : Prop :=
  ∀ s : State, s.Polling → s.agenda = [] → (s.params.plantLive = true → s.Settled) →
    step s = .next s

/-! ## Reset -/

/-- R40, R220: what reset leaves: the Sequencer at its start, idle, no fault, no write recorded, no write pending,
each register at its profile's word. -/
def Obligations.ResetLeavesTheProfile : Prop :=
  ∀ p : Params,
    let s := State.resetWith p
    s.seq = .uninitialized ∧ s.busy = false ∧ s.fault = none ∧ s.wlog = []
    ∧ (∀ n, (s.regs.get n).w = (s.regs.get n).r)
    ∧ memRead s .pwrCr = p.profile.pwrCr ∧ memRead s .flashAcr = p.profile.flashAcr
    ∧ memRead s .clkCr = p.profile.clkCr ∧ memRead s .pllCfgr = p.profile.pllCfgr
    ∧ memRead s .clkCfgr = p.profile.clkCfgr ∧ memRead s .gateAhb1 = p.profile.gateAhb1
    ∧ memRead s .gateApb1 = p.profile.gateApb1 ∧ memRead s .gateApb2 = p.profile.gateApb2

/-- R220: a reset turn puts the machine at its reset state whatever it was doing, a fault and a hang included. -/
def Obligations.ResetEndsFaultsAndHangs : Prop :=
  ∀ (s : State) (ts : List Turn), s.agenda = .reset :: ts →
    step s = .next { State.resetWith s.params with requests := s.requests, agenda := ts }

/-- R221, R40: after reset with the default profile every domain reads 16,000,000 Hz. The default profile is the
model's choice among the spec's parameters (notes/assumptions/3.md). -/
def Obligations.EveryClockIsTheOscillatorAfterReset : Prop :=
  ∀ domain a1 : Word, domain.toNat ≤ 5 →
    exec (.getFreq domain a1) State.reset
      = .next (State.reset.answered (.getFreq domain a1) .ok 16000000)

/-- R190, R14: the numbers of the status codes and of the Sequencer's states, as the two outputs show them. -/
def Obligations.OutputsShowTheNumberedCodes : Prop :=
  ∀ s : State,
    (s.st = .ok → s.response = (0, s.rv)) ∧ (s.st = .invalidParameter → s.response = (1, s.rv))
    ∧ (s.st = .alreadyInitialized → s.response = (2, s.rv)) ∧ (s.st = .notAvailable → s.response = (3, s.rv))
    ∧ (s.seq = .uninitialized → s.seqState = 0) ∧ (s.seq = .oscillatorReady → s.seqState = 1)
    ∧ (s.seq = .scalingSet → s.seqState = 2) ∧ (s.seq = .latencySet → s.seqState = 3)
    ∧ (s.seq = .pllProgrammed → s.seqState = 4) ∧ (s.seq = .pllLocked → s.seqState = 5)
    ∧ (s.seq = .switched → s.seqState = 6) ∧ (s.seq = .complete → s.seqState = 7)

/-! ## The Frequency Derivation Engine -/

/-- R101, R102: the outcome of `GET_FREQ` in every case, in the order of its checks; nothing but the latches, the
response and `PH` changes where it answers. -/
def Obligations.GetFreqAnswersTheLiveClock : Prop :=
  ∀ (s : State) (domain a1 : Word), s.idle = true → s.Undisturbed →
    let i : Instr := .getFreq domain a1
    let m := s.params.regmap
    let c := memRead s .clkCfgr
    (5 < domain.toNat → exec i s = .next (s.answered i .invalidParameter 0))
    ∧ ∀ d, domainOf domain = some d →
      (swsOf m c = 0b00 → exec i s
        = .next (s.answered i .ok (BitVec.ofNat 32 (domainFreq m d 16000000 c))))
      ∧ (∀ sys, swsOf m c = 0b10 → pllFreq m s.regs = .ok sys → exec i s
        = .next (s.answered i .ok (BitVec.ofNat 32 (domainFreq m d sys c))))
      ∧ (∀ f, swsOf m c = 0b10 → pllFreq m s.regs = .error f →
          ∃ t, exec i s = .next t ∧ s.FaultedIn i f t ∧ t.regs = s.regs ∧ t.wlog = s.wlog ∧ t.seq = s.seq)
      ∧ (swsOf m c = 0b01 ∨ swsOf m c = 0b11 → exec i s = .next (s.answered i .notAvailable 0))

/-- R103: divide, multiply, divide, each division truncating; no value when the first divisor is 0 or the product
does not fit 32 bits. The fields are read wherever `REGMAP` puts them. -/
def Obligations.PllWalkIsDivideMultiplyDivide : Prop :=
  ∀ (map : Regmap) (g : RegFile),
    let m := (g.rd map .pllm).toNat
    let n := (g.rd map .plln).toNat
    let p := 2 * ((g.rd map .pllp).toNat + 1)
    (m = 0 → pllFreq map g = .error .divideByZero)
    ∧ (m ≠ 0 → 2 ^ 32 ≤ 16000000 / m * n → pllFreq map g = .error .freqOverflow)
    ∧ (m ≠ 0 → 16000000 / m * n < 2 ^ 32 →
        ∃ f, pllFreq map g = .ok f ∧ p * f ≤ 16000000 / m * n ∧ 16000000 / m * n < p * (f + 1))

/-- R108: inside the PllConfig invariant the walk never faults and its bounds hold; outside it `m = 0` faults,
`m = 1` faults exactly from `n = 269` on, and `m >= 2` never overflows for any `n` the field holds. -/
def Obligations.PllWalkBounds : Prop :=
  (∀ m n : Nat, 2 ≤ m → m ≤ 63 → 50 ≤ n → n ≤ 432 → 16000000 / m ≤ 8000000 ∧ 16000000 / m * n ≤ 3456000000)
  ∧ (∀ m n p : Nat, 2 ≤ m → n ≤ 511 → pllOut m n p = .ok (16000000 / m * n / p))
  ∧ (∀ n p : Nat, pllOut 1 n p = .error .freqOverflow ↔ 269 ≤ n)
  ∧ (∀ n p : Nat, pllOut 0 n p = .error .divideByZero)

/-- R104: the bus-prescaler lookup, every encoding. -/
def Obligations.BusPrescalerTable : Prop :=
  (∀ h : BitVec 4, h.getLsbD 3 = false → ahbDiv h = 1)
  ∧ ahbDiv 0b1000 = 2 ∧ ahbDiv 0b1001 = 4 ∧ ahbDiv 0b1010 = 8 ∧ ahbDiv 0b1011 = 16
  ∧ ahbDiv 0b1100 = 64 ∧ ahbDiv 0b1101 = 128 ∧ ahbDiv 0b1110 = 256 ∧ ahbDiv 0b1111 = 512

/-- R105: the peripheral-bus prescaler lookup, every encoding; and the peripheral clocks are taken from the core clock. -/
def Obligations.PeripheralPrescalerTable : Prop :=
  (∀ p : BitVec 3, p.getLsbD 2 = false → apbDiv p = 1)
  ∧ apbDiv 0b100 = 2 ∧ apbDiv 0b101 = 4 ∧ apbDiv 0b110 = 8 ∧ apbDiv 0b111 = 16
  ∧ (∀ m sys c, domainFreq m .apb1Periph sys c = sys / ahbDiv (hpreOf m c) / apbDiv (ppre1Of m c))
  ∧ ∀ m sys c, domainFreq m .apb2Periph sys c = sys / ahbDiv (hpreOf m c) / apbDiv (ppre2Of m c)

/-- R106, R109 (c), on what the command answers: the timer clock is twice the peripheral clock exactly when the
prescaler divides, and equal to it otherwise, on both buses; and a prescaler divides exactly when its enable bit is set. -/
def Obligations.TimerClockDoubles : Prop :=
  (∀ (s : State) (a1 a1' : Word) (sys : Nat), s.idle = true → s.Undisturbed →
    let m := s.params.regmap
    let c := memRead s .clkCfgr
    (swsOf m c = 0b00 ∧ sys = 16000000) ∨ (swsOf m c = 0b10 ∧ pllFreq m s.regs = .ok sys) →
    (∃ t u, exec (.getFreq 2 a1) s = .next t ∧ exec (.getFreq 4 a1') s = .next u
      ∧ t.st = .ok ∧ u.st = .ok
      ∧ u.rv.toNat = (if 1 < apbDiv (ppre1Of m c) then 2 else 1) * t.rv.toNat)
    ∧ ∃ t u, exec (.getFreq 3 a1) s = .next t ∧ exec (.getFreq 5 a1') s = .next u
      ∧ t.st = .ok ∧ u.st = .ok
      ∧ u.rv.toNat = (if 1 < apbDiv (ppre2Of m c) then 2 else 1) * t.rv.toNat)
  ∧ ∀ pp : BitVec 3, 1 < apbDiv pp ↔ pp.getLsbD 2 = true

/-- R109 (b), on what the command answers: the core clock is the system clock divided by the bus prescaler,
truncating. -/
def Obligations.CoreClockIsSystemClockDivided : Prop :=
  ∀ (s : State) (a1 a1' : Word) (sys : Nat), s.idle = true → s.Undisturbed →
    let m := s.params.regmap
    let c := memRead s .clkCfgr
    (swsOf m c = 0b00 ∧ sys = 16000000) ∨ (swsOf m c = 0b10 ∧ pllFreq m s.regs = .ok sys) →
    ∃ t u, exec (.getFreq 0 a1) s = .next t ∧ exec (.getFreq 1 a1') s = .next u
      ∧ t.st = .ok ∧ u.st = .ok ∧ t.rv.toNat = sys
      ∧ u.rv.toNat = t.rv.toNat / ahbDiv (hpreOf m c)

/-- R107: nothing wraps: the system clock fits 32 bits and no derived clock exceeds it. -/
def Obligations.NoFrequencyWraps : Prop :=
  (∀ m g f, pllFreq m g = .ok f → f < 2 ^ 32)
  ∧ ∀ m d sys c, domainFreq m d sys c ≤ sys

/-! ## The leaf controllers -/

/-- R121, R86, R5: `SET_SCALING`: a level above 1 faults with no access; level 0 writes `VOS_ENC(LOW)` and level 1
`VOS_ENC(HIGH)` into `VOS` by one masked write, and where the plant answers (and the new level keeps `Safe`), or the level is
shown already, the command responds `OK` with the field reading back; where the plant never answers, it waits with `VOS.w`
written and no response. When a live plant answers is the model's choice (notes/assumptions/6.md). -/
def Obligations.SetScalingRaisesVos : Prop :=
  ∀ (s : State) (level a1 : Word), s.idle = true → s.Undisturbed → mapWf s.params → s.regs.wf s.params →
    let i : Instr := .setScaling level a1
    let m := s.params.regmap
    let r := memRead s .pwrCr
    (1 < level.toNat → ∃ t, exec i s = .next t ∧ s.FaultedIn i .undefinedScalingLevel t
        ∧ t.regs = s.regs ∧ t.wlog = s.wlog ∧ t.seq = s.seq)
    ∧ ∀ enc : BitVec 2, (level.toNat = 0 ∧ enc = s.params.vosLow) ∨ (level.toNat = 1 ∧ enc = s.params.vosHigh) →
      let v := (r &&& ~~~ ((0b11 : Word) <<< m.vos)) ||| (enc.setWidth 32 <<< m.vos)
      ((s.PlantAnswers ∨ vosOf m r = enc) →
        (s.params.binding = .production → (s.regs.set .pwrCr ⟨v, v⟩).safe s.params = true) →
        exec i s = .next ((s.stored .pwrCr v ⟨v, v⟩).answered i .ok 0))
      ∧ (¬ s.PlantAnswers → vosOf m r ≠ enc →
        ∃ t, exec i s = .next t ∧ t.Polling ∧ t.st = s.st ∧ t.rv = s.rv ∧ t.seq = s.seq
          ∧ t.regs = s.regs.set .pwrCr ⟨v, r⟩ ∧ t.wlog = s.wlog ++ [(m.pwrCrAddr, v)])

/-- R124, R62: `SET_LATENCY`: a count above 15 is rejected with no access, the whole operand compared; otherwise `LATENCY` is
written by one masked write, and where the plant answers (and the new count keeps `Safe`), or the count is shown already, the
command responds `OK` with the field reading back; where the plant never answers, it waits at the poll, with the barrier and then
the response to come. When a live plant answers is the model's choice (notes/assumptions/6.md). -/
def Obligations.SetLatencySetsWaitStates : Prop :=
  ∀ (s : State) (ws a1 : Word), s.idle = true → s.Undisturbed → mapWf s.params → s.regs.wf s.params →
    let i : Instr := .setLatency ws a1
    let m := s.params.regmap
    let r := memRead s .flashAcr
    let v := (r &&& ~~~ ((0xF : Word) <<< m.latency)) ||| (ws <<< m.latency)
    (15 < ws.toNat → exec i s = .next (s.answered i .invalidParameter 0))
    ∧ (ws.toNat ≤ 15 →
      ((s.PlantAnswers ∨ (latencyOf m r).toNat = ws.toNat) →
        (s.params.binding = .production → (s.regs.set .flashAcr ⟨v, v⟩).safe s.params = true) →
        exec i s = .next ((s.stored .flashAcr v ⟨v, v⟩).answered i .ok 0))
      ∧ (¬ s.PlantAnswers → (latencyOf m r).toNat ≠ ws.toNat →
        ∃ t, exec i s = .next t ∧ t.Polling ∧ t.st = s.st ∧ t.rv = s.rv ∧ t.seq = s.seq
          ∧ t.regs = s.regs.set .flashAcr ⟨v, r⟩ ∧ t.wlog = s.wlog ++ [(m.flashAcrAddr, v)]
          ∧ t.ph = [.poll .flashAcr ((0xF : Word) <<< m.latency) (ws <<< m.latency), .barrier, .done]))

/-- R126: `ENABLE_CACHE`: one read, one write that sets `ICEN` and `DCEN` and writes the rest back as read, `OK`. -/
def Obligations.EnableCacheSetsBothEnables : Prop :=
  ∀ (s : State) (a0 a1 : Word), s.idle = true → s.Undisturbed → mapWf s.params → s.regs.wf s.params →
    let i : Instr := .enableCache a0 a1
    let m := s.params.regmap
    let v := memRead s .flashAcr ||| (1 <<< m.icen) ||| (1 <<< m.dcen)
    exec i s = .next ((s.stored .flashAcr v ⟨v, v⟩).answered i .ok 0)

/-- R127: `ENABLE_PREFETCH`: the same with `PRFTEN`. -/
def Obligations.EnablePrefetchSetsItsBit : Prop :=
  ∀ (s : State) (a0 a1 : Word), s.idle = true → s.Undisturbed → mapWf s.params → s.regs.wf s.params →
    let i : Instr := .enablePrefetch a0 a1
    let v := memRead s .flashAcr ||| (1 <<< s.params.regmap.prften)
    exec i s = .next ((s.stored .flashAcr v ⟨v, v⟩).answered i .ok 0)

/-- R130, R84, R21: `PLL_CONFIGURE`: an invalid word is rejected first, with no access; a running PLL faults with no write;
otherwise the five fields are written by one masked write for each register that holds some of them, and the response is `OK`. A
map that puts PLL fields into `CLK_CFGR` needs the mux to have followed its select, or the write of that register is a hazard of
R230. And what the registers then hold, for a legal `P`: each field its value, `P` as `P div 2 - 1`, every other bit as it read; the registers
written, each once, are those that hold some of the fields, in the order of M, N, P, Q, source: where the map splits nothing,
`PLL_CFGR` alone. That a register that holds several fields is written at the place of its first one is the model's choice
(notes/assumptions/35.md). -/
def Obligations.PllConfigureWritesFiveFields : Prop :=
  (∀ (s : State) (cfg : PllWord) (a1 : Word), s.idle = true → s.Undisturbed → mapWf s.params → s.regs.wf s.params →
    let i : Instr := .pllConfigure cfg a1
    let m := s.params.regmap
    let valid : Prop := cfg.rsv = 0 ∧ 2 ≤ cfg.m.toNat ∧ 50 ≤ cfg.n.toNat ∧ cfg.n.toNat ≤ 432
      ∧ (cfg.p = 2 ∨ cfg.p = 4 ∨ cfg.p = 6 ∨ cfg.p = 8)
    (¬ valid → exec i s = .next (s.answered i .invalidParameter 0))
    ∧ (valid → pllOnOf m (memRead s .clkCr) = 1 →
        ∃ t, exec i s = .next t ∧ s.FaultedIn i .pllReconfigWhileRunning t
          ∧ t.regs = s.regs ∧ t.wlog = s.wlog ∧ t.seq = s.seq)
    ∧ (valid → pllOnOf m (memRead s .clkCr) = 0 → (.clkCfgr ∉ pllRegs m ∨ s.MuxFollowed) →
        exec i s = .next ({ s with
          regs := s.regs.programmed m cfg, wlog := s.wlog ++ pllWrites m cfg s.regs }.answered i .ok 0)))
  ∧ ∀ (p : Params) (cfg : PllWord) (f : RegFile), mapWf p → (cfg.p = 2 ∨ cfg.p = 4 ∨ cfg.p = 6 ∨ cfg.p = 8) →
      let m := p.regmap
      let g := f.programmed m cfg
      g.rd m .pllm = cfg.m ∧ g.rd m .plln = cfg.n ∧ g.rd m .pllq = cfg.q ∧ g.rd m .pllsrc = cfg.src
      ∧ 2 * ((g.rd m .pllp).toNat + 1) = cfg.p.toNat
      ∧ (∀ n, (g.get n).r &&& ~~~ pllFieldsMask m n = (f.get n).r &&& ~~~ pllFieldsMask m n)
      ∧ (∀ n, n ∉ pllRegs m → g.get n = f.get n)
      ∧ pllRegs m = [m.pllm.reg, m.plln.reg, m.pllp.reg, m.pllq.reg, m.pllsrc.reg].eraseDups
      ∧ (pllWrites m cfg f) = (pllRegs m).map (fun n => (regAddr m n, (g.get n).w))
      ∧ (m.pllm.reg = .pllCfgr → m.plln.reg = .pllCfgr → m.pllp.reg = .pllCfgr → m.pllq.reg = .pllCfgr →
          m.pllsrc.reg = .pllCfgr → pllRegs m = [.pllCfgr])

/-- R132: `PLL_ENABLE`: one read, one write that sets `PLL_ON`; the read-only bits are not stored by it, and where the
plant is live the PLL has locked by the response if it had not: the promptness of a live plant is the model's choice
(notes/assumptions/6.md). -/
def Obligations.PllEnableSetsPllOn : Prop :=
  ∀ (s : State) (a0 a1 : Word), s.idle = true → s.Undisturbed → mapWf s.params → s.regs.wf s.params →
    let i : Instr := .pllEnable a0 a1
    let m := s.params.regmap
    let v := memRead s .clkCr ||| (1 <<< m.pllOn)
    let x := if s.params.plantLive = true ∧ s.params.binding = .production then v ||| (1 <<< m.pllRdy) else v
    exec i s = .next ((s.stored .clkCr v ⟨x, x⟩).answered i .ok 0)

/-- R133: `PLL_WAIT_LOCK`: with the lock flag set it responds `OK` after its read; with the PLL off, whatever the plant
does, it never responds: no plant step is enabled that could set the flag. -/
def Obligations.WaitLockWaitsForTheFlag : Prop :=
  (∀ (s : State) (a0 a1 : Word), s.idle = true → s.Undisturbed → mapWf s.params →
    pllRdyOf s.params.regmap (memRead s .clkCr) = 1 →
    exec (.pllWaitLock a0 a1) s = .next (s.answered (.pllWaitLock a0 a1) .ok 0))
  ∧ ∀ (s t : State) (a0 a1 : Word), s.idle = true → s.PlantOnly → s.params.binding = .production → mapWf s.params →
    pllOnOf s.params.regmap (memRead s .clkCr) = 0 → pllRdyOf s.params.regmap (memRead s .clkCr) = 0 →
    exec (.pllWaitLock a0 a1) s = .next t →
    (t.Polling ∨ t.fault = some .flashTiming) ∧ t.st = s.st ∧ t.rv = s.rv ∧ t.wlog = s.wlog

/-! ## The Peripheral Clock Gate Controller -/

/-- R180, R181: `GATE_GPIO`: an id above 7 is rejected with no access; otherwise `GPIOEN[id]` of `GATE_AHB1` is OR-ed in, the
rest written back as read, and where the plant answers, or the bank is gated already, the response is `OK` with the bit
reading back; where it never answers, the command waits. When a live plant answers is the model's choice
(notes/assumptions/6.md). -/
def Obligations.GateGpioEnablesTheBank : Prop :=
  ∀ (s : State) (id a1 : Word), s.idle = true → s.Undisturbed → mapWf s.params → s.regs.wf s.params →
    let i : Instr := .gateGpio id a1
    let m := s.params.regmap
    let r := memRead s .gateAhb1
    (7 < id.toNat → exec i s = .next (s.answered i .invalidParameter 0))
    ∧ ∀ k : Fin 8, id.toNat = k.val →
      let b := m.gpioen.get k
      let v := r ||| (1 <<< b)
      ((s.PlantAnswers ∨ r.getLsbD b = true) →
        exec i s = .next ((s.stored .gateAhb1 v ⟨v, v⟩).answered i .ok 0))
      ∧ (¬ s.PlantAnswers → r.getLsbD b = false →
        ∃ t, exec i s = .next t ∧ t.Polling ∧ t.st = s.st ∧ t.rv = s.rv ∧ t.seq = s.seq
          ∧ t.regs = s.regs.set .gateAhb1 ⟨v, r⟩ ∧ t.wlog = s.wlog ++ [(m.gateAhb1Addr, v)])

/-- R180, R182: `GATE_USART`: an id that is no key of `USART_TABLE` is rejected with no access; otherwise the bit of the
instance's entry is OR-ed into `GATE_APB1` or `GATE_APB2` as the entry says, and where the plant answers, or the bit reads 1
already, the response is `OK`; where it never answers, the command waits. Of two entries of one id the first counts
(notes/assumptions/27.md); when a live plant answers is the model's choice (notes/assumptions/6.md). -/
def Obligations.GateUsartEnablesTheInstance : Prop :=
  ∀ (s : State) (id a1 : Word), s.idle = true → s.Undisturbed → mapWf s.params → s.regs.wf s.params →
    let i : Instr := .gateUsart id a1
    let m := s.params.regmap
    ((∀ e ∈ s.params.usart, e.id ≠ id) → exec i s = .next (s.answered i .invalidParameter 0))
    ∧ ∀ (pre post : List UsartEntry) (e : UsartEntry) (n : RegName) (addr : Word),
      s.params.usart = pre ++ e :: post → (∀ e' ∈ pre, e'.id ≠ id) → e.id = id →
      (e.bus = .apb1 ∧ n = .gateApb1 ∧ addr = m.gateApb1Addr) ∨ (e.bus = .apb2 ∧ n = .gateApb2 ∧ addr = m.gateApb2Addr) →
      let r := memRead s n
      let v := r ||| (1 <<< e.bit.val)
      ((s.PlantAnswers ∨ r.getLsbD e.bit = true) →
        exec i s = .next ((s.stored n v ⟨v, v⟩).answered i .ok 0))
      ∧ (¬ s.PlantAnswers → r.getLsbD e.bit = false →
        ∃ t, exec i s = .next t ∧ t.Polling ∧ t.st = s.st ∧ t.rv = s.rv ∧ t.seq = s.seq
          ∧ t.regs = s.regs.set n ⟨v, r⟩ ∧ t.wlog = s.wlog ++ [(addr, v)])

/-! ## The Clock Switch Sequencer -/

/-- R151, R193, R84, R85: the checks of `SEQ_RUN` in order: spent, invalid operands, undefined level; none accesses the register
file. In the six states between, a total model refuses it (notes/assumptions/28.md). -/
def Obligations.SeqRunChecksInOrder : Prop :=
  ∀ (s : State) (cfg : PllWord) (pw : PowerWord), s.idle = true → s.Undisturbed →
    let i : Instr := .seqRun cfg pw
    let valid : Prop := (cfg.rsv = 0 ∧ 2 ≤ cfg.m.toNat ∧ 50 ≤ cfg.n.toNat ∧ cfg.n.toNat ≤ 432
      ∧ (cfg.p = 2 ∨ cfg.p = 4 ∨ cfg.p = 6 ∨ cfg.p = 8)) ∧ pw.rsv = 0 ∧ pw.ws.toNat ≤ 15
    (s.seq = .complete → exec i s = .next (s.answered i .alreadyInitialized 0))
    ∧ (s.seq = .uninitialized → ¬ valid → exec i s = .next (s.answered i .invalidParameter 0))
    ∧ (s.seq = .uninitialized → valid → 1 < pw.level.toNat →
        ∃ t, exec i s = .next t ∧ s.FaultedIn i .undefinedScalingLevel t
          ∧ t.regs = s.regs ∧ t.wlog = s.wlog ∧ t.seq = s.seq)
    ∧ (s.seq ≠ .uninitialized → s.seq ≠ .complete → exec i s = .refused .sequencerMidway)

/-- R160: the one-shot: a `SEQ_RUN` that ends `OK` leaves `SEQ = COMPLETE`; from there every `SEQ_RUN`, whatever its operands,
answers `ALREADY_INITIALIZED` with 0 and writes nothing but the response and the latches. -/
def Obligations.SequencerIsOneShot : Prop :=
  (∀ (s t : State) (cfg : PllWord) (pw : PowerWord), s.PlantOnly →
    exec (.seqRun cfg pw) s = .next t → t.busy = false → t.fault = none → t.st = .ok →
    t.seq = .complete)
  ∧ ∀ (s : State) (cfg : PllWord) (pw : PowerWord), s.idle = true → s.Undisturbed → s.seq = .complete →
    exec (.seqRun cfg pw) s = .next (s.answered (.seqRun cfg pw) .alreadyInitialized 0)

/-- R151 to R158, R161, R162, R198: `SEQ_RUN` under a live plant: the oscillator ready, the PLL off, the operands
valid, `Safe` holding at the three points where the plant answers with a new level, a new count and the new source. It
responds `OK` with `SEQ = COMPLETE`, its writes in order, five of them where the map splits no PLL fields, the PLL on, locked
and selected. From `OSC_RDY = 0` a live plant sets the flag before the first read, and the run is that from the state with the flag
set; where no plant moves the command hangs at T1: still polling, no response, `SEQ` as it was, nothing written, and among what is left
to do the barrier of T3 between its poll and its state (R154, R62). The promptness of
a live plant is the model's choice (notes/assumptions/6.md), and so, under a map that splits the PLL fields, is which of their
registers is written first (notes/assumptions/35.md). -/
def Obligations.SeqRunCompletes : Prop :=
  (∀ (s : State) (cfg : PllWord) (pw : PowerWord) (enc : BitVec 2), s.idle = true → s.Undisturbed →
    mapWf s.params → s.params.plantLive = true → s.params.binding = .production → s.regs.wf s.params →
    s.seq = .uninitialized →
    (cfg.rsv = 0 ∧ 2 ≤ cfg.m.toNat ∧ 50 ≤ cfg.n.toNat ∧ cfg.n.toNat ≤ 432
      ∧ (cfg.p = 2 ∨ cfg.p = 4 ∨ cfg.p = 6 ∨ cfg.p = 8)) → (pw.rsv = 0 ∧ pw.ws.toNat ≤ 15) →
    (pw.level = 0 ∧ enc = s.params.vosLow) ∨ (pw.level = 1 ∧ enc = s.params.vosHigh) →
    let m := s.params.regmap
    let r := memRead s
    let pwr := (r .pwrCr &&& ~~~ ((0b11 : Word) <<< m.vos)) ||| (enc.setWidth 32 <<< m.vos)
    let scaled := s.regs.set .pwrCr ⟨pwr, pwr⟩
    let flash := (r .flashAcr &&& ~~~ ((0xF : Word) <<< m.latency)) ||| (pw.ws.setWidth 32 <<< m.latency)
    let slowed := scaled.set .flashAcr ⟨flash, flash⟩
    let programmed := slowed.programmed m cfg
    let cr := programmed.clkCr.r ||| (1 <<< m.pllOn)
    let locked := programmed.set .clkCr ⟨cr ||| (1 <<< m.pllRdy), cr ||| (1 <<< m.pllRdy)⟩
    let cfgr := (locked.clkCfgr.r &&& ~~~ ((0b11 : Word) <<< m.sw)) ||| (0b10 <<< m.sw)
    let confirmed := (cfgr &&& ~~~ ((0b11 : Word) <<< m.sws)) ||| (0b10 <<< m.sws)
    let switched := locked.set .clkCfgr ⟨confirmed, confirmed⟩
    oscRdyOf m (r .clkCr) = 1 → pllOnOf m (r .clkCr) = 0 → swsOf m (r .clkCfgr) = 0b00 →
    scaled.safe s.params = true → slowed.safe s.params = true → switched.safe s.params = true →
    exec (.seqRun cfg pw) s = .next
      ({ s with
        regs := switched, seq := .complete
        wlog := s.wlog ++ [(m.pwrCrAddr, pwr), (m.flashAcrAddr, flash)] ++ pllWrites m cfg slowed
          ++ [(m.clkCrAddr, cr), (m.clkCfgrAddr, cfgr)] }.answered (.seqRun cfg pw) .ok 0))
  ∧ ∀ (s : State) (cfg : PllWord) (pw : PowerWord), s.idle = true → s.agenda = [] → mapWf s.params →
      s.seq = .uninitialized →
      (cfg.rsv = 0 ∧ 2 ≤ cfg.m.toNat ∧ 50 ≤ cfg.n.toNat ∧ cfg.n.toNat ≤ 432
        ∧ (cfg.p = 2 ∨ cfg.p = 4 ∨ cfg.p = 6 ∨ cfg.p = 8)) → (pw.rsv = 0 ∧ pw.ws.toNat ≤ 15) → pw.level.toNat ≤ 1 →
      let m := s.params.regmap
      let x := s.regs.get .clkCr
      let ready : State := { s with regs := s.regs.set .clkCr ⟨x.w ||| (1 <<< m.oscRdy), x.r ||| (1 <<< m.oscRdy)⟩ }
      oscRdyOf m x.r = 0 →
      (s.params.plantLive = true → s.params.binding = .production → ready.Undisturbed →
        exec (.seqRun cfg pw) s = exec (.seqRun cfg pw) ready)
      ∧ (s.params.plantLive = false ∨ s.params.binding = .test →
        ∃ t, exec (.seqRun cfg pw) s = .next t ∧ t.Polling ∧ t.st = s.st ∧ t.rv = s.rv ∧ t.seq = .uninitialized
          ∧ t.regs = s.regs ∧ t.wlog = s.wlog
          ∧ ∃ pre post, t.ph = pre ++ .poll .flashAcr ((0xF : Word) <<< m.latency) (pw.ws.setWidth 32 <<< m.latency)
            :: .barrier :: .setSeq .latencySet :: post)

/-- R155, R196: `SEQ_RUN` on a running PLL faults at T4, with the writes of T2 and T3 made and not undone, and
`SEQ = LATENCY_SET`. That the plant answers before the polls is, for a live one, the model's choice (notes/assumptions/6.md). -/
def Obligations.SeqRunFaultsOnARunningPll : Prop :=
  ∀ (s : State) (cfg : PllWord) (pw : PowerWord) (enc : BitVec 2), s.idle = true → s.Undisturbed →
    mapWf s.params → s.regs.wf s.params → s.PlantAnswers → s.seq = .uninitialized →
    (cfg.rsv = 0 ∧ 2 ≤ cfg.m.toNat ∧ 50 ≤ cfg.n.toNat ∧ cfg.n.toNat ≤ 432
      ∧ (cfg.p = 2 ∨ cfg.p = 4 ∨ cfg.p = 6 ∨ cfg.p = 8)) → (pw.rsv = 0 ∧ pw.ws.toNat ≤ 15) →
    (pw.level = 0 ∧ enc = s.params.vosLow) ∨ (pw.level = 1 ∧ enc = s.params.vosHigh) →
    let m := s.params.regmap
    let pwr := (memRead s .pwrCr &&& ~~~ ((0b11 : Word) <<< m.vos)) ||| (enc.setWidth 32 <<< m.vos)
    let flash := (memRead s .flashAcr &&& ~~~ ((0xF : Word) <<< m.latency)) ||| (pw.ws.setWidth 32 <<< m.latency)
    let scaled := s.regs.set .pwrCr ⟨pwr, pwr⟩
    let slowed := scaled.set .flashAcr ⟨flash, flash⟩
    oscRdyOf m (memRead s .clkCr) = 1 → pllOnOf m (memRead s .clkCr) = 1 →
    (s.params.binding = .production → scaled.safe s.params = true ∧ slowed.safe s.params = true) →
    ∃ t, exec (.seqRun cfg pw) s = .next t ∧ s.FaultedIn (.seqRun cfg pw) .pllReconfigWhileRunning t
      ∧ t.seq = .latencySet ∧ t.regs = slowed
      ∧ t.wlog = s.wlog ++ [(m.pwrCrAddr, pwr), (m.flashAcrAddr, flash)]

/-- R159, R184, R120: no command but `SEQ_RUN` writes `SEQ`, whatever the other agents do short of reset. -/
def Obligations.OnlySeqRunWritesSeq : Prop :=
  ∀ (i : Instr) (s t : State), (∀ cfg pw, i ≠ .seqRun cfg pw) → .reset ∉ s.agenda →
    exec i s = .next t → t.seq = s.seq

/-- R159, R14: the Sequencer moves one state at a time: a micro-step leaves `SEQ` alone or puts it in the next state, from every
state whose command in progress has the rest of its states in order; and every step of the machine, of whatever agent, keeps
that. -/
def Obligations.SequencerMovesOneStateAtATime : Prop :=
  (∀ s : State, s.SeqOk →
    (engineStep s).seq = s.seq ∨ (seqCode (engineStep s).seq).toNat = (seqCode s.seq).toNat + 1)
  ∧ ∀ s t : State, s.SeqOk → step s = .next t → t.SeqOk

/-- R197, R157: `SEQ_RUN` as specified cannot raise `ClockGlitch`: from a state of the invariant, with only the plant
moving beside the engine, it selects the PLL only after it read `PLL_RDY = 1`. A map that puts PLL fields into `CLK_CFGR` is
left out: there T4 writes that register too, and R230 checks the write against the select as it stands. -/
def Obligations.SeqRunRaisesNoClockGlitch : Prop :=
  ∀ (s t : State) (cfg : PllWord) (pw : PowerWord), s.Inv → s.PlantOnly → .clkCfgr ∉ pllRegs s.params.regmap →
    exec (.seqRun cfg pw) s = .next t → t.fault ≠ some .clockGlitch

/-! ## What every command leaves alone -/

/-- R55, R56, R24, R135, R163: the frame, whatever the plant does meanwhile: of the registers a command does not store to, every
bit that is written and not a status of the plant's holds what it held; the parameters, the port's writes and the requester's
commands are untouched; the engine's writes are to the command's registers. -/
def Obligations.CommandsWriteOnlyTheirRegisters : Prop :=
  ∀ (i : Instr) (s t : State), s.PlantOnly → exec i s = .next t →
    (∀ n, n ∉ storedRegs s.params i →
      (t.regs.get n).w &&& ~~~ roMask s.params.regmap n = (s.regs.get n).w &&& ~~~ roMask s.params.regmap n)
    ∧ t.params = s.params ∧ t.plog = s.plog ∧ t.requests = s.requests
    ∧ ∃ new, t.wlog = s.wlog ++ new ∧ ∀ e ∈ new, ∃ n ∈ storedRegs s.params i, e.1 = regAddr s.params.regmap n

/-- The same where nobody but the engine moves of itself: the other registers are the same in every bit, as written and as read,
and so is every byte of the register space outside the command's registers. -/
def Obligations.UndisturbedCommandsKeepOtherBytes : Prop :=
  ∀ (i : Instr) (s t : State), s.Undisturbed → exec i s = .next t →
    (∀ n, n ∉ storedRegs s.params i → t.regs.get n = s.regs.get n)
    ∧ ∀ a : Word, (∀ n ∈ storedRegs s.params i, a &&& 0xFFFFFFFC ≠ regAddr s.params.regmap n) →
        t.regs.byteAt s.params.regmap a = s.regs.byteAt s.params.regmap a

/-- R24: the engine changes no bit that belongs to no named field: with nobody but the plant moving beside it, every such bit of
every register holds after a command what it held before. -/
def Obligations.UnnamedBitsAreNeverChanged : Prop :=
  ∀ (i : Instr) (s t : State), s.PlantOnly → s.regs.wf s.params → exec i s = .next t →
    ∀ n, (t.regs.get n).w &&& ~~~ namedMask s.params n = (s.regs.get n).w &&& ~~~ namedMask s.params n
      ∧ (t.regs.get n).r &&& ~~~ namedMask s.params n = (s.regs.get n).r &&& ~~~ namedMask s.params n

/-- R191: an error response writes nothing: whatever command raises it, the register file, `SEQ` and `WLOG` are as before, `RV` is 0
and the block is idle. -/
def Obligations.ErrorResponseChangesNothingElse : Prop :=
  ∀ (i : Instr) (s t : State), s.Undisturbed → exec i s = .next t → t.busy = false → t.fault = none →
    t.st ≠ .ok → ∃ e, e ≠ .ok ∧ t = s.answered i e 0

/-! ## Commands end -/

/-- R126, R127, R130, R132, R101: a command without a poll cannot hang: whatever the plant does, it ends in a response or a
fault. -/
def Obligations.CommandsWithoutPollEnd : Prop :=
  ∀ (i : Instr) (s t : State), s.PlantOnly → exec i s = .next t →
    ((∃ a b, i = .getFreq a b) ∨ (∃ a b, i = .enableCache a b) ∨ (∃ a b, i = .enablePrefetch a b)
      ∨ (∃ a b, i = .pllConfigure a b) ∨ (∃ a b, i = .pllEnable a b)) →
    t.running = false

/-- R198: under `PLANT_LIVE` every poll of `SET_SCALING`, `SET_LATENCY`, `GATE_GPIO`, `GATE_USART` and `SEQ_RUN` ends, and that of
`PLL_WAIT_LOCK` ends when `PLL_ON = 1`: whatever the plant's steps before, the command is answered or a fault intervenes. -/
def Obligations.PollsEndUnderALivePlant : Prop :=
  ∀ (i : Instr) (s t : State), s.PlantOnly → mapWf s.params → s.params.plantLive = true →
    s.params.binding = .production → exec i s = .next t →
    ((∃ a b, i = .setScaling a b) ∨ (∃ a b, i = .setLatency a b) ∨ (∃ a b, i = .gateGpio a b)
      ∨ (∃ a b, i = .gateUsart a b) ∨ (∃ cfg pw, i = .seqRun cfg pw)
      ∨ ((∃ a b, i = .pllWaitLock a b) ∧ pllOnOf s.params.regmap (memRead s .clkCr) = 1)) →
    t.running = false

/-! ## The register file -/

/-- R17 to R23, R6: which bits of a register are whose: the settling fields, the read-only fields and the five PLL fields, at the bits
`REGMAP` and `USART_TABLE` give, with the widths of R18 to R22; and a field of a word is the number its bits from `lo(F)` up, as
many as the field is wide, stand for. The map the machine has at reset is R26's default: well-formed, with the addresses and masks
of R26's table; that this is the map is PRESUMED, the family's (notes/assumptions/1.md). -/
def Obligations.FieldsLieWhereTheMapSays : Prop :=
  (∀ (p : Params) (n : RegName) (i : Nat), i < 32 →
    let m := p.regmap
    ((rwsMask p n).getLsbD i = true ↔
      (n = .pwrCr ∧ m.vos ≤ i ∧ i < m.vos + 2) ∨ (n = .flashAcr ∧ m.latency ≤ i ∧ i < m.latency + 4)
      ∨ (n = .gateAhb1 ∧ ∃ k, m.gpioen.get k = i)
      ∨ ∃ e ∈ p.usart, e.bit.val = i ∧ ((e.bus = .apb1 ∧ n = .gateApb1) ∨ (e.bus = .apb2 ∧ n = .gateApb2)))
    ∧ ((roMask m n).getLsbD i = true ↔
      (n = .clkCr ∧ (i = m.oscRdy ∨ i = m.pllRdy)) ∨ (n = .clkCfgr ∧ m.sws ≤ i ∧ i < m.sws + 2))
    ∧ ((pllFieldsMask m n).getLsbD i = true ↔
      (n = m.pllm.reg ∧ m.pllm.lo ≤ i ∧ i < m.pllm.lo + 6) ∨ (n = m.plln.reg ∧ m.plln.lo ≤ i ∧ i < m.plln.lo + 9)
      ∨ (n = m.pllp.reg ∧ m.pllp.lo ≤ i ∧ i < m.pllp.lo + 2) ∨ (n = m.pllq.reg ∧ m.pllq.lo ≤ i ∧ i < m.pllq.lo + 4)
      ∨ (n = m.pllsrc.reg ∧ i = m.pllsrc.lo)))
  ∧ (∀ (m : Regmap) (v : Word),
      (vosOf m v).toNat = v.toNat / 2 ^ m.vos % 4 ∧ (latencyOf m v).toNat = v.toNat / 2 ^ m.latency % 16
      ∧ (oscRdyOf m v).toNat = v.toNat / 2 ^ m.oscRdy % 2 ∧ (pllOnOf m v).toNat = v.toNat / 2 ^ m.pllOn % 2
      ∧ (pllRdyOf m v).toNat = v.toNat / 2 ^ m.pllRdy % 2
      ∧ (swOf m v).toNat = v.toNat / 2 ^ m.sw % 4 ∧ (swsOf m v).toNat = v.toNat / 2 ^ m.sws % 4
      ∧ (hpreOf m v).toNat = v.toNat / 2 ^ m.hpre % 16
      ∧ (ppre1Of m v).toNat = v.toNat / 2 ^ m.ppre1 % 8 ∧ (ppre2Of m v).toNat = v.toNat / 2 ^ m.ppre2 % 8
      ∧ ∀ f : RegFile,
        (f.rd m .pllm).toNat = (f.get m.pllm.reg).r.toNat / 2 ^ m.pllm.lo % 64
        ∧ (f.rd m .plln).toNat = (f.get m.plln.reg).r.toNat / 2 ^ m.plln.lo % 512
        ∧ (f.rd m .pllp).toNat = (f.get m.pllp.reg).r.toNat / 2 ^ m.pllp.lo % 4
        ∧ (f.rd m .pllq).toNat = (f.get m.pllq.reg).r.toNat / 2 ^ m.pllq.lo % 16
        ∧ (f.rd m .pllsrc).toNat = (f.get m.pllsrc.reg).r.toNat / 2 ^ m.pllsrc.lo % 2
        ∧ (f.rd m .prften).toNat = f.flashAcr.r.toNat / 2 ^ m.prften % 2
        ∧ (f.rd m .icen).toNat = f.flashAcr.r.toNat / 2 ^ m.icen % 2
        ∧ (f.rd m .dcen).toNat = f.flashAcr.r.toNat / 2 ^ m.dcen % 2)
  ∧ let p := State.reset.params
    let m := p.regmap
    mapWf p
    ∧ [m.pwrCrAddr, m.flashAcrAddr, m.clkCrAddr, m.pllCfgrAddr, m.clkCfgrAddr, m.gateAhb1Addr, m.gateApb1Addr, m.gateApb2Addr]
      = [0x40007000, 0x40023C00, 0x40023800, 0x40023804, 0x40023808, 0x40023830, 0x40023840, 0x40023844]
    ∧ fixedFields.map (FixedField.mask m)
      = [0x0000C000, 0x0000000F, 0x00000100, 0x00000200, 0x00000400, 0x00000002, 0x01000000, 0x02000000, 0x0000003F,
        0x00007FC0, 0x00030000, 0x0F000000, 0x00400000, 0x00000003, 0x0000000C, 0x000000F0, 0x00001C00, 0x0000E000]
    ∧ pllRegs m = [.pllCfgr] ∧ pllFieldsMask m .pllCfgr = 0x0F437FFF
    ∧ rwsMask p .gateAhb1 = 0x000000FF ∧ rwsMask p .gateApb1 = 0x00020000 ∧ rwsMask p .gateApb2 = 0x00000030

/-- R52, R53, R33: what a read gives after a write of the production binding that meets no hazard: read-only and settling bits as
before, the five PLL fields as before while the PLL runs, `PLL_RDY` 0 where the write clears `PLL_ON`, and every other bit as
written; a settling bit is pending with the written value; no other register changes. The write is recorded, with the register's
address and the word as given, the engine's in `WLOG` and the port's in the second list; and nothing else of the state changes.
R230, R231: and which writes meet no hazard: every write of a register other than `CLK_CR` and `CLK_CFGR`; a write of `CLK_CR`
that does not clear `PLL_ON` while the PLL is the source in use; and a write of `CLK_CFGR` whose `SW` is the source shown, or one
that is wired and ready, and which keeps `HPRE` or leaves `Safe` true. -/
def Obligations.WriteActsByFieldClass : Prop :=
  (∀ (who : Writer) (n : RegName) (v : Word) (s : State), s.params.binding = .production → s.fault = none →
    mapWf s.params → (memWrite who n v s).fault = none →
    let m := s.params.regmap
    let x := s.regs.get n
    let y := (memWrite who n v s).regs.get n
    let frozen := if pllOnOf m (memRead s .clkCr) = 1 then pllFieldsMask m n else 0
    y.r &&& rwsMask s.params n = x.r &&& rwsMask s.params n
    ∧ y.w &&& rwsMask s.params n &&& ~~~ roMask m n &&& ~~~ frozen
        = v &&& rwsMask s.params n &&& ~~~ roMask m n &&& ~~~ frozen
    ∧ y.r &&& ~~~ rwsMask s.params n &&& ~~~ roMask m n &&& ~~~ frozen
        = v &&& ~~~ rwsMask s.params n &&& ~~~ roMask m n &&& ~~~ frozen
    ∧ y.r &&& frozen = x.r &&& frozen
    ∧ (n ≠ .clkCr → y.r &&& roMask m n = x.r &&& roMask m n)
    ∧ (n = .clkCr → oscRdyOf m y.r = oscRdyOf m x.r)
    ∧ (n = .clkCfgr → swsOf m y.r = swsOf m x.r)
    ∧ (n = .clkCr → pllOnOf m x.r = 1 → pllOnOf m v = 0 → pllRdyOf m y.r = 0)
    ∧ (n = .clkCr → ¬ (pllOnOf m x.r = 1 ∧ pllOnOf m v = 0) → pllRdyOf m y.r = pllRdyOf m x.r)
    ∧ (∀ k, k ≠ n → (memWrite who n v s).regs.get k = s.regs.get k)
    ∧ (who = .engine → memWrite who n v s
        = { s with regs := (memWrite who n v s).regs, wlog := s.wlog ++ [(regAddr m n, v)] })
    ∧ (who = .port → memWrite who n v s
        = { s with regs := (memWrite who n v s).regs, plog := s.plog ++ [(regAddr m n, v)] }))
  ∧ ∀ (who : Writer) (n : RegName) (v : Word) (s : State), s.params.binding = .production → s.fault = none →
    mapWf s.params →
    let m := s.params.regmap
    let c := memRead s .clkCfgr
    let r := memRead s .clkCr
    let x := s.regs.get .clkCfgr
    let kept : Word := ((0b11 : Word) <<< m.sws) ||| (if pllOnOf m r = 1 then pllFieldsMask m .clkCfgr else 0)
    let after := s.regs.set .clkCfgr ⟨(x.w &&& kept) ||| (v &&& ~~~ kept), (x.r &&& kept) ||| (v &&& ~~~ kept)⟩
    (n ≠ .clkCr → n ≠ .clkCfgr → (memWrite who n v s).fault = none)
    ∧ (n = .clkCr → ¬ (pllOnOf m r = 1 ∧ pllOnOf m v = 0 ∧ swsOf m c = 0b10) → (memWrite who n v s).fault = none)
    ∧ (n = .clkCfgr →
      (swOf m v = swsOf m c ∨ (swOf m v = 0b10 ∧ pllRdyOf m r = 1) ∨ (swOf m v = 0b00 ∧ oscRdyOf m r = 1)) →
      (hpreOf m v ≠ hpreOf m c → after.safe s.params = true) → (memWrite who n v s).fault = none)

/-- R230, R53: a write whose new `SW` differs from `SWS` and names a source not ready or not wired faults `ClockGlitch`, and so does
a write that clears `PLL_ON` while the PLL is the source in use. That the register file is left as it was, and that `ClockGlitch`
is recorded even where the write would break `Safe` as well, are the model's choices (notes/assumptions/10.md,
notes/assumptions/31.md). -/
def Obligations.SelectingAnUnreadySourceFaults : Prop :=
  ∀ (who : Writer) (v : Word) (s : State), s.params.binding = .production → mapWf s.params →
    let m := s.params.regmap
    let c := memRead s .clkCfgr
    let r := memRead s .clkCr
    (swOf m v ≠ swsOf m c →
      (swOf m v = 0b10 ∧ pllRdyOf m r = 0) ∨ (swOf m v = 0b00 ∧ oscRdyOf m r = 0) ∨ swOf m v = 0b01 ∨ swOf m v = 0b11 →
      memWrite who .clkCfgr v s = recordFault .clockGlitch s)
    ∧ (pllOnOf m r = 1 → pllOnOf m v = 0 → swsOf m c = 0b10 →
      memWrite who .clkCr v s = recordFault .clockGlitch s)

/-- R231, R232: `Safe`, and what breaks it. Where the source shown has a frequency, `Safe` holds exactly when the core clock is at most
the `F_MAX` of the level shown and the count shown is at least that of the first row of the level's table that reaches the core
clock; where `GET_FREQ CORE` would give no value it holds. A plant step that answers a switch, a new level or a new count, and a
write that changes `HPRE` and meets no hazard of R230 (its `SW` is the source shown, or one that is wired and ready), fault
`FlashTiming` instead of making `Safe` false; a write that meets both is `SelectingAnUnreadySourceFaults`. The model's choices in it: a table that ends below
the core clock (notes/assumptions/18.md), a `VOS_ENC` that gives both levels one encoding (notes/assumptions/29.md), and that a
faulting step leaves the register file as it was (notes/assumptions/10.md). -/
def Obligations.UnsafeClockingFaults : Prop :=
  (∀ (p : Params) (f : RegFile),
    let m := p.regmap
    let c := f.clkCfgr.r
    let high : Prop := vosOf m f.pwrCr.r = p.vosHigh
    (∀ sys, (swsOf m c = 0b00 ∧ sys = 16000000) ∨ (swsOf m c = 0b10 ∧ pllFreq m f = .ok sys) →
      let core := sys / ahbDiv (hpreOf m c)
      let enough (rows : List LatencyRow) : Prop := ∃ pre row post, rows = pre ++ row :: post
        ∧ (∀ r ∈ pre, r.maxFreq < core) ∧ core ≤ row.maxFreq ∧ row.waitStates ≤ (latencyOf m f.flashAcr.r).toNat
      (high → (f.safe p = true ↔ core ≤ p.fMaxHigh ∧ enough p.latencyHigh))
      ∧ (¬ high → (f.safe p = true ↔ core ≤ p.fMaxLow ∧ enough p.latencyLow)))
    ∧ (swsOf m c = 0b01 ∨ swsOf m c = 0b11 ∨ (swsOf m c = 0b10 ∧ ∃ e, pllFreq m f = .error e) → f.safe p = true))
  ∧ (∀ (s : State) (q : PlantStep), plantEnabled s q = true →
    q = .muxSwitch ∨ q = .settle .vos ∨ q = .settle .latency →
    (plantEffect s.params s.regs q).safe s.params = false → plantStep q s = recordFault .flashTiming s)
  ∧ ∀ (who : Writer) (v : Word) (s : State), s.params.binding = .production → mapWf s.params →
    let m := s.params.regmap
    let r := memRead s .clkCr
    let x := s.regs.get .clkCfgr
    let kept : Word := ((0b11 : Word) <<< m.sws) ||| (if pllOnOf m r = 1 then pllFieldsMask m .clkCfgr else 0)
    let after := s.regs.set .clkCfgr ⟨(x.w &&& kept) ||| (v &&& ~~~ kept), (x.r &&& kept) ||| (v &&& ~~~ kept)⟩
    (swOf m v = swsOf m (memRead s .clkCfgr) ∨ (swOf m v = 0b10 ∧ pllRdyOf m r = 1) ∨ (swOf m v = 0b00 ∧ oscRdyOf m r = 1)) →
    hpreOf m v ≠ hpreOf m (memRead s .clkCfgr) →
    after.safe s.params = false → memWrite who .clkCfgr v s = recordFault .flashTiming s

/-- R30, R31: `settle(F)` is enabled exactly while a write of `F` is pending, gives `F.r` the value of `F.w`, and changes nothing
else of the register file. R231: where `F` is a gate enable, or the new level or count keeps `Safe`, it does so, and nothing else
of the state changes. And the bits of each settling field are where `REGMAP` and `USART_TABLE` put them (R18, R19, R23); of two
entries of one id the first counts (notes/assumptions/27.md). -/
def Obligations.SettleCopiesThePendingValue : Prop :=
  (∀ (s : State) (q : SettlingField) (n : RegName) (mask : Word), s.params.binding = .production →
    s.fault = none → SettlingField.bits s.params q = some (n, mask) →
    let x := s.regs.get n
    let after := s.regs.set n ⟨x.w, (x.r &&& ~~~ mask) ||| (x.w &&& mask)⟩
    (plantEnabled s (.settle q) = true ↔ x.w &&& mask ≠ x.r &&& mask)
    ∧ ((plantStep (.settle q) s).fault = none →
        let y := (plantStep (.settle q) s).regs.get n
        y.w = x.w ∧ y.r &&& mask = x.w &&& mask ∧ y.r &&& ~~~ mask = x.r &&& ~~~ mask
        ∧ ∀ k, k ≠ n → (plantStep (.settle q) s).regs.get k = s.regs.get k)
    ∧ ((q = .vos ∨ q = .latency → after.safe s.params = true) → plantStep (.settle q) s = { s with regs := after }))
  ∧ ∀ p : Params,
    let m := p.regmap
    SettlingField.bits p .vos = some (.pwrCr, (0b11 : Word) <<< m.vos)
    ∧ SettlingField.bits p .latency = some (.flashAcr, (0xF : Word) <<< m.latency)
    ∧ (∀ k, SettlingField.bits p (.gpioen k) = some (.gateAhb1, (1 : Word) <<< m.gpioen.get k))
    ∧ (∀ id, (∀ e ∈ p.usart, e.id ≠ id) → SettlingField.bits p (.usarten id) = none)
    ∧ ∀ (pre post : List UsartEntry) (e : UsartEntry), p.usart = pre ++ e :: post → (∀ e' ∈ pre, e'.id ≠ e.id) →
      (e.bus = .apb1 → SettlingField.bits p (.usarten e.id) = some (.gateApb1, (1 : Word) <<< e.bit.val))
      ∧ (e.bus = .apb2 → SettlingField.bits p (.usarten e.id) = some (.gateApb2, (1 : Word) <<< e.bit.val))

/-- R31: when the plant's three steps on the status fields are enabled, and what each does: `osc_ready` sets `OSC_RDY`, `pll_lock` sets
`PLL_RDY`, and `mux_switch`, where the new source keeps `Safe`, gives `SWS` the value of `SW`; nothing else of the state changes. And
no plant step clears `OSC_RDY` or `PLL_RDY`, or changes `SWS` but to `SW` and for a ready source, or writes a field software
writes. -/
def Obligations.PlantOnlyRaisesStatus : Prop :=
  (∀ s : State, s.params.binding = .production → s.fault = none → mapWf s.params →
    let m := s.params.regmap
    let x := s.regs.get .clkCr
    let c := s.regs.get .clkCfgr
    let sw := (swOf m c.r).setWidth 32 <<< m.sws
    let switched := s.regs.set .clkCfgr
      ⟨(c.w &&& ~~~ ((0b11 : Word) <<< m.sws)) ||| sw, (c.r &&& ~~~ ((0b11 : Word) <<< m.sws)) ||| sw⟩
    (plantEnabled s .oscReady = true ↔ oscRdyOf m x.r = 0)
    ∧ (oscRdyOf m x.r = 0 → plantStep .oscReady s
        = { s with regs := s.regs.set .clkCr ⟨x.w ||| (1 <<< m.oscRdy), x.r ||| (1 <<< m.oscRdy)⟩ })
    ∧ (plantEnabled s .pllLock = true ↔ pllOnOf m x.r = 1 ∧ pllRdyOf m x.r = 0)
    ∧ (pllOnOf m x.r = 1 → pllRdyOf m x.r = 0 → plantStep .pllLock s
        = { s with regs := s.regs.set .clkCr ⟨x.w ||| (1 <<< m.pllRdy), x.r ||| (1 <<< m.pllRdy)⟩ })
    ∧ (plantEnabled s .muxSwitch = true ↔ swsOf m c.r ≠ swOf m c.r
        ∧ ((swOf m c.r = 0b00 ∧ oscRdyOf m x.r = 1) ∨ (swOf m c.r = 0b10 ∧ pllRdyOf m x.r = 1)))
    ∧ (plantEnabled s .muxSwitch = true → switched.safe s.params = true →
        plantStep .muxSwitch s = { s with regs := switched }))
  ∧ ∀ (s : State) (q : PlantStep), mapWf s.params →
      let m := s.params.regmap
      let u := (plantStep q s).regs
      (oscRdyOf m s.regs.clkCr.r = 1 → oscRdyOf m u.clkCr.r = 1)
      ∧ (pllRdyOf m s.regs.clkCr.r = 1 → pllRdyOf m u.clkCr.r = 1)
      ∧ (pllRdyOf m u.clkCr.r = 1 → pllRdyOf m s.regs.clkCr.r = 1 ∨ pllOnOf m s.regs.clkCr.r = 1)
      ∧ (swsOf m u.clkCfgr.r = swsOf m s.regs.clkCfgr.r
          ∨ (swsOf m u.clkCfgr.r = swOf m s.regs.clkCfgr.r ∧ selectable m s.regs (swOf m s.regs.clkCfgr.r) = true))
      ∧ ∀ n, (u.get n).w &&& ~~~ roMask m n = (s.regs.get n).w &&& ~~~ roMask m n

/-- R54, R50, R61, R55, U20: the register port: refused while a command runs unless interleaving is allowed, refused when it is not
an aligned 32-bit access or not at a register; a read changes nothing. That the port is refused while busy, that an access wider
than 32 bits is refused as a narrower one is, and that the access at no register is refused rather than let pass without effect,
are the model's readings (notes/assumptions/14.md, notes/assumptions/11.md). -/
def Obligations.PortTakesAlignedWordsOnly : Prop :=
  ∀ (s : State) (a : PortAccess), mapWf s.params →
    let m := s.params.regmap
    (s.busy = true → s.params.allowInterleave = false → portStep a s = .refused .portWhileBusy)
    ∧ (s.busy = false ∨ s.params.allowInterleave = true →
      (a.bytes ≠ 4 → portStep a s = .refused .portWidth)
      ∧ (a.bytes = 4 → a.addr.toNat % 4 ≠ 0 → portStep a s = .refused .portMisaligned)
      ∧ (a.bytes = 4 → a.addr.toNat % 4 = 0 → (∀ n, regAddr m n ≠ a.addr) → portStep a s = .refused .portNoRegister)
      ∧ (∀ n, a.bytes = 4 → a.addr = regAddr m n → a.write = none → portStep a s = .next s)
      ∧ ∀ n v, a.bytes = 4 → a.addr = regAddr m n → a.write = some v →
          portStep a s = .next (memWrite .port n v s))

/-- R68, R32: the test binding is plain storage: a write reads back at once in every bit and meets no hazard; the plant has no step
there; `Force` is refused in production. In the test binding `Force(F, v)` sets any field, `GPIOEN[k]` and `USARTEN[id]` too, to
`v`, as written and as read; every other bit of its register and every other register keeps what it holds, and nothing but the
register file changes. A write is recorded as in production (R33) and changes nothing else. That a write stores the read-only bits too, that the low bits of `v` are taken, and that a `USARTEN` of no
table entry changes nothing, are the model's choices (notes/assumptions/12.md), and so is that `Force` may fall inside a running
command (notes/assumptions/30.md). -/
def Obligations.TestBindingIsPlainStorage : Prop :=
  (∀ (who : Writer) (n : RegName) (v : Word) (s : State), s.params.binding = .test →
    (memWrite who n v s).regs.get n = ⟨v, v⟩ ∧ (∀ k, k ≠ n → (memWrite who n v s).regs.get k = s.regs.get k)
    ∧ (memWrite who n v s).fault = s.fault
    ∧ (who = .engine → memWrite who n v s
        = { s with regs := (memWrite who n v s).regs, wlog := s.wlog ++ [(regAddr s.params.regmap n, v)] })
    ∧ (who = .port → memWrite who n v s
        = { s with regs := (memWrite who n v s).regs, plog := s.plog ++ [(regAddr s.params.regmap n, v)] })
    ∧ ∀ q, plantStep q s = s)
  ∧ (∀ (q : FieldName) (v : Word) (s : State), s.params.binding = .production →
    forceStep q v s = .refused .forceInProduction)
  ∧ ∀ (q : FieldName) (v : Word) (s : State), s.params.binding = .test → mapWf s.params →
      (∀ pl, q.place s.params = some pl →
        ∃ t, forceStep q v s = .next t ∧ t = { s with regs := t.regs }
          ∧ (t.regs.get pl.reg).r.extractLsb' pl.lo pl.width = v.setWidth pl.width
          ∧ (t.regs.get pl.reg).w.extractLsb' pl.lo pl.width = v.setWidth pl.width
          ∧ (∀ i, ¬ (pl.lo ≤ i ∧ i < pl.lo + pl.width) →
              (t.regs.get pl.reg).r.getLsbD i = (s.regs.get pl.reg).r.getLsbD i
              ∧ (t.regs.get pl.reg).w.getLsbD i = (s.regs.get pl.reg).w.getLsbD i)
          ∧ ∀ k, k ≠ pl.reg → t.regs.get k = s.regs.get k)
      ∧ (q.place s.params = none → forceStep q v s = .next s)
      ∧ (∀ f : FixedField, FieldName.place s.params (.fixed f)
          = some ⟨f.reg s.params.regmap, f.lo s.params.regmap, f.width⟩)
      ∧ (∀ k, FieldName.place s.params (.gpioen k) = some ⟨.gateAhb1, s.params.regmap.gpioen.get k, 1⟩)
      ∧ ∀ id, (∀ e ∈ s.params.usart, e.id ≠ id) ↔ FieldName.place s.params (.usarten id) = none

/-- R51: little-endian: the byte at `a + i` of a register at `a` holds bits `8i+7 : 8i` of its word. R50: nothing but the eight
registers is in the register space; that an address in none of them holds no byte is the model's reading of it
(notes/assumptions/23.md). -/
def Obligations.RegisterBytesAreLittleEndian : Prop :=
  ∀ (p : Params) (f : RegFile), mapWf p →
    (∀ (n : RegName) (i : Nat), i < 4 →
      f.byteAt p.regmap (regAddr p.regmap n + BitVec.ofNat 32 i) = some ((f.get n).r.extractLsb' (8 * i) 8))
    ∧ ∀ a : Word, (∀ n, a.toNat < (regAddr p.regmap n).toNat ∨ (regAddr p.regmap n).toNat + 4 ≤ a.toNat) →
      f.byteAt p.regmap a = none

/-! ## Invariants -/

/-- R30, R31, R230, R231: the invariant of the machine in the production binding: the map is well-formed, a locked PLL is on, a PLL in use is locked, nothing but
a settling field is pending, and `Safe` holds. Every step of every agent keeps it. -/
def Obligations.EveryStepKeepsTheInvariant : Prop :=
  ∀ s t : State, s.Inv → step s = .next t → t.Inv

/-- The reset state, of the default parameters, has the invariant. The defaults are the family's (notes/assumptions/1.md,
notes/assumptions/2.md, notes/assumptions/3.md). -/
def Obligations.ResetHasTheInvariant : Prop := State.reset.Inv

/-- R198, R12, R15: while `BUSY = 1` the engine always has a step that leads to a response or a fault, and while `BUSY = 0` nothing is
left to do. Every step keeps it, in both bindings. -/
def Obligations.EveryStepKeepsTheEngineSound : Prop :=
  ∀ s t : State, s.EngineOk → step s = .next t → t.EngineOk

/-- The reset state has it, whatever the parameters: idle (R40), and with no micro-step left, which is the model's choice, since the spec
leaves `PH` unspecified at reset (notes/assumptions/4.md). -/
def Obligations.ResetHasASoundEngine : Prop := ∀ p : Params, (State.resetWith p).EngineOk

/-- R5, R17: no step of any agent changes a parameter; the canonical form of the register file is kept. -/
def Obligations.EveryStepKeepsTheParameters : Prop :=
  ∀ s t : State, step s = .next t →
    t.params = s.params ∧ (s.regs.wf s.params → t.regs.wf t.params)
end

