-- ==== Sys2Proof/Laws/State.lean ====
section
/-! SUPPORT. One lemma for each field of the state and each update of the shared operations, so that no later proof
unfolds a record update. -/

namespace Sys2Proof.Machine

/-! ## The register file -/

@[simp] theorem RegFile.get_set_same (f : RegFile) (n : RegName) (x : Reg) : (f.set n x).get n = x := by
  cases n <;> rfl

theorem RegFile.get_set_of_ne (f : RegFile) {n k : RegName} (x : Reg) (h : k ≠ n) :
    (f.set n x).get k = f.get k := by
  cases n <;> cases k <;> first | rfl | exact absurd rfl h

theorem RegFile.get_set (f : RegFile) (n k : RegName) (x : Reg) :
    (f.set n x).get k = if k = n then x else f.get k := by
  split
  · next h => subst h; simp
  · next h => exact f.get_set_of_ne x h

@[simp] theorem RegFile.set_get (f : RegFile) (n : RegName) : f.set n (f.get n) = f := by
  cases n <;> rfl

theorem RegFile.pwrCr_eq (f : RegFile) : f.pwrCr = f.get .pwrCr := rfl
theorem RegFile.flashAcr_eq (f : RegFile) : f.flashAcr = f.get .flashAcr := rfl
theorem RegFile.clkCr_eq (f : RegFile) : f.clkCr = f.get .clkCr := rfl
theorem RegFile.pllCfgr_eq (f : RegFile) : f.pllCfgr = f.get .pllCfgr := rfl
theorem RegFile.clkCfgr_eq (f : RegFile) : f.clkCfgr = f.get .clkCfgr := rfl
theorem RegFile.gateAhb1_eq (f : RegFile) : f.gateAhb1 = f.get .gateAhb1 := rfl
theorem RegFile.gateApb1_eq (f : RegFile) : f.gateApb1 = f.get .gateApb1 := rfl
theorem RegFile.gateApb2_eq (f : RegFile) : f.gateApb2 = f.get .gateApb2 := rfl

/-- Two register files are the same when every register is. -/
theorem RegFile.ext_get {f g : RegFile} (h : ∀ n, f.get n = g.get n) : f = g := by
  cases f; cases g
  have h1 := h .pwrCr; have h2 := h .flashAcr; have h3 := h .clkCr; have h4 := h .pllCfgr
  have h5 := h .clkCfgr; have h6 := h .gateAhb1; have h7 := h .gateApb1; have h8 := h .gateApb2
  simp only [RegFile.get] at h1 h2 h3 h4 h5 h6 h7 h8
  simp [*]

theorem RegFile.get_setField (m : Regmap) (q : FixedField) (v : Word) (f : RegFile) (n : RegName) :
    (f.setField m q v).get n
      = if n = q.reg m then (f.get n).force (q.mask m) (q.put m v) else f.get n := by
  unfold RegFile.setField
  rw [RegFile.get_set]
  split
  · next h => subst h; rfl
  · rfl

/-! ## The response -/

@[simp] theorem respond_params (e : Status) (v : Word) (s : State) : (respond e v s).params = s.params := rfl
@[simp] theorem respond_op (e : Status) (v : Word) (s : State) : (respond e v s).op = s.op := rfl
@[simp] theorem respond_a0 (e : Status) (v : Word) (s : State) : (respond e v s).a0 = s.a0 := rfl
@[simp] theorem respond_a1 (e : Status) (v : Word) (s : State) : (respond e v s).a1 = s.a1 := rfl
@[simp] theorem respond_st (e : Status) (v : Word) (s : State) : (respond e v s).st = e := rfl
@[simp] theorem respond_rv (e : Status) (v : Word) (s : State) : (respond e v s).rv = v := rfl
@[simp] theorem respond_busy (e : Status) (v : Word) (s : State) : (respond e v s).busy = false := rfl
@[simp] theorem respond_seq (e : Status) (v : Word) (s : State) : (respond e v s).seq = s.seq := rfl
@[simp] theorem respond_ph (e : Status) (v : Word) (s : State) : (respond e v s).ph = [] := rfl
@[simp] theorem respond_t (e : Status) (v : Word) (s : State) : (respond e v s).t = 0 := rfl
@[simp] theorem respond_val (e : Status) (v : Word) (s : State) : (respond e v s).val = 0 := rfl
@[simp] theorem respond_regs (e : Status) (v : Word) (s : State) : (respond e v s).regs = s.regs := rfl
@[simp] theorem respond_wlog (e : Status) (v : Word) (s : State) : (respond e v s).wlog = s.wlog := rfl
@[simp] theorem respond_plog (e : Status) (v : Word) (s : State) : (respond e v s).plog = s.plog := rfl
@[simp] theorem respond_fault (e : Status) (v : Word) (s : State) : (respond e v s).fault = s.fault := rfl
@[simp] theorem respond_requests (e : Status) (v : Word) (s : State) : (respond e v s).requests = s.requests := rfl
@[simp] theorem respond_agenda (e : Status) (v : Word) (s : State) : (respond e v s).agenda = s.agenda := rfl

/-! ## The error response -/

@[simp] theorem raiseError_params (e : Status) (s : State) : (raiseError e s).params = s.params := rfl
@[simp] theorem raiseError_op (e : Status) (s : State) : (raiseError e s).op = s.op := rfl
@[simp] theorem raiseError_a0 (e : Status) (s : State) : (raiseError e s).a0 = s.a0 := rfl
@[simp] theorem raiseError_a1 (e : Status) (s : State) : (raiseError e s).a1 = s.a1 := rfl
@[simp] theorem raiseError_st (e : Status) (s : State) : (raiseError e s).st = e := rfl
@[simp] theorem raiseError_rv (e : Status) (s : State) : (raiseError e s).rv = 0 := rfl
@[simp] theorem raiseError_busy (e : Status) (s : State) : (raiseError e s).busy = false := rfl
@[simp] theorem raiseError_seq (e : Status) (s : State) : (raiseError e s).seq = s.seq := rfl
@[simp] theorem raiseError_ph (e : Status) (s : State) : (raiseError e s).ph = [] := rfl
@[simp] theorem raiseError_t (e : Status) (s : State) : (raiseError e s).t = 0 := rfl
@[simp] theorem raiseError_val (e : Status) (s : State) : (raiseError e s).val = 0 := rfl
@[simp] theorem raiseError_regs (e : Status) (s : State) : (raiseError e s).regs = s.regs := rfl
@[simp] theorem raiseError_wlog (e : Status) (s : State) : (raiseError e s).wlog = s.wlog := rfl
@[simp] theorem raiseError_plog (e : Status) (s : State) : (raiseError e s).plog = s.plog := rfl
@[simp] theorem raiseError_fault (e : Status) (s : State) : (raiseError e s).fault = s.fault := rfl
@[simp] theorem raiseError_requests (e : Status) (s : State) : (raiseError e s).requests = s.requests := rfl
@[simp] theorem raiseError_agenda (e : Status) (s : State) : (raiseError e s).agenda = s.agenda := rfl

/-! ## Recording a fault -/

@[simp] theorem recordFault_params (f : Fault) (s : State) : (recordFault f s).params = s.params := rfl
@[simp] theorem recordFault_op (f : Fault) (s : State) : (recordFault f s).op = s.op := rfl
@[simp] theorem recordFault_a0 (f : Fault) (s : State) : (recordFault f s).a0 = s.a0 := rfl
@[simp] theorem recordFault_a1 (f : Fault) (s : State) : (recordFault f s).a1 = s.a1 := rfl
@[simp] theorem recordFault_st (f : Fault) (s : State) : (recordFault f s).st = s.st := rfl
@[simp] theorem recordFault_rv (f : Fault) (s : State) : (recordFault f s).rv = s.rv := rfl
@[simp] theorem recordFault_busy (f : Fault) (s : State) : (recordFault f s).busy = s.busy := rfl
@[simp] theorem recordFault_seq (f : Fault) (s : State) : (recordFault f s).seq = s.seq := rfl
@[simp] theorem recordFault_ph (f : Fault) (s : State) : (recordFault f s).ph = s.ph := rfl
@[simp] theorem recordFault_t (f : Fault) (s : State) : (recordFault f s).t = s.t := rfl
@[simp] theorem recordFault_val (f : Fault) (s : State) : (recordFault f s).val = s.val := rfl
@[simp] theorem recordFault_regs (f : Fault) (s : State) : (recordFault f s).regs = s.regs := rfl
@[simp] theorem recordFault_wlog (f : Fault) (s : State) : (recordFault f s).wlog = s.wlog := rfl
@[simp] theorem recordFault_plog (f : Fault) (s : State) : (recordFault f s).plog = s.plog := rfl
@[simp] theorem recordFault_fault (f : Fault) (s : State) : (recordFault f s).fault = some f := rfl
@[simp] theorem recordFault_requests (f : Fault) (s : State) : (recordFault f s).requests = s.requests := rfl
@[simp] theorem recordFault_agenda (f : Fault) (s : State) : (recordFault f s).agenda = s.agenda := rfl

/-! ## Command accept -/

@[simp] theorem accept_params (op : Opcode) (a1 a0 : Word) (body : List Micro) (s : State) : (accept op a1 a0 body s).params = s.params := rfl
@[simp] theorem accept_op (op : Opcode) (a1 a0 : Word) (body : List Micro) (s : State) : (accept op a1 a0 body s).op = op := rfl
@[simp] theorem accept_a0 (op : Opcode) (a1 a0 : Word) (body : List Micro) (s : State) : (accept op a1 a0 body s).a0 = a0 := rfl
@[simp] theorem accept_a1 (op : Opcode) (a1 a0 : Word) (body : List Micro) (s : State) : (accept op a1 a0 body s).a1 = a1 := rfl
@[simp] theorem accept_st (op : Opcode) (a1 a0 : Word) (body : List Micro) (s : State) : (accept op a1 a0 body s).st = s.st := rfl
@[simp] theorem accept_rv (op : Opcode) (a1 a0 : Word) (body : List Micro) (s : State) : (accept op a1 a0 body s).rv = s.rv := rfl
@[simp] theorem accept_busy (op : Opcode) (a1 a0 : Word) (body : List Micro) (s : State) : (accept op a1 a0 body s).busy = true := rfl
@[simp] theorem accept_seq (op : Opcode) (a1 a0 : Word) (body : List Micro) (s : State) : (accept op a1 a0 body s).seq = s.seq := rfl
@[simp] theorem accept_ph (op : Opcode) (a1 a0 : Word) (body : List Micro) (s : State) : (accept op a1 a0 body s).ph = body := rfl
@[simp] theorem accept_t (op : Opcode) (a1 a0 : Word) (body : List Micro) (s : State) : (accept op a1 a0 body s).t = 0 := rfl
@[simp] theorem accept_val (op : Opcode) (a1 a0 : Word) (body : List Micro) (s : State) : (accept op a1 a0 body s).val = 0 := rfl
@[simp] theorem accept_regs (op : Opcode) (a1 a0 : Word) (body : List Micro) (s : State) : (accept op a1 a0 body s).regs = s.regs := rfl
@[simp] theorem accept_wlog (op : Opcode) (a1 a0 : Word) (body : List Micro) (s : State) : (accept op a1 a0 body s).wlog = s.wlog := rfl
@[simp] theorem accept_plog (op : Opcode) (a1 a0 : Word) (body : List Micro) (s : State) : (accept op a1 a0 body s).plog = s.plog := rfl
@[simp] theorem accept_fault (op : Opcode) (a1 a0 : Word) (body : List Micro) (s : State) : (accept op a1 a0 body s).fault = s.fault := rfl
@[simp] theorem accept_requests (op : Opcode) (a1 a0 : Word) (body : List Micro) (s : State) : (accept op a1 a0 body s).requests = s.requests := rfl
@[simp] theorem accept_agenda (op : Opcode) (a1 a0 : Word) (body : List Micro) (s : State) : (accept op a1 a0 body s).agenda = s.agenda := rfl

/-! ## Reset -/

@[simp] theorem resetStep_params (s : State) : (resetStep s).params = s.params := rfl
@[simp] theorem resetStep_op (s : State) : (resetStep s).op = s.params.profile.op := rfl
@[simp] theorem resetStep_a0 (s : State) : (resetStep s).a0 = s.params.profile.a0 := rfl
@[simp] theorem resetStep_a1 (s : State) : (resetStep s).a1 = s.params.profile.a1 := rfl
@[simp] theorem resetStep_st (s : State) : (resetStep s).st = s.params.profile.st := rfl
@[simp] theorem resetStep_rv (s : State) : (resetStep s).rv = s.params.profile.rv := rfl
@[simp] theorem resetStep_busy (s : State) : (resetStep s).busy = false := rfl
@[simp] theorem resetStep_seq (s : State) : (resetStep s).seq = .uninitialized := rfl
@[simp] theorem resetStep_ph (s : State) : (resetStep s).ph = [] := rfl
@[simp] theorem resetStep_t (s : State) : (resetStep s).t = 0 := rfl
@[simp] theorem resetStep_val (s : State) : (resetStep s).val = 0 := rfl
@[simp] theorem resetStep_regs (s : State) : (resetStep s).regs = .ofProfile s.params.profile := rfl
@[simp] theorem resetStep_wlog (s : State) : (resetStep s).wlog = [] := rfl
@[simp] theorem resetStep_plog (s : State) : (resetStep s).plog = [] := rfl
@[simp] theorem resetStep_fault (s : State) : (resetStep s).fault = none := rfl
@[simp] theorem resetStep_requests (s : State) : (resetStep s).requests = s.requests := rfl
@[simp] theorem resetStep_agenda (s : State) : (resetStep s).agenda = s.agenda := rfl

/-! ## The write lists -/

@[simp] theorem logWrite_params (who : Writer) (n : RegName) (v : Word) (s : State) : (logWrite who n v s).params = s.params := by cases who <;> rfl
@[simp] theorem logWrite_op (who : Writer) (n : RegName) (v : Word) (s : State) : (logWrite who n v s).op = s.op := by cases who <;> rfl
@[simp] theorem logWrite_a0 (who : Writer) (n : RegName) (v : Word) (s : State) : (logWrite who n v s).a0 = s.a0 := by cases who <;> rfl
@[simp] theorem logWrite_a1 (who : Writer) (n : RegName) (v : Word) (s : State) : (logWrite who n v s).a1 = s.a1 := by cases who <;> rfl
@[simp] theorem logWrite_st (who : Writer) (n : RegName) (v : Word) (s : State) : (logWrite who n v s).st = s.st := by cases who <;> rfl
@[simp] theorem logWrite_rv (who : Writer) (n : RegName) (v : Word) (s : State) : (logWrite who n v s).rv = s.rv := by cases who <;> rfl
@[simp] theorem logWrite_busy (who : Writer) (n : RegName) (v : Word) (s : State) : (logWrite who n v s).busy = s.busy := by cases who <;> rfl
@[simp] theorem logWrite_seq (who : Writer) (n : RegName) (v : Word) (s : State) : (logWrite who n v s).seq = s.seq := by cases who <;> rfl
@[simp] theorem logWrite_ph (who : Writer) (n : RegName) (v : Word) (s : State) : (logWrite who n v s).ph = s.ph := by cases who <;> rfl
@[simp] theorem logWrite_t (who : Writer) (n : RegName) (v : Word) (s : State) : (logWrite who n v s).t = s.t := by cases who <;> rfl
@[simp] theorem logWrite_val (who : Writer) (n : RegName) (v : Word) (s : State) : (logWrite who n v s).val = s.val := by cases who <;> rfl
@[simp] theorem logWrite_regs (who : Writer) (n : RegName) (v : Word) (s : State) : (logWrite who n v s).regs = s.regs := by cases who <;> rfl
@[simp] theorem logWrite_fault (who : Writer) (n : RegName) (v : Word) (s : State) : (logWrite who n v s).fault = s.fault := by cases who <;> rfl
@[simp] theorem logWrite_requests (who : Writer) (n : RegName) (v : Word) (s : State) : (logWrite who n v s).requests = s.requests := by cases who <;> rfl
@[simp] theorem logWrite_agenda (who : Writer) (n : RegName) (v : Word) (s : State) : (logWrite who n v s).agenda = s.agenda := by cases who <;> rfl
@[simp] theorem logWrite_engine_wlog (n : RegName) (v : Word) (s : State) : (logWrite .engine n v s).wlog = s.wlog ++ [(regAddr s.params.regmap n, v)] := rfl
@[simp] theorem logWrite_engine_plog (n : RegName) (v : Word) (s : State) : (logWrite .engine n v s).plog = s.plog := rfl
@[simp] theorem logWrite_port_wlog (n : RegName) (v : Word) (s : State) : (logWrite .port n v s).wlog = s.wlog := rfl
@[simp] theorem logWrite_port_plog (n : RegName) (v : Word) (s : State) : (logWrite .port n v s).plog = s.plog ++ [(regAddr s.params.regmap n, v)] := rfl

end Sys2Proof.Machine
end

