-- ==== Sys2Proof/Laws/Word.lean ====
section
/-! SUPPORT. Small lemmas of the bit-field helpers (Sys2Proof/Machine/Fields.lean). -/

namespace Sys2Proof.Machine

theorem getLsbD_merge (m v x : Word) (i : Nat) :
    (merge m v x).getLsbD i = if m.getLsbD i then v.getLsbD i else x.getLsbD i := by
  unfold merge
  simp only [BitVec.getLsbD_or, BitVec.getLsbD_and, BitVec.getLsbD_not]
  by_cases hi : i < 32
  · cases h : m.getLsbD i <;> simp [hi]
  · have hm : m.getLsbD i = false := BitVec.getLsbD_of_ge m i (by omega)
    have hx : x.getLsbD i = false := BitVec.getLsbD_of_ge x i (by omega)
    simp [hm, hx]

/-- Inside the mask a merged word holds the new bits. -/
theorem merge_and_mask (m v x : Word) : merge m v x &&& m = v &&& m := by
  apply BitVec.eq_of_getLsbD_eq
  intro i _
  simp only [BitVec.getLsbD_and, getLsbD_merge]
  cases m.getLsbD i <;> simp

/-- Outside the mask it holds the old ones. -/
theorem merge_and_not_mask (m v x : Word) : merge m v x &&& ~~~ m = x &&& ~~~ m := by
  apply BitVec.eq_of_getLsbD_eq
  intro i hi
  simp only [BitVec.getLsbD_and, BitVec.getLsbD_not, getLsbD_merge]
  cases m.getLsbD i <;> simp

/-- A part of the word the mask does not touch is unchanged. -/
theorem merge_and_of_disjoint (m v x k : Word) (h : m &&& k = 0) : merge m v x &&& k = x &&& k := by
  apply BitVec.eq_of_getLsbD_eq
  intro i _
  have hk : (m &&& k).getLsbD i = false := by simp [h]
  simp only [BitVec.getLsbD_and] at hk
  simp only [BitVec.getLsbD_and, getLsbD_merge]
  cases hm : m.getLsbD i <;> simp_all

/-- A part of the word inside the mask is the new word's. -/
theorem merge_and_of_subset (m v x k : Word) (h : k &&& ~~~ m = 0) : merge m v x &&& k = v &&& k := by
  apply BitVec.eq_of_getLsbD_eq
  intro i hi
  have hk : (k &&& ~~~ m).getLsbD i = false := by simp [h]
  simp only [BitVec.getLsbD_and, BitVec.getLsbD_not, hi, decide_true, Bool.true_and] at hk
  simp only [BitVec.getLsbD_and, getLsbD_merge]
  cases hm : m.getLsbD i <;> simp_all

@[simp] theorem merge_self (m x : Word) : merge m x x = x := by
  apply BitVec.eq_of_getLsbD_eq
  intro i _
  simp [getLsbD_merge]

@[simp] theorem merge_zero (v x : Word) : merge 0 v x = x := by
  apply BitVec.eq_of_getLsbD_eq
  intro i _
  simp [getLsbD_merge]

/-- Merging twice with the same mask keeps the last value. -/
@[simp] theorem merge_merge (m v v' x : Word) : merge m v (merge m v' x) = merge m v x := by
  apply BitVec.eq_of_getLsbD_eq
  intro i _
  simp only [getLsbD_merge]
  split <;> simp

/-! ## Masks, bit by bit -/

theorem getLsbD_onesAt (lo width i : Nat) :
    (onesAt lo width).getLsbD i = (decide (i < 32) && decide (lo ≤ i) && decide (i < lo + width)) := by
  unfold onesAt
  simp only [BitVec.getLsbD_shiftLeft, BitVec.getLsbD_ofNat, Nat.testBit_two_pow_sub_one]
  by_cases h1 : i < 32 <;> by_cases h2 : lo ≤ i <;> by_cases h3 : i < lo + width <;>
    simp [h1, h2, h3] <;> omega

/-- A bit of a list of places is a bit of one of them that lies in the register. -/
theorem getLsbD_placesMask (ps : List Place) (n : RegName) (i : Nat) :
    (placesMask ps n).getLsbD i = true ↔
      ∃ pl ∈ ps, pl.reg = n ∧ i < 32 ∧ pl.lo ≤ i ∧ i < pl.lo + pl.width := by
  induction ps with
  | nil => simp [placesMask]
  | cons pl ps ih =>
    unfold placesMask at ih ⊢
    simp only [List.foldr_cons, List.mem_cons, exists_eq_or_imp]
    split
    · next h =>
      simp only [BitVec.getLsbD_or, Bool.or_eq_true, ih, h, true_and]
      simp only [Place.mask, getLsbD_onesAt, Bool.and_eq_true, decide_eq_true_eq, and_assoc]
    · next h => simp only [ih, h, false_and, false_or]

theorem FixedField.getLsbD_mask (m : Regmap) (f : FixedField) (i : Nat) :
    (f.mask m).getLsbD i = (decide (i < 32) && decide (f.lo m ≤ i) && decide (i < f.lo m + f.width)) :=
  getLsbD_onesAt _ _ _

theorem FixedField.getLsbD_put (m : Regmap) (f : FixedField) (v : Word) (i : Nat) :
    (f.put m v).getLsbD i = (decide (i < 32) && !decide (i < f.lo m) && v.getLsbD (i - f.lo m)) := by
  unfold FixedField.put
  simp [BitVec.getLsbD_shiftLeft]

theorem FixedField.getLsbD_get (m : Regmap) (f : FixedField) (v : Word) (i : Nat) :
    (f.get m v).getLsbD i = (decide (i < f.width) && v.getLsbD (f.lo m + i)) := by
  unfold FixedField.get
  simp [BitVec.getLsbD_extractLsb']

/-- Two words whose bits agree at every place of a field have the same field. -/
theorem FixedField.get_congr_bits (m : Regmap) (f : FixedField) {x y : Word}
    (h : ∀ i, i < 32 → f.lo m ≤ i → i < f.lo m + f.width → x.getLsbD i = y.getLsbD i) :
    f.get m x = f.get m y := by
  apply BitVec.eq_of_getLsbD_eq
  intro i hi
  rw [f.getLsbD_get, f.getLsbD_get]
  by_cases h32 : f.lo m + i < 32
  · rw [h _ h32 (by omega) (by omega)]
  · rw [BitVec.getLsbD_of_ge x _ (by omega), BitVec.getLsbD_of_ge y _ (by omega)]

/-- A field is read off bits that its mask covers: equal masked words have equal fields. -/
theorem FixedField.get_congr (m : Regmap) (f : FixedField) {x y : Word}
    (h : x &&& f.mask m = y &&& f.mask m) : f.get m x = f.get m y := by
  refine f.get_congr_bits m fun i h32 hlo hhi => ?_
  have hb : (x &&& f.mask m).getLsbD i = (y &&& f.mask m).getLsbD i := by rw [h]
  simpa only [BitVec.getLsbD_and, f.getLsbD_mask, h32, hlo, hhi, decide_true, Bool.and_true] using hb

/-- A field keeps its value where other bits are merged in. -/
theorem FixedField.get_merge_of_disjoint (m : Regmap) (f : FixedField) {k v x : Word} (h : k &&& f.mask m = 0) :
    f.get m (merge k v x) = f.get m x :=
  f.get_congr m (merge_and_of_disjoint k v x _ h)

/-- A field that fits reads the value merged into it, cut to its width. -/
theorem FixedField.get_merge_put (m : Regmap) (f : FixedField) {v x : Word} (h : f.lo m + f.width ≤ 32) :
    f.get m (merge (f.mask m) (f.put m v) x) = v.setWidth f.width := by
  apply BitVec.eq_of_getLsbD_eq
  intro i hi
  rw [f.getLsbD_get, getLsbD_merge, f.getLsbD_mask, f.getLsbD_put, BitVec.getLsbD_setWidth]
  have h1 : f.lo m + i < 32 := by omega
  have h2 : f.lo m + i < f.lo m + f.width := by omega
  simp [h1, h2, hi]

/-- What a poll of a field compares is the field (R58). -/
theorem FixedField.and_mask_eq_put_iff (m : Regmap) (f : FixedField) {x v : Word} (h : f.lo m + f.width ≤ 32)
    (hv : v.toNat < 2 ^ f.width) : x &&& f.mask m = f.put m v ↔ f.get m x = v.setWidth f.width := by
  constructor
  · intro e
    apply BitVec.eq_of_getLsbD_eq
    intro i hi
    have hb : (x &&& f.mask m).getLsbD (f.lo m + i) = (f.put m v).getLsbD (f.lo m + i) := by rw [e]
    rw [BitVec.getLsbD_and, f.getLsbD_mask, f.getLsbD_put] at hb
    have h1 : f.lo m + i < 32 := by omega
    have h2 : f.lo m + i < f.lo m + f.width := by omega
    rw [f.getLsbD_get, BitVec.getLsbD_setWidth]
    simpa [h1, h2, hi] using hb
  · intro e
    apply BitVec.eq_of_getLsbD_eq
    intro i hi
    rw [BitVec.getLsbD_and, f.getLsbD_mask, f.getLsbD_put]
    by_cases hlo : f.lo m ≤ i
    · by_cases hhi : i < f.lo m + f.width
      · have hb : (f.get m x).getLsbD (i - f.lo m) = (v.setWidth f.width).getLsbD (i - f.lo m) := by rw [e]
        rw [f.getLsbD_get, BitVec.getLsbD_setWidth] at hb
        have h1 : i - f.lo m < f.width := by omega
        have h2 : f.lo m + (i - f.lo m) = i := by omega
        have h3 : ¬ i < f.lo m := by omega
        simp only [h1, h2, decide_true, Bool.true_and] at hb
        simp only [hi, hlo, hhi, h3, hb, decide_true, decide_false, Bool.and_true, Bool.not_false, Bool.true_and]
      · have h1 : f.width ≤ i - f.lo m := by omega
        have h2 : v.getLsbD (i - f.lo m) = false := by
          rw [BitVec.getLsbD, Nat.testBit_lt_two_pow]
          exact lt_of_lt_of_le hv (Nat.pow_le_pow_right (by decide) h1)
        simp [hhi, h2]
    · have h1 : i < f.lo m := by omega
      simp [hlo, h1]

/-! ## What a well-formed map gives -/

theorem fixedFields_mem (f : FixedField) : f ∈ fixedFields := by cases f <;> decide

theorem mapWf_fits {p : Params} (h : mapWf p) (f : FixedField) : f.lo p.regmap + f.width ≤ 32 :=
  h.2.2.1 (f.place p.regmap) (List.mem_append_left _ (List.mem_map_of_mem (fixedFields_mem f)))

theorem mapWf_fits_gpio {p : Params} (h : mapWf p) (k : Fin 8) : p.regmap.gpioen.get k < 32 :=
  h.2.2.1 (gpioPlace p.regmap k) (List.mem_append_right _ (List.mem_map_of_mem (List.mem_finRange k)))

theorem apart_symm {a b : Place} (h : a.Apart b) : b.Apart a := by
  rcases h with h | h | h
  · exact .inl (Ne.symm h)
  · exact .inr (.inr h)
  · exact .inr (.inl h)

/-- No two fields share a bit. -/
theorem mapWf_apart {p : Params} (h : mapWf p) {f g : FixedField} (hne : f ≠ g) :
    (f.place p.regmap).Apart (g.place p.regmap) := by
  have hp := (List.pairwise_append.1 h.2.2.2.1).1
  have hsymm : Std.Symm fun a b : FixedField => (a.place p.regmap).Apart (b.place p.regmap) :=
    ⟨fun _ _ => apart_symm⟩
  rw [List.pairwise_map] at hp
  exact hp.forall (fixedFields_mem f) (fixedFields_mem g) hne

theorem mapWf_apart_gpio {p : Params} (h : mapWf p) (f : FixedField) (k : Fin 8) :
    (f.place p.regmap).Apart (gpioPlace p.regmap k) :=
  (List.pairwise_append.1 h.2.2.2.1).2.2 _ (List.mem_map_of_mem (fixedFields_mem f)) _
    (List.mem_map_of_mem (List.mem_finRange k))

theorem mapWf_apart_gpios {p : Params} (h : mapWf p) {j k : Fin 8} (hne : j ≠ k) :
    (gpioPlace p.regmap j).Apart (gpioPlace p.regmap k) := by
  have hp := (List.pairwise_append.1 h.2.2.2.1).2.1
  have hsymm : Std.Symm fun a b : Fin 8 => (gpioPlace p.regmap a).Apart (gpioPlace p.regmap b) :=
    ⟨fun _ _ => apart_symm⟩
  unfold gpioPlaces at hp
  rw [List.pairwise_map] at hp
  exact hp.forall (List.mem_finRange j) (List.mem_finRange k) hne

theorem mapWf_apart_usart {p : Params} (h : mapWf p) {e : UsartEntry} (he : e ∈ p.usart) (f : FixedField) :
    (usartPlace e).Apart (f.place p.regmap) :=
  h.2.2.2.2 e he _ (List.mem_append_left _ (List.mem_map_of_mem (fixedFields_mem f)))

/-- Places apart in one register have masks apart. -/
theorem mask_and_of_apart {a b : Place} (h : a.Apart b) (hr : a.reg = b.reg) : a.mask &&& b.mask = 0 := by
  apply BitVec.eq_of_getLsbD_eq
  intro i _
  by_contra hc
  have ht : (a.mask &&& b.mask).getLsbD i = true := by simpa using hc
  simp only [BitVec.getLsbD_and, Place.mask, getLsbD_onesAt, Bool.and_eq_true, decide_eq_true_eq] at ht
  rcases h with h | h | h
  · exact h hr
  all_goals omega

theorem mapWf_masks {p : Params} (h : mapWf p) {f g : FixedField} (hne : f ≠ g)
    (hr : f.reg p.regmap = g.reg p.regmap) : f.mask p.regmap &&& g.mask p.regmap = 0 :=
  mask_and_of_apart (mapWf_apart h hne) hr

/-- The bits of a field belong to a list of fields only where the field is listed. -/
theorem mapWf_listed {p : Params} (h : mapWf p) (f : FixedField) (l : List FixedField) {i : Nat} (h32 : i < 32)
    (hlo : f.lo p.regmap ≤ i) (hhi : i < f.lo p.regmap + f.width) :
    (placesMask (l.map (FixedField.place p.regmap)) (f.reg p.regmap)).getLsbD i = decide (f ∈ l) := by
  rw [Bool.eq_iff_iff, getLsbD_placesMask, decide_eq_true_iff]
  constructor
  · rintro ⟨pl, hpl, hr, _, h1, h2⟩
    obtain ⟨g, hg, rfl⟩ := List.mem_map.1 hpl
    by_cases e : f = g
    · exact e ▸ hg
    · exfalso
      rcases mapWf_apart h e with h3 | h3 | h3
      · exact h3 hr.symm
      all_goals simp only [FixedField.place] at h1 h2 h3; omega
  · intro hf
    exact ⟨_, List.mem_map_of_mem hf, rfl, h32, hlo, hhi⟩

theorem mapWf_roMask {p : Params} (h : mapWf p) (f : FixedField) {i : Nat} (h32 : i < 32)
    (hlo : f.lo p.regmap ≤ i) (hhi : i < f.lo p.regmap + f.width) :
    (roMask p.regmap (f.reg p.regmap)).getLsbD i = decide (f ∈ [FixedField.oscRdy, .pllRdy, .sws]) :=
  mapWf_listed h f [.oscRdy, .pllRdy, .sws] h32 hlo hhi

theorem mapWf_pllFieldsMask {p : Params} (h : mapWf p) (f : FixedField) {i : Nat} (h32 : i < 32)
    (hlo : f.lo p.regmap ≤ i) (hhi : i < f.lo p.regmap + f.width) :
    (pllFieldsMask p.regmap (f.reg p.regmap)).getLsbD i = decide (f ∈ pllFields) :=
  mapWf_listed h f pllFields h32 hlo hhi

theorem mapWf_rwsMask {p : Params} (h : mapWf p) (f : FixedField) {i : Nat} (h32 : i < 32)
    (hlo : f.lo p.regmap ≤ i) (hhi : i < f.lo p.regmap + f.width) :
    (rwsMask p (f.reg p.regmap)).getLsbD i = decide (f ∈ [FixedField.vos, .latency]) := by
  have hl := mapWf_listed h f [.vos, .latency] h32 hlo hhi
  rw [← hl, Bool.eq_iff_iff]
  unfold rwsMask
  rw [getLsbD_placesMask, getLsbD_placesMask]
  constructor
  · rintro ⟨pl, hpl, hr, h0, h1, h2⟩
    simp only [rwsPlaces, List.mem_append, List.mem_cons] at hpl
    rcases hpl with (rfl | rfl | hpl) | hpl
    · exact ⟨_, by simp, hr, h0, h1, h2⟩
    · exact ⟨_, by simp, hr, h0, h1, h2⟩
    · exfalso
      obtain ⟨k, -, rfl⟩ := List.mem_map.1 hpl
      rcases mapWf_apart_gpio h f k with h3 | h3 | h3
      · exact h3 hr.symm
      all_goals simp only [FixedField.place] at h3; omega
    · exfalso
      obtain ⟨e, he, rfl⟩ := List.mem_map.1 hpl
      rcases mapWf_apart_usart h he f with h3 | h3 | h3
      · exact h3 hr
      all_goals simp only [FixedField.place] at h3; omega
  · rintro ⟨pl, hpl, hr, h0, h1, h2⟩
    refine ⟨pl, ?_, hr, h0, h1, h2⟩
    simp only [List.map_cons, List.map_nil, List.mem_cons, List.not_mem_nil, or_false] at hpl
    simp only [rwsPlaces, List.mem_append, List.mem_cons]
    rcases hpl with rfl | rfl
    · exact .inl (.inl rfl)
    · exact .inl (.inr (.inl rfl))

/-! ## What a write leaves of a field -/

theorem getLsbD_takenMask (m : Regmap) (on : Bool) (n : RegName) {i : Nat} (h32 : i < 32) :
    (takenMask m on n).getLsbD i
      = !((roMask m n).getLsbD i || (on && (pllFieldsMask m n).getLsbD i)) := by
  unfold takenMask
  cases on <;> simp [h32]

/-- A write is taken by a field that is not read-only and, while the PLL runs, none of the five PLL fields (R53). -/
abbrev FixedField.taken (on : Bool) (f : FixedField) : Prop :=
  f ∉ [FixedField.oscRdy, .pllRdy, .sws] ∧ (on = true → f ∉ pllFields)

/-- What a field of the register written reads after the write (R53): the new value where it is taken and the field
does not settle, and what it read before otherwise. -/
theorem FixedField.get_written {p : Params} (h : mapWf p) (f : FixedField) (on : Bool) (v : Word) (x : Reg) :
    f.get p.regmap (writtenReg p on (f.reg p.regmap) v x).r
      = if f.taken on ∧ f ∉ [FixedField.vos, .latency] then f.get p.regmap v else f.get p.regmap x.r := by
  have hbits : ∀ i, i < 32 → f.lo p.regmap ≤ i → i < f.lo p.regmap + f.width →
      (writtenReg p on (f.reg p.regmap) v x).r.getLsbD i
        = if f.taken on ∧ f ∉ [FixedField.vos, .latency] then v.getLsbD i else x.r.getLsbD i := by
    intro i h32 hlo hhi
    simp only [writtenReg, getLsbD_merge, BitVec.getLsbD_and, BitVec.getLsbD_not, h32, decide_true, Bool.true_and,
      getLsbD_takenMask _ _ _ h32, mapWf_roMask h f h32 hlo hhi, mapWf_pllFieldsMask h f h32 hlo hhi,
      mapWf_rwsMask h f h32 hlo hhi]
    cases on <;> simp [FixedField.taken]
  split
  · next hc => exact f.get_congr_bits _ fun i a b c => by rw [hbits i a b c, if_pos hc]
  · next hc => exact f.get_congr_bits _ fun i a b c => by rw [hbits i a b c, if_neg hc]

/-- What a field of the register written holds as written: the new value where it is taken (R53). -/
theorem FixedField.get_written_w {p : Params} (h : mapWf p) (f : FixedField) (on : Bool) (v : Word) (x : Reg) :
    f.get p.regmap (writtenReg p on (f.reg p.regmap) v x).w
      = if f.taken on then f.get p.regmap v else f.get p.regmap x.w := by
  have hbits : ∀ i, i < 32 → f.lo p.regmap ≤ i → i < f.lo p.regmap + f.width →
      (writtenReg p on (f.reg p.regmap) v x).w.getLsbD i
        = if f.taken on then v.getLsbD i else x.w.getLsbD i := by
    intro i h32 hlo hhi
    simp only [writtenReg, getLsbD_merge, getLsbD_takenMask _ _ _ h32, mapWf_roMask h f h32 hlo hhi,
      mapWf_pllFieldsMask h f h32 hlo hhi]
    cases on <;> simp [FixedField.taken]
  split
  · next hc => exact f.get_congr_bits _ fun i a b c => by rw [hbits i a b c, if_pos hc]
  · next hc => exact f.get_congr_bits _ fun i a b c => by rw [hbits i a b c, if_neg hc]

/-! ## The one-bit fields of `CLK_CR` -/

theorem bit_eq_one_iff (b : BitVec 1) : b = 1 ↔ b.getLsbD 0 = true := by revert b; decide

theorem bit_eq_zero_iff (b : BitVec 1) : b = 0 ↔ b.getLsbD 0 = false := by revert b; decide

theorem oscRdyOf_getLsbD (m : Regmap) (v : Word) : (oscRdyOf m v).getLsbD 0 = v.getLsbD m.oscRdy :=
  FixedField.oscRdy.getLsbD_get m v 0

theorem pllOnOf_getLsbD (m : Regmap) (v : Word) : (pllOnOf m v).getLsbD 0 = v.getLsbD m.pllOn :=
  FixedField.pllOn.getLsbD_get m v 0

theorem pllRdyOf_getLsbD (m : Regmap) (v : Word) : (pllRdyOf m v).getLsbD 0 = v.getLsbD m.pllRdy :=
  FixedField.pllRdy.getLsbD_get m v 0

/-! ## The registers of the PLL fields -/

theorem nodup_eraseDups (k : Nat) (l : List RegName) (h : l.length ≤ k) : l.eraseDups.Nodup := by
  induction k generalizing l with
  | zero =>
    rw [List.length_eq_zero_iff.1 (by omega : l.length = 0)]
    exact List.nodup_nil
  | succ k ih =>
    cases l with
    | nil => exact List.nodup_nil
    | cons a l =>
      rw [List.eraseDups_cons, List.nodup_cons]
      refine ⟨by simp [List.mem_eraseDups], ih _ ?_⟩
      exact (List.length_filter_le _ _).trans (by simpa using h)

theorem pllRegs_nodup (m : Regmap) : (pllRegs m).Nodup := nodup_eraseDups _ _ (Nat.le_refl _)

theorem mem_pllRegs (m : Regmap) (n : RegName) : n ∈ pllRegs m ↔ ∃ f ∈ pllFields, f.reg m = n := by
  simp [pllRegs, List.mem_eraseDups]

/-- A register that holds none of the five fields has no bit of them. -/
theorem pllFieldsMask_of_not_mem {m : Regmap} {n : RegName} (h : n ∉ pllRegs m) : pllFieldsMask m n = 0 := by
  apply BitVec.eq_of_getLsbD_eq
  intro i _
  by_contra hc
  have ht : (placesMask (pllFields.map (FixedField.place m)) n).getLsbD i = true := by
    simpa [pllFieldsMask] using hc
  obtain ⟨pl, hpl, hr, -⟩ := (getLsbD_placesMask _ _ _).1 ht
  obtain ⟨f, hf, rfl⟩ := List.mem_map.1 hpl
  exact h ((mem_pllRegs m n).2 ⟨f, hf, hr⟩)

end Sys2Proof.Machine
end

