-- ==== Sys2Proof/Laws/Memory.lean ====
section
/-! SUPPORT. What a write of the register file and a plant step can do, each said once, and that every operation on
the register file keeps its canonical form. -/

namespace Sys2Proof.Machine

/-! ## The canonical form -/

theorem RegFile.wf_iff (p : Params) (f : RegFile) : f.wf p ↔ ∀ n, regWf p n (f.get n) := by
  constructor
  · rintro ⟨h1, h2, h3, h4, h5, h6, h7, h8⟩ n
    cases n <;> assumption
  · intro h
    exact ⟨h .pwrCr, h .flashAcr, h .clkCr, h .pllCfgr, h .clkCfgr, h .gateAhb1, h .gateApb1, h .gateApb2⟩

/-- The canonical form, bit by bit. -/
theorem regWf_iff (p : Params) (n : RegName) (x : Reg) :
    regWf p n x ↔ ∀ i < 32, (rwsMask p n).getLsbD i = false → x.w.getLsbD i = x.r.getLsbD i := by
  constructor
  · intro h i hi hm
    have hb : ((x.w ^^^ x.r) &&& ~~~ rwsMask p n).getLsbD i = false := by rw [h]; simp
    simp only [BitVec.getLsbD_and, BitVec.getLsbD_xor, BitVec.getLsbD_not, hi, hm, decide_true,
      Bool.not_false, Bool.and_true, bne_eq_false_iff_eq] at hb
    exact hb
  · intro h
    apply BitVec.eq_of_getLsbD_eq
    intro i hi
    simp only [BitVec.getLsbD_and, BitVec.getLsbD_xor, BitVec.getLsbD_not, hi, decide_true, Bool.true_and]
    cases hm : (rwsMask p n).getLsbD i
    · rw [h i hi hm]
      simp
    · simp

theorem RegFile.wf_set {p : Params} {f : RegFile} {n : RegName} {x : Reg} (hf : f.wf p)
    (hx : regWf p n x) : (f.set n x).wf p := by
  rw [RegFile.wf_iff] at hf ⊢
  intro k
  rw [RegFile.get_set]
  split
  · next h => subst h; exact hx
  · exact hf k

theorem regWf_settled (p : Params) (n : RegName) (v : Word) : regWf p n ⟨v, v⟩ := by
  simp [regWf]

theorem regWf_force {p : Params} {n : RegName} {x : Reg} (m v : Word) (h : regWf p n x) :
    regWf p n (x.force m v) := by
  rw [regWf_iff] at h ⊢
  intro i hi hm
  simp only [Reg.force, getLsbD_merge]
  split
  · rfl
  · exact h i hi hm

theorem regWf_written {p : Params} {n : RegName} {x : Reg} (on : Bool) (v : Word) (h : regWf p n x) :
    regWf p n (writtenReg p on n v x) := by
  rw [regWf_iff] at h ⊢
  intro i hi hm
  simp only [writtenReg, getLsbD_merge, BitVec.getLsbD_and, BitVec.getLsbD_not, hi, hm, decide_true,
    Bool.not_false, Bool.and_true]
  split
  · rfl
  · exact h i hi hm

/-- A settling field that settles keeps the canonical form. -/
theorem regWf_settle {p : Params} {n : RegName} {x : Reg} (m : Word) (h : regWf p n x) :
    regWf p n { x with r := merge m x.w x.r } := by
  rw [regWf_iff] at h ⊢
  intro i hi hm
  simp only [getLsbD_merge]
  split
  · rfl
  · exact h i hi hm

theorem RegFile.wf_setField {p : Params} {f : RegFile} (q : FixedField) (v : Word) (h : f.wf p) :
    (f.setField p.regmap q v).wf p :=
  RegFile.wf_set h (regWf_force _ _ ((RegFile.wf_iff p f).1 h _))

theorem RegFile.wf_ofProfile (p : Params) (q : Profile) : (RegFile.ofProfile q).wf p := by
  rw [RegFile.wf_iff]
  intro n
  cases n <;> exact regWf_settled p _ _

theorem RegFile.wf_get {p : Params} {f : RegFile} (h : f.wf p) (n : RegName) : regWf p n (f.get n) :=
  (RegFile.wf_iff p f).1 h n

theorem afterWrite_wf {p : Params} {f : RegFile} (n : RegName) (v : Word) (h : f.wf p) :
    (afterWrite p n v f).wf p := by
  have h' : (f.set n (writtenReg p (f.pllOn p.regmap) n v (f.get n))).wf p :=
    RegFile.wf_set h (regWf_written _ _ (RegFile.wf_get h n))
  unfold afterWrite
  dsimp only
  split
  · exact RegFile.wf_setField _ _ h'
  · exact h'

theorem plantEffect_wf {p : Params} {f : RegFile} (q : PlantStep) (h : f.wf p) :
    (plantEffect p f q).wf p := by
  cases q with
  | settle q =>
    simp only [plantEffect]
    split
    · exact RegFile.wf_set h (regWf_settle _ (RegFile.wf_get h _))
    · exact h
  | oscReady => exact RegFile.wf_setField _ _ h
  | pllLock => exact RegFile.wf_setField _ _ h
  | muxSwitch => exact RegFile.wf_setField _ _ h

/-! ## The register file after a write -/

/-- Every register but the one written holds what it held. -/
theorem afterWrite_get_of_ne {p : Params} {n k : RegName} {v : Word} {f : RegFile} (h : k ≠ n)
    (hk : k ≠ .clkCr) : (afterWrite p n v f).get k = f.get k := by
  unfold afterWrite
  dsimp only
  split
  · rw [RegFile.get_setField, if_neg (show k ≠ FixedField.reg _ .pllRdy from hk), RegFile.get_set_of_ne _ _ h]
  · rw [RegFile.get_set_of_ne _ _ h]

/-- `PLL_ON` after a write of `CLK_CR` is the written one. -/
theorem written_clkCr_pllOn {p : Params} (h : mapWf p) (v : Word) (f : RegFile) :
    (f.set .clkCr (writtenReg p (f.pllOn p.regmap) .clkCr v (f.get .clkCr))).pllOn p.regmap
      = (pllOnOf p.regmap v == 1) := by
  have hw := FixedField.pllOn.get_written h (f.pllOn p.regmap) v (f.get .clkCr)
  rw [if_pos (by simp [FixedField.taken, pllFields])] at hw
  unfold RegFile.pllOn at hw ⊢
  rw [RegFile.clkCr_eq, RegFile.get_set_same]
  exact congrArg (· == 1) hw

/-- `CLK_CR` after it is written: as written but for the read-only bits, `PLL_RDY` cleared with `PLL_ON` (R53). -/
theorem afterWrite_get_clkCr {p : Params} (h : mapWf p) (v : Word) (f : RegFile) :
    (afterWrite p .clkCr v f).get .clkCr =
      if pllOnOf p.regmap f.clkCr.r = 1 ∧ pllOnOf p.regmap v = 0 then
        (writtenReg p (f.pllOn p.regmap) .clkCr v (f.get .clkCr)).force (FixedField.pllRdy.mask p.regmap)
          (FixedField.pllRdy.put p.regmap 0)
      else writtenReg p (f.pllOn p.regmap) .clkCr v (f.get .clkCr) := by
  unfold afterWrite clearsPll
  simp only [written_clkCr_pllOn h]
  have e : (f.pllOn p.regmap && !(pllOnOf p.regmap v == 1)) = true
      ↔ pllOnOf p.regmap f.clkCr.r = 1 ∧ pllOnOf p.regmap v = 0 := by
    simp only [RegFile.pllOn, Bool.and_eq_true, beq_iff_eq, Bool.not_eq_true', beq_eq_false_iff_ne]
    rw [show pllOnOf p.regmap v ≠ 1 ↔ pllOnOf p.regmap v = 0 by rw [Ne, bit_eq_one_iff, bit_eq_zero_iff]; simp]
  by_cases hc : pllOnOf p.regmap f.clkCr.r = 1 ∧ pllOnOf p.regmap v = 0
  · rw [if_pos hc, if_pos (e.2 hc), RegFile.get_setField, if_pos (by rfl), RegFile.get_set_same]
  · rw [if_neg hc, if_neg (fun k => hc (e.1 k)), RegFile.get_set_same]

/-- `CLK_CFGR` has no settling field (R22). -/
theorem rwsMask_clkCfgr (p : Params) : rwsMask p .clkCfgr = 0 := by
  apply BitVec.eq_of_getLsbD_eq
  intro i _
  by_contra hc
  have ht : (rwsMask p .clkCfgr).getLsbD i = true := by simpa using hc
  obtain ⟨pl, hpl, hr, -⟩ := (getLsbD_placesMask _ _ _).1 ht
  simp only [rwsPlaces, List.mem_append, List.mem_cons, gpioPlaces, usartPlaces, List.mem_map] at hpl
  rcases hpl with (rfl | rfl | ⟨k, _, rfl⟩) | ⟨e, _, rfl⟩
  · cases hr
  · cases hr
  · cases hr
  · cases hb : e.bus <;> simp [usartPlace, busReg, hb] at hr

/-- A write of `CLK_CFGR` replaces that register and no other: it keeps `SWS`, and the PLL fields while the PLL runs (R53). -/
theorem afterWrite_clkCfgr (p : Params) (v : Word) (f : RegFile) :
    afterWrite p .clkCfgr v f = f.set .clkCfgr
      ⟨merge (takenMask p.regmap (f.pllOn p.regmap) .clkCfgr) v (f.get .clkCfgr).w,
        merge (takenMask p.regmap (f.pllOn p.regmap) .clkCfgr) v (f.get .clkCfgr).r⟩ := by
  have hc : clearsPll p.regmap f
      (f.set .clkCfgr (writtenReg p (f.pllOn p.regmap) .clkCfgr v (f.get .clkCfgr))) = false := by
    simp [clearsPll, RegFile.pllOn, RegFile.set]
  have hall : ∀ k : Word, k &&& ~~~ (0 : Word) = k := fun k => by
    rw [show (~~~ (0 : Word)) = BitVec.allOnes 32 by decide]
    exact BitVec.and_allOnes
  unfold afterWrite
  dsimp only
  rw [if_neg (by simp [hc])]
  simp only [writtenReg, rwsMask_clkCfgr, hall]

/-! ## A write of the register file -/

/-- Everything `MemWrite` can do (R53, R68): plain storage in the test binding; in the production binding a fault
that leaves the rest alone, or the write with its record. -/
theorem memWrite_cases (who : Writer) (n : RegName) (v : Word) (s : State) :
    (s.params.binding = .test ∧
      memWrite who n v s = logWrite who n v { s with regs := s.regs.set n ⟨v, v⟩ }) ∨
    (s.params.binding = .production ∧
      ∃ f, writeHazard s.params n s.regs (afterWrite s.params n v s.regs) = some f ∧
        memWrite who n v s = recordFault f s) ∨
    (s.params.binding = .production ∧
      writeHazard s.params n s.regs (afterWrite s.params n v s.regs) = none ∧
      memWrite who n v s = logWrite who n v { s with regs := afterWrite s.params n v s.regs }) := by
  unfold memWrite
  cases s.params.binding with
  | test => exact .inl ⟨rfl, rfl⟩
  | production =>
    cases hz : writeHazard s.params n s.regs (afterWrite s.params n v s.regs) with
    | some f => exact .inr (.inl ⟨rfl, f, rfl, by simp [hz]⟩)
    | none => exact .inr (.inr ⟨rfl, rfl, by simp [hz]⟩)

theorem memWrite_of_test {who : Writer} {n : RegName} {v : Word} {s : State}
    (h : s.params.binding = .test) :
    memWrite who n v s = logWrite who n v { s with regs := s.regs.set n ⟨v, v⟩ } := by
  simp [memWrite, h]

theorem memWrite_of_ok {who : Writer} {n : RegName} {v : Word} {s : State}
    (h : s.params.binding = .production)
    (hz : writeHazard s.params n s.regs (afterWrite s.params n v s.regs) = none) :
    memWrite who n v s = logWrite who n v { s with regs := afterWrite s.params n v s.regs } := by
  simp [memWrite, h, hz]

theorem memWrite_of_hazard {who : Writer} {n : RegName} {v : Word} {s : State} {f : Fault}
    (h : s.params.binding = .production)
    (hz : writeHazard s.params n s.regs (afterWrite s.params n v s.regs) = some f) :
    memWrite who n v s = recordFault f s := by
  simp [memWrite, h, hz]

@[simp] theorem memWrite_params (who : Writer) (n : RegName) (v : Word) (s : State) :
    (memWrite who n v s).params = s.params := by
  rcases memWrite_cases who n v s with ⟨_, h⟩ | ⟨_, _, _, h⟩ | ⟨_, _, h⟩ <;> simp [h]

@[simp] theorem memWrite_op (who : Writer) (n : RegName) (v : Word) (s : State) :
    (memWrite who n v s).op = s.op := by
  rcases memWrite_cases who n v s with ⟨_, h⟩ | ⟨_, _, _, h⟩ | ⟨_, _, h⟩ <;> simp [h]

@[simp] theorem memWrite_a0 (who : Writer) (n : RegName) (v : Word) (s : State) :
    (memWrite who n v s).a0 = s.a0 := by
  rcases memWrite_cases who n v s with ⟨_, h⟩ | ⟨_, _, _, h⟩ | ⟨_, _, h⟩ <;> simp [h]

@[simp] theorem memWrite_a1 (who : Writer) (n : RegName) (v : Word) (s : State) :
    (memWrite who n v s).a1 = s.a1 := by
  rcases memWrite_cases who n v s with ⟨_, h⟩ | ⟨_, _, _, h⟩ | ⟨_, _, h⟩ <;> simp [h]

@[simp] theorem memWrite_st (who : Writer) (n : RegName) (v : Word) (s : State) :
    (memWrite who n v s).st = s.st := by
  rcases memWrite_cases who n v s with ⟨_, h⟩ | ⟨_, _, _, h⟩ | ⟨_, _, h⟩ <;> simp [h]

@[simp] theorem memWrite_rv (who : Writer) (n : RegName) (v : Word) (s : State) :
    (memWrite who n v s).rv = s.rv := by
  rcases memWrite_cases who n v s with ⟨_, h⟩ | ⟨_, _, _, h⟩ | ⟨_, _, h⟩ <;> simp [h]

@[simp] theorem memWrite_busy (who : Writer) (n : RegName) (v : Word) (s : State) :
    (memWrite who n v s).busy = s.busy := by
  rcases memWrite_cases who n v s with ⟨_, h⟩ | ⟨_, _, _, h⟩ | ⟨_, _, h⟩ <;> simp [h]

@[simp] theorem memWrite_seq (who : Writer) (n : RegName) (v : Word) (s : State) :
    (memWrite who n v s).seq = s.seq := by
  rcases memWrite_cases who n v s with ⟨_, h⟩ | ⟨_, _, _, h⟩ | ⟨_, _, h⟩ <;> simp [h]

@[simp] theorem memWrite_ph (who : Writer) (n : RegName) (v : Word) (s : State) :
    (memWrite who n v s).ph = s.ph := by
  rcases memWrite_cases who n v s with ⟨_, h⟩ | ⟨_, _, _, h⟩ | ⟨_, _, h⟩ <;> simp [h]

@[simp] theorem memWrite_t (who : Writer) (n : RegName) (v : Word) (s : State) :
    (memWrite who n v s).t = s.t := by
  rcases memWrite_cases who n v s with ⟨_, h⟩ | ⟨_, _, _, h⟩ | ⟨_, _, h⟩ <;> simp [h]

@[simp] theorem memWrite_val (who : Writer) (n : RegName) (v : Word) (s : State) :
    (memWrite who n v s).val = s.val := by
  rcases memWrite_cases who n v s with ⟨_, h⟩ | ⟨_, _, _, h⟩ | ⟨_, _, h⟩ <;> simp [h]

@[simp] theorem memWrite_requests (who : Writer) (n : RegName) (v : Word) (s : State) :
    (memWrite who n v s).requests = s.requests := by
  rcases memWrite_cases who n v s with ⟨_, h⟩ | ⟨_, _, _, h⟩ | ⟨_, _, h⟩ <;> simp [h]

@[simp] theorem memWrite_agenda (who : Writer) (n : RegName) (v : Word) (s : State) :
    (memWrite who n v s).agenda = s.agenda := by
  rcases memWrite_cases who n v s with ⟨_, h⟩ | ⟨_, _, _, h⟩ | ⟨_, _, h⟩ <;> simp [h]

/-- A write of the register file keeps its canonical form. -/
theorem memWrite_wf {who : Writer} {n : RegName} {v : Word} {s : State} (h : s.regs.wf s.params) :
    (memWrite who n v s).regs.wf s.params := by
  rcases memWrite_cases who n v s with ⟨_, e⟩ | ⟨_, _, _, e⟩ | ⟨_, _, e⟩
  · simpa [e] using RegFile.wf_set h (regWf_settled _ _ _)
  · simpa [e] using h
  · simpa [e] using afterWrite_wf n v h

/-! ## A plant step -/

/-- Everything a plant step can do (R31, R231): nothing, its effect, or `FlashTiming` instead of it. -/
theorem plantStep_cases (q : PlantStep) (s : State) :
    (plantEnabled s q = false ∧ plantStep q s = s) ∨
    (plantEnabled s q = true ∧ plantChecked q = true ∧
      (plantEffect s.params s.regs q).safe s.params = false ∧
      plantStep q s = recordFault .flashTiming s) ∨
    (plantEnabled s q = true ∧
      (plantChecked q = true → (plantEffect s.params s.regs q).safe s.params = true) ∧
      plantStep q s = { s with regs := plantEffect s.params s.regs q }) := by
  unfold plantStep
  by_cases he : plantEnabled s q = true
  · by_cases hc : plantChecked q = true
    · cases hs : (plantEffect s.params s.regs q).safe s.params
      · exact .inr (.inl ⟨he, hc, rfl, by simp [he, hc, hs]⟩)
      · exact .inr (.inr ⟨he, fun _ => rfl, by simp [he, hs]⟩)
    · exact .inr (.inr ⟨he, fun h => absurd h hc, by simp [he, hc]⟩)
  · exact .inl ⟨by simpa using he, by simp [he]⟩

@[simp] theorem plantStep_params (q : PlantStep) (s : State) : (plantStep q s).params = s.params := by
  rcases plantStep_cases q s with ⟨_, h⟩ | ⟨_, _, _, h⟩ | ⟨_, _, h⟩ <;> simp [h]

@[simp] theorem plantStep_op (q : PlantStep) (s : State) : (plantStep q s).op = s.op := by
  rcases plantStep_cases q s with ⟨_, h⟩ | ⟨_, _, _, h⟩ | ⟨_, _, h⟩ <;> simp [h]

@[simp] theorem plantStep_a0 (q : PlantStep) (s : State) : (plantStep q s).a0 = s.a0 := by
  rcases plantStep_cases q s with ⟨_, h⟩ | ⟨_, _, _, h⟩ | ⟨_, _, h⟩ <;> simp [h]

@[simp] theorem plantStep_a1 (q : PlantStep) (s : State) : (plantStep q s).a1 = s.a1 := by
  rcases plantStep_cases q s with ⟨_, h⟩ | ⟨_, _, _, h⟩ | ⟨_, _, h⟩ <;> simp [h]

@[simp] theorem plantStep_st (q : PlantStep) (s : State) : (plantStep q s).st = s.st := by
  rcases plantStep_cases q s with ⟨_, h⟩ | ⟨_, _, _, h⟩ | ⟨_, _, h⟩ <;> simp [h]

@[simp] theorem plantStep_rv (q : PlantStep) (s : State) : (plantStep q s).rv = s.rv := by
  rcases plantStep_cases q s with ⟨_, h⟩ | ⟨_, _, _, h⟩ | ⟨_, _, h⟩ <;> simp [h]

@[simp] theorem plantStep_busy (q : PlantStep) (s : State) : (plantStep q s).busy = s.busy := by
  rcases plantStep_cases q s with ⟨_, h⟩ | ⟨_, _, _, h⟩ | ⟨_, _, h⟩ <;> simp [h]

@[simp] theorem plantStep_seq (q : PlantStep) (s : State) : (plantStep q s).seq = s.seq := by
  rcases plantStep_cases q s with ⟨_, h⟩ | ⟨_, _, _, h⟩ | ⟨_, _, h⟩ <;> simp [h]

@[simp] theorem plantStep_ph (q : PlantStep) (s : State) : (plantStep q s).ph = s.ph := by
  rcases plantStep_cases q s with ⟨_, h⟩ | ⟨_, _, _, h⟩ | ⟨_, _, h⟩ <;> simp [h]

@[simp] theorem plantStep_t (q : PlantStep) (s : State) : (plantStep q s).t = s.t := by
  rcases plantStep_cases q s with ⟨_, h⟩ | ⟨_, _, _, h⟩ | ⟨_, _, h⟩ <;> simp [h]

@[simp] theorem plantStep_val (q : PlantStep) (s : State) : (plantStep q s).val = s.val := by
  rcases plantStep_cases q s with ⟨_, h⟩ | ⟨_, _, _, h⟩ | ⟨_, _, h⟩ <;> simp [h]

@[simp] theorem plantStep_requests (q : PlantStep) (s : State) : (plantStep q s).requests = s.requests := by
  rcases plantStep_cases q s with ⟨_, h⟩ | ⟨_, _, _, h⟩ | ⟨_, _, h⟩ <;> simp [h]

@[simp] theorem plantStep_agenda (q : PlantStep) (s : State) : (plantStep q s).agenda = s.agenda := by
  rcases plantStep_cases q s with ⟨_, h⟩ | ⟨_, _, _, h⟩ | ⟨_, _, h⟩ <;> simp [h]

@[simp] theorem plantStep_wlog (q : PlantStep) (s : State) : (plantStep q s).wlog = s.wlog := by
  rcases plantStep_cases q s with ⟨_, h⟩ | ⟨_, _, _, h⟩ | ⟨_, _, h⟩ <;> simp [h]

@[simp] theorem plantStep_plog (q : PlantStep) (s : State) : (plantStep q s).plog = s.plog := by
  rcases plantStep_cases q s with ⟨_, h⟩ | ⟨_, _, _, h⟩ | ⟨_, _, h⟩ <;> simp [h]

/-- A plant step keeps the canonical form. -/
theorem plantStep_wf {q : PlantStep} {s : State} (h : s.regs.wf s.params) :
    (plantStep q s).regs.wf s.params := by
  rcases plantStep_cases q s with ⟨_, e⟩ | ⟨_, _, _, e⟩ | ⟨_, _, e⟩
  · simpa [e] using h
  · simpa [e] using h
  · simpa [e] using plantEffect_wf q h

/-- A property every plant step keeps is kept by the plant moving alone. -/
theorem plantAlone_keeps {P : State → Prop} (h : ∀ q s, P s → P (plantStep q s)) {s : State}
    (hs : P s) : P (plantAlone s) := by
  have fold : ∀ (l : List PlantStep) (s : State), P s → P (l.foldl (fun s q => plantStep q s) s) := by
    intro l
    induction l with
    | nil => exact fun _ hs => hs
    | cons q l ih => exact fun s hs => ih _ (h q s hs)
  unfold plantAlone plantAll
  split
  · exact fold _ _ hs
  · exact hs

@[simp] theorem plantAlone_params (s : State) : (plantAlone s).params = s.params :=
  plantAlone_keeps (P := fun s' => s'.params = s.params) (fun q s' h => by simpa using h) rfl

@[simp] theorem plantAlone_op (s : State) : (plantAlone s).op = s.op :=
  plantAlone_keeps (P := fun s' => s'.op = s.op) (fun q s' h => by simpa using h) rfl

@[simp] theorem plantAlone_a0 (s : State) : (plantAlone s).a0 = s.a0 :=
  plantAlone_keeps (P := fun s' => s'.a0 = s.a0) (fun q s' h => by simpa using h) rfl

@[simp] theorem plantAlone_a1 (s : State) : (plantAlone s).a1 = s.a1 :=
  plantAlone_keeps (P := fun s' => s'.a1 = s.a1) (fun q s' h => by simpa using h) rfl

@[simp] theorem plantAlone_st (s : State) : (plantAlone s).st = s.st :=
  plantAlone_keeps (P := fun s' => s'.st = s.st) (fun q s' h => by simpa using h) rfl

@[simp] theorem plantAlone_rv (s : State) : (plantAlone s).rv = s.rv :=
  plantAlone_keeps (P := fun s' => s'.rv = s.rv) (fun q s' h => by simpa using h) rfl

@[simp] theorem plantAlone_busy (s : State) : (plantAlone s).busy = s.busy :=
  plantAlone_keeps (P := fun s' => s'.busy = s.busy) (fun q s' h => by simpa using h) rfl

@[simp] theorem plantAlone_seq (s : State) : (plantAlone s).seq = s.seq :=
  plantAlone_keeps (P := fun s' => s'.seq = s.seq) (fun q s' h => by simpa using h) rfl

@[simp] theorem plantAlone_ph (s : State) : (plantAlone s).ph = s.ph :=
  plantAlone_keeps (P := fun s' => s'.ph = s.ph) (fun q s' h => by simpa using h) rfl

@[simp] theorem plantAlone_t (s : State) : (plantAlone s).t = s.t :=
  plantAlone_keeps (P := fun s' => s'.t = s.t) (fun q s' h => by simpa using h) rfl

@[simp] theorem plantAlone_val (s : State) : (plantAlone s).val = s.val :=
  plantAlone_keeps (P := fun s' => s'.val = s.val) (fun q s' h => by simpa using h) rfl

@[simp] theorem plantAlone_requests (s : State) : (plantAlone s).requests = s.requests :=
  plantAlone_keeps (P := fun s' => s'.requests = s.requests) (fun q s' h => by simpa using h) rfl

@[simp] theorem plantAlone_agenda (s : State) : (plantAlone s).agenda = s.agenda :=
  plantAlone_keeps (P := fun s' => s'.agenda = s.agenda) (fun q s' h => by simpa using h) rfl

@[simp] theorem plantAlone_wlog (s : State) : (plantAlone s).wlog = s.wlog :=
  plantAlone_keeps (P := fun s' => s'.wlog = s.wlog) (fun q s' h => by simpa using h) rfl

@[simp] theorem plantAlone_plog (s : State) : (plantAlone s).plog = s.plog :=
  plantAlone_keeps (P := fun s' => s'.plog = s.plog) (fun q s' h => by simpa using h) rfl

/-- Where no step is enabled the plant leaves the state alone. -/
theorem plantAlone_of_settled {s : State} (h : s.params.plantLive = true → s.Settled) :
    plantAlone s = s := by
  unfold plantAlone
  split
  · next hl =>
    have hs := h hl
    unfold State.Settled at hs
    rw [List.all_eq_true] at hs
    have fold : ∀ l : List PlantStep, (∀ q ∈ l, plantEnabled s q = false) →
        l.foldl (fun s q => plantStep q s) s = s := by
      intro l
      induction l with
      | nil => intro _; rfl
      | cons q l ih =>
        intro hq
        have : plantStep q s = s := by simp [plantStep, hq q (by simp)]
        simp only [List.foldl_cons, this]
        exact ih fun k hk => hq k (by simp [hk])
    exact fold _ fun q hq => by simpa using hs q hq
  · rfl

/-- Whether the plant has a step depends on the parameters, the fault mark and the register file alone. -/
theorem plantEnabled_congr {s s' : State} (hp : s'.params = s.params) (hf : s'.fault = s.fault)
    (hr : s'.regs = s.regs) (q : PlantStep) : plantEnabled s' q = plantEnabled s q := by
  simp [plantEnabled, hp, hf, hr]

theorem settled_congr {s s' : State} (hp : s'.params = s.params) (hf : s'.fault = s.fault)
    (hr : s'.regs = s.regs) : s'.Settled ↔ s.Settled := by
  simp [State.Settled, hp, plantEnabled_congr hp hf hr]

/-! ## `Force` and reset -/

/-- `Force` keeps the canonical form. -/
theorem forceStep_wf {q : FieldName} {v : Word} {s s' : State} (h : s.regs.wf s.params)
    (e : forceStep q v s = .next s') : s'.regs.wf s.params ∧ s'.params = s.params := by
  unfold forceStep at e
  split at e
  · cases e
  · split at e
    · cases e; exact ⟨h, rfl⟩
    · cases e; exact ⟨RegFile.wf_set h (regWf_force _ _ (RegFile.wf_get h _)), rfl⟩

/-- Reset leaves the register file in canonical form. -/
theorem resetStep_wf (s : State) : (resetStep s).regs.wf s.params := by
  simpa using RegFile.wf_ofProfile s.params s.params.profile

/-- The register file is in canonical form at reset. -/
theorem reset_wf : State.reset.regs.wf State.reset.params := RegFile.wf_ofProfile _ _

theorem insertReg_perm (m : Regmap) (n : RegName) (l : List RegName) : (insertReg m n l).Perm (n :: l) := by
  induction l with
  | nil => exact List.Perm.refl _
  | cons k l ih =>
    unfold insertReg
    split
    · exact List.Perm.refl _
    · exact (ih.cons k).trans (List.Perm.swap n k l)

theorem insertReg_sorted (m : Regmap) (n : RegName) {l : List RegName}
    (h : l.Pairwise fun a b => regAddr m a ≤ regAddr m b) :
    (insertReg m n l).Pairwise fun a b => regAddr m a ≤ regAddr m b := by
  induction l with
  | nil => exact List.pairwise_singleton _ _
  | cons k l ih =>
    obtain ⟨hk, hl⟩ := List.pairwise_cons.1 h
    unfold insertReg
    split
    · next hn =>
      refine List.pairwise_cons.2 ⟨fun a ha => ?_, h⟩
      rcases List.mem_cons.1 ha with rfl | ha
      · exact hn
      · exact BitVec.le_trans hn (hk a ha)
    · next hn =>
      refine List.pairwise_cons.2 ⟨fun a ha => ?_, ih hl⟩
      rcases List.mem_cons.1 ((insertReg_perm m n l).mem_iff.1 ha) with rfl | ha
      · exact (BitVec.le_total _ _).resolve_left hn
      · exact hk a ha

/-- Under a well-formed map the registers stand in `regsByAddress` four bytes apart or more. -/
theorem regsByAddress_rising {p : Params} (h : mapWf p) :
    (regsByAddress p.regmap).Pairwise fun a b =>
      (regAddr p.regmap a).toNat + 4 ≤ (regAddr p.regmap b).toNat := by
  have sorted : ∀ l : List RegName, (l.foldr (insertReg p.regmap) []).Perm l
      ∧ (l.foldr (insertReg p.regmap) []).Pairwise fun a b => regAddr p.regmap a ≤ regAddr p.regmap b := by
    intro l
    induction l with
    | nil => exact ⟨List.Perm.refl _, List.Pairwise.nil⟩
    | cons n l ih => exact ⟨(insertReg_perm _ _ _).trans (ih.1.cons n), insertReg_sorted _ _ ih.2⟩
  obtain ⟨hperm, hle⟩ := sorted allRegs
  have hne : (regsByAddress p.regmap).Pairwise fun a b => regAddr p.regmap a ≠ regAddr p.regmap b :=
    (hperm.pairwise_iff fun {a b} hab => Ne.symm hab).2 h.1
  have hall : ∀ n : RegName, (regAddr p.regmap n).toNat % 4 = 0 := by
    intro n
    have := h.2.1 n (by cases n <;> decide)
    rw [← BitVec.toNat_inj, BitVec.toNat_and] at this
    simpa [Nat.and_two_pow_sub_one_eq_mod _ 2] using this
  refine (hle.and hne).imp fun {a b} hab => ?_
  have h1 : (regAddr p.regmap a).toNat ≤ (regAddr p.regmap b).toNat := hab.1
  have h2 : (regAddr p.regmap a).toNat ≠ (regAddr p.regmap b).toNat := fun e => hab.2 (BitVec.eq_of_toNat_eq e)
  have h3 := hall a
  have h4 := hall b
  omega

/-- The cells of the register space stand at strictly rising addresses. -/
theorem image_sorted {p : Params} (h : mapWf p) (f : RegFile) :
    ((f.image p.regmap).map Prod.fst).Pairwise (· < ·) := by
  have e : (f.image p.regmap).map Prod.fst
      = (regsByAddress p.regmap).flatMap fun n => (List.range 4).map fun i => (regAddr p.regmap n).toNat + i := by
    simp [RegFile.image, List.map_flatMap, Function.comp_def]
  rw [e, List.pairwise_flatMap]
  refine ⟨fun n _ => ?_, (regsByAddress_rising h).imp fun {a b} hab x hx y hy => ?_⟩
  · rw [List.pairwise_map]
    exact List.pairwise_lt_range.imp fun {i j} hij => Nat.add_lt_add_left hij _
  · obtain ⟨i, hi, rfl⟩ := List.mem_map.1 hx
    obtain ⟨j, -, rfl⟩ := List.mem_map.1 hy
    have := List.mem_range.1 hi
    omega

end Sys2Proof.Machine
end

