-- ==== Sys2Proof/Laws/PerInstr.lean ====
section
/-! SUPPORT. The family Layout: a command's word carries its opcode and its two operand words in the places of
spec/30_encoding.md R80. One lemma per constructor. -/

namespace Sys2Proof

/-- The bits of a command word (R80). -/
theorem getLsbD_commandWord (op : Opcode) (a1 a0 : Word) (i : Nat) :
    (commandWord op a1 a0).getLsbD i
      = if i < 32 then a0.getLsbD i else if i < 64 then a1.getLsbD (i - 32) else op.getLsbD (i - 64) := by
  show BitVec.getLsbD (w := 8 + 32 + 32) ((op ++ a1) ++ a0) i = _
  rw [BitVec.getLsbD_append, BitVec.getLsbD_append]
  split
  · rfl
  · split <;> split <;> first | rfl | omega

theorem opOf_commandWord (op : Opcode) (a1 a0 : Word) : opOf (commandWord op a1 a0) = op := by
  apply BitVec.eq_of_getLsbD_eq
  intro i hi
  rw [opOf, BitVec.getLsbD_extractLsb', getLsbD_commandWord]
  simp [hi, show ¬ 64 + i < 32 by omega]

theorem a1Of_commandWord (op : Opcode) (a1 a0 : Word) : a1Of (commandWord op a1 a0) = a1 := by
  apply BitVec.eq_of_getLsbD_eq
  intro i hi
  rw [a1Of, BitVec.getLsbD_extractLsb', getLsbD_commandWord]
  simp [hi, show 32 + i < 64 by omega]

theorem a0Of_commandWord (op : Opcode) (a1 a0 : Word) : a0Of (commandWord op a1 a0) = a0 := by
  apply BitVec.eq_of_getLsbD_eq
  intro i hi
  rw [a0Of, BitVec.getLsbD_extractLsb', getLsbD_commandWord]
  simp [hi]

namespace Laws.Layout

/-- The word of the command carries `op`, `a1` and `a0` where R80 puts them. -/
def Statement (i : Instr) : Prop :=
  opOf (encode i) = opcodeOf i ∧ a1Of (encode i) = word1Of i ∧ a0Of (encode i) = word0Of i

theorem of_any (i : Instr) : Statement i :=
  ⟨opOf_commandWord _ _ _, a1Of_commandWord _ _ _, a0Of_commandWord _ _ _⟩

theorem getFreq (domain a1 : Word) : Statement (.getFreq domain a1) := of_any _
theorem setScaling (level a1 : Word) : Statement (.setScaling level a1) := of_any _
theorem setLatency (ws a1 : Word) : Statement (.setLatency ws a1) := of_any _
theorem enableCache (a0 a1 : Word) : Statement (.enableCache a0 a1) := of_any _
theorem enablePrefetch (a0 a1 : Word) : Statement (.enablePrefetch a0 a1) := of_any _
theorem pllConfigure (cfg : PllWord) (a1 : Word) : Statement (.pllConfigure cfg a1) := of_any _
theorem pllEnable (a0 a1 : Word) : Statement (.pllEnable a0 a1) := of_any _
theorem pllWaitLock (a0 a1 : Word) : Statement (.pllWaitLock a0 a1) := of_any _
theorem seqRun (cfg : PllWord) (pw : PowerWord) : Statement (.seqRun cfg pw) := of_any _
theorem gateGpio (id a1 : Word) : Statement (.gateGpio id a1) := of_any _
theorem gateUsart (id a1 : Word) : Statement (.gateUsart id a1) := of_any _

end Laws.Layout

end Sys2Proof
end

