-- ==== Sys2Proof/Laws/Run.lean ====
section
/-! SUPPORT. How a command runs: the engine's steps, the turns of the agenda, and what is kept along them. -/

namespace Sys2Proof.Machine

/-! ## Idle, running, faulted -/

theorem running_iff (s : State) : s.running = true ↔ s.busy = true ∧ s.fault = none := by
  simp [State.running]

theorem idle_iff (s : State) : s.idle = true ↔ s.busy = false ∧ s.fault = none := by
  simp [State.idle]

/-! ## The engine alone -/

theorem engineStep_of_not_running {s : State} (h : s.running = false) : engineStep s = s := by
  simp [engineStep, h]

theorem engineStep_cons {s : State} {m : Micro} {rest : List Micro} (h : s.running = true)
    (hp : s.ph = m :: rest) : engineStep s = runMicro m rest s := by
  simp [engineStep, h, hp]

@[simp] theorem engineAlone_zero (s : State) : engineAlone 0 s = s := rfl

theorem engineAlone_of_not_running {s : State} (h : s.running = false) (n : Nat) :
    engineAlone n s = s := by
  cases n <;> simp [engineAlone, h]

theorem engineAlone_succ {s : State} (h : s.running = true) (n : Nat) :
    engineAlone (n + 1) s = engineAlone n (engineStep (plantAlone s)) := by
  simp [engineAlone, h]

/-- One micro-step of the engine where the plant has no step to take. -/
theorem engineAlone_cons {s : State} {m : Micro} {rest : List Micro} (h : s.running = true)
    (hs : s.params.plantLive = true → s.Settled) (hp : s.ph = m :: rest) (n : Nat) :
    engineAlone (n + 1) s = engineAlone n (runMicro m rest s) := by
  rw [engineAlone_succ h, plantAlone_of_settled hs, engineStep_cons h hp]

/-- Where every step the plant has leads to one settled state, that is where the plant's moving leads. -/
theorem plantAlone_of_common {s s' : State} (hl : s.params.plantLive = true)
    (hex : ∃ q ∈ plantSteps s.params, plantEnabled s q = true)
    (hto : ∀ q ∈ plantSteps s.params, plantEnabled s q = true → plantStep q s = s')
    (hp : s'.params = s.params) (hdone : s'.Settled) : plantAlone s = s' := by
  have hoff : ∀ q ∈ plantSteps s.params, plantEnabled s' q = false := by
    intro q hq
    unfold State.Settled at hdone
    rw [List.all_eq_true, hp] at hdone
    simpa using hdone q hq
  have stay : ∀ l : List PlantStep, (∀ q ∈ l, plantEnabled s' q = false) →
      l.foldl (fun s q => plantStep q s) s' = s' := by
    intro l
    induction l with
    | nil => intro _; rfl
    | cons q l ih =>
      intro hq
      have : plantStep q s' = s' := by simp [plantStep, hq q (by simp)]
      simp only [List.foldl_cons, this]
      exact ih fun k hk => hq k (by simp [hk])
  have go : ∀ l : List PlantStep, (∀ q ∈ l, q ∈ plantSteps s.params) →
      (∃ q ∈ l, plantEnabled s q = true) → l.foldl (fun s q => plantStep q s) s = s' := by
    intro l
    induction l with
    | nil => rintro _ ⟨q, hq, _⟩; cases hq
    | cons q l ih =>
      rintro hl' ⟨k, hk, he⟩
      by_cases hq : plantEnabled s q = true
      · simp only [List.foldl_cons, hto q (hl' q (by simp)) hq]
        exact stay l fun j hj => hoff j (hl' j (by simp [hj]))
      · have : plantStep q s = s := by simp [plantStep, hq]
        simp only [List.foldl_cons, this]
        refine ih (fun j hj => hl' j (by simp [hj])) ⟨k, ?_, he⟩
        rcases List.mem_cons.1 hk with h | h
        · subst h; exact absurd he hq
        · exact h
  simp only [plantAlone, hl, if_true, plantAll]
  exact go _ (fun _ h => h) hex

/-! ## What the engine keeps -/

@[simp] theorem engineStep_params (s : State) : (engineStep s).params = s.params := by
  unfold engineStep
  split
  · split
    · rfl
    · next m rest _ =>
      cases m <;> simp only [runMicro, freqClkStep, freqPllStep] <;> (repeat' split) <;> simp
  · rfl

@[simp] theorem engineStep_op (s : State) : (engineStep s).op = s.op := by
  unfold engineStep
  split
  · split
    · rfl
    · next m rest _ =>
      cases m <;> simp only [runMicro, freqClkStep, freqPllStep] <;> (repeat' split) <;> simp
  · rfl

@[simp] theorem engineStep_a0 (s : State) : (engineStep s).a0 = s.a0 := by
  unfold engineStep
  split
  · split
    · rfl
    · next m rest _ =>
      cases m <;> simp only [runMicro, freqClkStep, freqPllStep] <;> (repeat' split) <;> simp
  · rfl

@[simp] theorem engineStep_a1 (s : State) : (engineStep s).a1 = s.a1 := by
  unfold engineStep
  split
  · split
    · rfl
    · next m rest _ =>
      cases m <;> simp only [runMicro, freqClkStep, freqPllStep] <;> (repeat' split) <;> simp
  · rfl

@[simp] theorem engineStep_plog (s : State) : (engineStep s).plog = s.plog := by
  unfold engineStep
  split
  · split
    · rfl
    · next m rest _ =>
      cases m with
      | store n mask v =>
        simp only [runMicro]
        rcases memWrite_cases .engine n (merge mask v s.t) { s with ph := rest } with
          ⟨_, h⟩ | ⟨_, _, _, h⟩ | ⟨_, _, h⟩ <;> simp [h]
      | _ => simp only [runMicro, freqClkStep, freqPllStep] <;> (repeat' split) <;> simp
  · rfl

@[simp] theorem engineStep_requests (s : State) : (engineStep s).requests = s.requests := by
  unfold engineStep
  split
  · split
    · rfl
    · next m rest _ =>
      cases m <;> simp only [runMicro, freqClkStep, freqPllStep] <;> (repeat' split) <;> simp
  · rfl

@[simp] theorem engineStep_agenda (s : State) : (engineStep s).agenda = s.agenda := by
  unfold engineStep
  split
  · split
    · rfl
    · next m rest _ =>
      cases m <;> simp only [runMicro, freqClkStep, freqPllStep] <;> (repeat' split) <;> simp
  · rfl

/-- A micro-step of the engine keeps the canonical form of the register file. -/
theorem engineStep_wf {s : State} (h : s.regs.wf s.params) : (engineStep s).regs.wf s.params := by
  unfold engineStep
  split
  · split
    · exact h
    · next m rest _ =>
      cases m with
      | store n mask v =>
        exact memWrite_wf (who := .engine) (n := n) (v := merge mask v s.t) (s := { s with ph := rest }) h
      | _ =>
        simp only [runMicro, freqClkStep, freqPllStep]
        repeat' split
        all_goals simpa using h
  · exact h

/-- A property that the engine's and the plant's steps keep is kept by the engine alone. -/
theorem engineAlone_keeps {P : State → Prop} (hplant : ∀ q s, P s → P (plantStep q s))
    (hengine : ∀ s, P s → P (engineStep s)) (n : Nat) {s : State} (hs : P s) :
    P (engineAlone n s) := by
  induction n generalizing s with
  | zero => exact hs
  | succ n ih =>
    unfold engineAlone
    split
    · exact ih (hengine _ (plantAlone_keeps hplant hs))
    · exact hs

/-! ## The turns of the agenda -/

@[simp] theorem runTurns_nil (s : State) :
    runTurns [] s = .next (engineAlone s.ph.length { s with agenda := [] }) := rfl

theorem runTurns_of_not_running {s : State} (h : s.running = false) (ts : List Turn) :
    runTurns ts s = .next { s with agenda := ts } := by
  cases ts with
  | nil => rw [runTurns_nil, engineAlone_of_not_running (by simpa [State.running] using h)]
  | cons tn ts => simp [runTurns, h]

theorem runTurns_cons {s s' : State} {tn : Turn} (h : s.running = true) (ts : List Turn)
    (ht : turnStep tn { s with agenda := ts } = .next s') : runTurns (tn :: ts) s = runTurns ts s' := by
  simp [runTurns, h, ht]

/-- A turn of the engine or the plant always answers a next state. -/
theorem turnStep_internal {tn : Turn} (h : tn.internal = true) (s : State) :
    ∃ s', turnStep tn s = .next s' := by
  cases tn with
  | go => exact ⟨_, rfl⟩
  | plant q => exact ⟨_, rfl⟩
  | _ => simp [Turn.internal] at h

/-- A run with nobody but the engine and the plant moving always answers a next state. -/
theorem runTurns_internal {ts : List Turn} (h : ts.all Turn.internal = true) (s : State) :
    ∃ s', runTurns ts s = .next s' := by
  induction ts generalizing s with
  | nil => exact ⟨_, rfl⟩
  | cons tn ts ih =>
    simp only [List.all_cons, Bool.and_eq_true] at h
    by_cases hr : s.running = true
    · obtain ⟨s', hs'⟩ := turnStep_internal h.1 { s with agenda := ts }
      rw [runTurns_cons hr ts hs']
      exact ih h.2 s'
    · exact ⟨_, runTurns_of_not_running (by simpa using hr) _⟩

/-- The induction over a run: a property that does not look at the agenda and that every turn of it, every plant
step and every micro-step keep, holds where the run ends. -/
theorem runTurns_keeps {P : State → Prop} (hagenda : ∀ s ts, P s → P { s with agenda := ts })
    (hplant : ∀ q s, P s → P (plantStep q s)) (hengine : ∀ s, P s → P (engineStep s))
    {ts : List Turn} (hturn : ∀ tn ∈ ts, ∀ s s', P s → turnStep tn s = .next s' → P s')
    {s t : State} (hs : P s) (h : runTurns ts s = .next t) : P t := by
  induction ts generalizing s with
  | nil =>
    rw [runTurns_nil] at h
    cases h
    exact engineAlone_keeps hplant hengine _ (hagenda _ _ hs)
  | cons tn ts ih =>
    by_cases hr : s.running = true
    · cases ht : turnStep tn { s with agenda := ts } with
      | next s' =>
        rw [runTurns_cons hr ts ht] at h
        exact ih (fun k hk => hturn k (by simp [hk])) (hturn tn (by simp) _ _ (hagenda _ _ hs) ht) h
      | fault f => simp [runTurns, hr, ht] at h
      | refused r => simp [runTurns, hr, ht] at h
    · rw [runTurns_of_not_running (by simpa using hr)] at h
      cases h
      exact hagenda _ _ hs

/-- The same for a run with nobody but the engine and the plant moving. -/
theorem runTurns_keeps_internal {P : State → Prop} (hagenda : ∀ s ts, P s → P { s with agenda := ts })
    (hplant : ∀ q s, P s → P (plantStep q s)) (hengine : ∀ s, P s → P (engineStep s))
    {ts : List Turn} (hi : ts.all Turn.internal = true) {s t : State} (hs : P s)
    (h : runTurns ts s = .next t) : P t := by
  refine runTurns_keeps hagenda hplant hengine (fun tn htn s s' hs' ht => ?_) hs h
  have := List.all_eq_true.1 hi tn htn
  cases tn with
  | go => cases ht; exact hengine _ hs'
  | plant q => cases ht; exact hplant _ _ hs'
  | _ => simp [Turn.internal] at this

/-! ## Accepting a command -/

theorem issueWord_of_idle {s : State} (h : s.idle = true) (op : Opcode) (a1 a0 : Word)
    (body : List Micro) :
    issueWord op a1 a0 body s = runTurns s.agenda (accept op a1 a0 body s) := by
  obtain ⟨hb, hf⟩ := (idle_iff s).1 h
  simp [issueWord, hb, hf]

theorem issueWord_of_fault {s : State} {f : Fault} (h : s.fault = some f) (op : Opcode) (a1 a0 : Word)
    (body : List Micro) : issueWord op a1 a0 body s = .fault f := by
  simp [issueWord, h]

theorem issueWord_of_busy {s : State} (hf : s.fault = none) (hb : s.busy = true) (op : Opcode)
    (a1 a0 : Word) (body : List Micro) : issueWord op a1 a0 body s = .refused .commandWhileBusy := by
  simp [issueWord, hf, hb]

/-- A command accepted in an undisturbed state runs with the engine alone. -/
theorem issueWord_undisturbed {s : State} (h : s.idle = true) (ha : s.agenda = []) (op : Opcode)
    (a1 a0 : Word) (body : List Micro) :
    issueWord op a1 a0 body s = .next (engineAlone body.length (accept op a1 a0 body s)) := by
  rw [issueWord_of_idle h, ha, runTurns_nil]
  simp only [accept_ph]
  congr 2
  cases s
  simp only at ha
  subst ha
  rfl

/-- The micro-steps a command runs once accepted (R101 to R182). -/
def programOf (i : Instr) (s : State) : List Micro :=
  match i with
  | .getFreq domain _ =>
    match domainOf domain with
    | none => [.raise .invalidParameter]
    | some d => freqBody d
  | .setScaling level _ =>
    match levelOf level.toNat with
    | none => [.fail .undefinedScalingLevel]
    | some l => doScaling s.params l ++ [.done]
  | .setLatency ws _ => if 15 < ws.toNat then [.raise .invalidParameter] else doLatency s.params.regmap ws ++ [.done]
  | .enableCache _ _ =>
    orIn .flashAcr (FixedField.icen.mask s.params.regmap ||| FixedField.dcen.mask s.params.regmap) ++ [.done]
  | .enablePrefetch _ _ => orIn .flashAcr (FixedField.prften.mask s.params.regmap) ++ [.done]
  | .pllConfigure cfg _ =>
    if pllValid cfg then doPllConfigure s.params.regmap cfg ++ [.done] else [.raise .invalidParameter]
  | .pllEnable _ _ => doPllEnable s.params.regmap ++ [.done]
  | .pllWaitLock _ _ => doWaitLock s.params.regmap ++ [.done]
  | .seqRun cfg pw => seqProgram cfg pw s
  | .gateGpio id _ =>
    match gpioBankOf id with
    | none => [.raise .invalidParameter]
    | some k => gateBody .gateAhb1 (gpioPlace s.params.regmap k).mask
  | .gateUsart id _ =>
    match usartEntry s.params id with
    | none => [.raise .invalidParameter]
    | some e => gateBody (busReg e.bus) (usartPlace e).mask

/-- Every command but a `SEQ_RUN` met midway is accepted and its program run. -/
theorem exec_eq_issue (i : Instr) (s : State)
    (h : (∃ cfg pw, i = .seqRun cfg pw) → s.idle = true → seqMidway s.seq = false) :
    exec i s = issue i (programOf i s) s := by
  cases i with
  | seqRun cfg pw =>
    have := h ⟨cfg, pw, rfl⟩
    by_cases hi : s.idle = true
    · simp [exec, execSeqRun, programOf, this hi]
    · simp [exec, execSeqRun, programOf, hi]
  | _ => rfl

/-- What a command can be: accepted and run, or `SEQ_RUN` refused midway. -/
theorem exec_cases (i : Instr) (s : State) :
    exec i s = issue i (programOf i s) s ∨ exec i s = .refused .sequencerMidway := by
  cases i with
  | seqRun cfg pw =>
    by_cases h : (s.idle && seqMidway s.seq) = true
    · exact .inr (by simp [exec, execSeqRun, h])
    · exact .inl (by simp [exec, execSeqRun, h, programOf])
  | _ => exact .inl rfl

/-- A command that answers a next state was accepted by an idle block, and the next state is where its run ends. -/
theorem exec_next {i : Instr} {s t : State} (h : exec i s = .next t) :
    s.idle = true ∧
      runTurns s.agenda (accept (opcodeOf i) (word1Of i) (word0Of i) (programOf i s) s) = .next t := by
  rcases exec_cases i s with e | e
  · rw [e] at h
    unfold issue issueWord at h
    split at h
    · cases h
    · next hf =>
      split at h
      · cases h
      · next hb => exact ⟨(idle_iff s).2 ⟨by simpa using hb, hf⟩, h⟩
  · rw [e] at h; cases h

end Sys2Proof.Machine
end

