-- ==== Sys2Proof/Laws/Quiet.lean ====
section
/-! SUPPORT. A command where nobody but the engine moves of itself: the engine's steps one by one, and the plant's
answer to a write. -/

namespace Sys2Proof.Machine

theorem undisturbed_settled {s : State} (h : s.Undisturbed) : s.params.plantLive = true → s.Settled := by
  intro hl
  cases hb : s.params.binding with
  | production => exact (h.2 hl hb).1
  | test => simp [State.Settled, plantEnabled, hb]

theorem issue_undisturbed {s : State} (i : Instr) (body : List Micro) (h : s.idle = true) (hu : s.Undisturbed) :
    issue i body s
      = .next (engineAlone body.length (accept (opcodeOf i) (word1Of i) (word0Of i) body s)) :=
  issueWord_undisturbed h hu.1 _ _ _ _

theorem accept_running {s : State} (h : s.idle = true) (op : Opcode) (a1 a0 : Word) (b : List Micro) :
    (accept op a1 a0 b s).running = true := by
  simp [running_iff, accept, ((idle_iff s).1 h).2]

theorem merge_allOnes (v x : Word) : merge (BitVec.allOnes 32) v x = v := by
  apply BitVec.eq_of_getLsbD_eq
  intro i hi
  simp only [getLsbD_merge, BitVec.getLsbD_allOnes, hi, decide_true, if_true]

theorem takenMask_allOnes {m : Regmap} (on : Bool) {n : RegName} (h1 : n ≠ .clkCr) (h2 : n ≠ .clkCfgr)
    (h3 : n ∈ pllRegs m → on = false) : takenMask m on n = BitVec.allOnes 32 := by
  have hro : roMask m n = 0 := by
    simp [roMask, roPlaces, placesMask, FixedField.place, FixedField.reg, Ne.symm h1, Ne.symm h2]
  have hpll : (if on = true then pllFieldsMask m n else 0) = 0 := by
    split
    · next ho => exact pllFieldsMask_of_not_mem fun hm => by simp [h3 hm] at ho
    · rfl
  rw [takenMask, hro, hpll]
  rfl

theorem afterWrite_of_ne {p : Params} {n : RegName} {v : Word} {f : RegFile} (h : n ≠ .clkCr) :
    afterWrite p n v f = f.set n (writtenReg p (f.pllOn p.regmap) n v (f.get n)) := by
  have : ∀ x, (f.set n x).pllOn p.regmap = f.pllOn p.regmap := by
    intro x
    unfold RegFile.pllOn
    rw [RegFile.clkCr_eq, RegFile.clkCr_eq, RegFile.get_set_of_ne f x (Ne.symm h)]
  unfold afterWrite clearsPll
  simp [this]

theorem writeHazard_of_ne {p : Params} {n : RegName} {x : Reg} {f : RegFile} (h1 : n ≠ .clkCr)
    (h2 : n ≠ .clkCfgr) : writeHazard p n f (f.set n x) = none := by
  have hc : (f.set n x).clkCr = f.clkCr := RegFile.get_set_of_ne f x (Ne.symm h1)
  have hg : (f.set n x).clkCfgr = f.clkCfgr := RegFile.get_set_of_ne f x (Ne.symm h2)
  unfold writeHazard clearsPll RegFile.pllOn
  simp [hc, hg, h2]

/-- A write of a register none of whose bits is guarded. -/
theorem memWrite_plain {who : Writer} {n : RegName} {v : Word} {s : State}
    (hb : s.params.binding = .production) (h1 : n ≠ .clkCr) (h2 : n ≠ .clkCfgr)
    (h3 : n ∈ pllRegs s.params.regmap → s.regs.pllOn s.params.regmap = false) :
    memWrite who n v s = logWrite who n v
      { s with regs := s.regs.set n ⟨v, merge (~~~ rwsMask s.params n) v (memRead s n)⟩ } := by
  have ha := afterWrite_of_ne (p := s.params) (v := v) (f := s.regs) h1
  have hz := writeHazard_of_ne (p := s.params) (x := writtenReg s.params (s.regs.pllOn s.params.regmap) n v (s.regs.get n))
    (f := s.regs) h1 h2
  rw [memWrite_of_ok hb (by rw [ha]; exact hz), ha]
  simp only [writtenReg, takenMask_allOnes _ h1 h2 h3, merge_allOnes, BitVec.allOnes_and, memRead]

/-- A masked write outside the settling bits takes effect whole. -/
theorem merge_not_of_disjoint {m k v x : Word} (h : m &&& k = 0) :
    merge (~~~ k) (merge m v x) x = merge m v x := by
  apply BitVec.eq_of_getLsbD_eq
  intro i hi
  have hk : (m &&& k).getLsbD i = false := by simp [h]
  simp only [BitVec.getLsbD_and] at hk
  simp only [getLsbD_merge, BitVec.getLsbD_not, hi, decide_true, Bool.true_and]
  cases hkk : k.getLsbD i <;> simp_all

/-- A masked write inside the settling bits shows nothing yet. -/
theorem merge_not_of_subset {m k v x : Word} (h : m &&& ~~~ k = 0) :
    merge (~~~ k) (merge m v x) x = x := by
  apply BitVec.eq_of_getLsbD_eq
  intro i hi
  have hk : (m &&& ~~~ k).getLsbD i = false := by simp [h]
  simp only [BitVec.getLsbD_and, BitVec.getLsbD_not, hi, decide_true, Bool.true_and] at hk
  simp only [getLsbD_merge, BitVec.getLsbD_not, hi, decide_true, Bool.true_and]
  cases hkk : k.getLsbD i <;> simp_all

/-- The engine with the plant quiet through a load and a store: what is left. -/
theorem engineAlone_maskedWrite {s : State} {n : RegName} {m v : Word} {rest : List Micro} (k : Nat)
    (hr : s.running = true) (hs : s.params.plantLive = true → s.Settled)
    (hp : s.ph = .load n :: .store n m v :: rest) :
    engineAlone (k + 2) s
      = engineAlone k (memWrite .engine n (merge m v (memRead s n)) { s with t := memRead s n, ph := rest }) := by
  rw [show k + 2 = (k + 1) + 1 from rfl, engineAlone_cons hr hs hp]
  simp only [runMicro]
  rw [engineAlone_cons (m := .store n m v) (rest := rest)]
  · rfl
  · simpa [State.running] using hr
  · intro hl; exact (settled_congr (s := s) rfl rfl rfl).2 (hs hl)
  · rfl

theorem engineAlone_done {s : State} {rest : List Micro} (k : Nat) (hr : s.running = true)
    (hs : s.params.plantLive = true → s.Settled) (hp : s.ph = .done :: rest) :
    engineAlone (k + 1) s = respond .ok s.val s := by
  rw [engineAlone_cons hr hs hp]
  exact engineAlone_of_not_running (by simp [State.running, runMicro]) _

theorem engineAlone_raise {s : State} {e : Status} {rest : List Micro} (k : Nat) (hr : s.running = true)
    (hs : s.params.plantLive = true → s.Settled) (hp : s.ph = .raise e :: rest) :
    engineAlone (k + 1) s = respond e 0 s := by
  rw [engineAlone_cons hr hs hp]
  exact engineAlone_of_not_running (by simp [State.running, runMicro, raiseError]) _

theorem engineAlone_fail {s : State} {f : Fault} {rest : List Micro} (k : Nat) (hr : s.running = true)
    (hs : s.params.plantLive = true → s.Settled) (hp : s.ph = .fail f :: rest) :
    engineAlone (k + 1) s = recordFault f s := by
  rw [engineAlone_cons hr hs hp]
  exact engineAlone_of_not_running (by simp [State.running, runMicro, recordFault]) _

/-- Whether a plant step can be taken, from the registers it looks at. -/
theorem plantCondition_set {p : Params} {f : RegFile} {n : RegName} {x : Reg} (h1 : n ≠ .clkCr) (h2 : n ≠ .clkCfgr)
    (q : PlantStep)
    (hq : ∀ sf, q = .settle sf → ∀ m, SettlingField.bits p sf = some (n, m) → pending m x = pending m (f.get n)) :
    plantCondition p (f.set n x) q = plantCondition p f q := by
  have hc : (f.set n x).clkCr = f.clkCr := RegFile.get_set_of_ne f x (Ne.symm h1)
  have hg : (f.set n x).clkCfgr = f.clkCfgr := RegFile.get_set_of_ne f x (Ne.symm h2)
  cases q with
  | oscReady => simp [plantCondition, hc]
  | pllLock => simp [plantCondition, RegFile.pllOn, hc]
  | muxSwitch => simp [plantCondition, selectable, hc, hg]
  | settle sf =>
    simp only [plantCondition]
    cases hb : SettlingField.bits p sf with
    | none => rfl
    | some nm =>
      obtain ⟨k, m⟩ := nm
      simp only
      by_cases hk : k = n
      · subst hk; simp [hq sf rfl m hb]
      · rw [RegFile.get_set_of_ne f x hk]

theorem settled_iff (s : State) : s.Settled ↔ ∀ q ∈ plantSteps s.params, plantEnabled s q = false := by
  simp [State.Settled, List.all_eq_true]

theorem pending_same (m v : Word) : pending m ⟨v, v⟩ = false := by simp [pending]

/-- A register whose settled value is replaced by a settled value leaves the plant settled. -/
theorem settled_set {s s' : State} {n : RegName} {v : Word} (h : s.Settled) (hp : s'.params = s.params)
    (hf : s'.fault = s.fault) (hr : s'.regs = s.regs.set n ⟨v, v⟩) (h1 : n ≠ .clkCr) (h2 : n ≠ .clkCfgr) :
    s'.Settled := by
  rw [settled_iff] at h ⊢
  intro q hq
  rw [hp] at hq
  have := h q hq
  unfold plantEnabled at this ⊢
  rw [hp, hf, hr]
  cases hc : plantCondition s.params (s.regs.set n ⟨v, v⟩) q with
  | false => simp
  | true =>
    have hc' : plantCondition s.params s.regs q = true := by
      cases q with
      | settle sf =>
        simp only [plantCondition] at hc ⊢
        cases hb : SettlingField.bits s.params sf with
        | none => simp [hb] at hc
        | some nm =>
          obtain ⟨k, m⟩ := nm
          simp only [hb] at hc ⊢
          by_cases hk : k = n
          · subst hk; simp [pending_same] at hc
          · rwa [RegFile.get_set_of_ne s.regs _ hk] at hc
      | oscReady => rwa [plantCondition_set h1 h2 _ (by intro sf h; cases h)] at hc
      | pllLock => rwa [plantCondition_set h1 h2 _ (by intro sf h; cases h)] at hc
      | muxSwitch => rwa [plantCondition_set h1 h2 _ (by intro sf h; cases h)] at hc
    simpa [hc'] using this

/-- The plant answers a pending write: every field with a write pending settles to the written word. -/
theorem plantAlone_answers {s s1 : State} {n : RegName} {v : Word}
    (hs : s.Settled) (hl : s.params.plantLive = true) (hp : s1.params = s.params) (hf : s1.fault = s.fault)
    (h1 : n ≠ .clkCr) (h2 : n ≠ .clkCfgr)
    (hr : s1.regs = s.regs.set n ⟨v, memRead s n⟩) (hb : s.params.binding = .production) (hnf : s.fault = none)
    (hone : v ≠ memRead s n → ∃ sf ∈ settlingFields s.params, ∃ m, SettlingField.bits s.params sf = some (n, m)
      ∧ pending m ⟨v, memRead s n⟩ = true)
    (hall : ∀ sf m, SettlingField.bits s.params sf = some (n, m) → pending m ⟨v, memRead s n⟩ = true →
      merge m v (memRead s n) = v)
    (hsafe : ∀ sf m, SettlingField.bits s.params sf = some (n, m) → plantChecked (.settle sf) = true →
      (s.regs.set n ⟨v, v⟩).safe s.params = true) :
    plantAlone s1 = { s1 with regs := s.regs.set n ⟨v, v⟩ }
      ∧ ({ s1 with regs := s.regs.set n ⟨v, v⟩ } : State).Settled := by
  have hset : ({ s1 with regs := s.regs.set n ⟨v, v⟩ } : State).Settled := settled_set hs hp hf rfl h1 h2
  refine ⟨?_, hset⟩
  by_cases hv : v = memRead s n
  · rw [plantAlone_of_settled]
    · rw [← hv] at hr; rw [← hr]
    · intro _; rw [← hv] at hr; exact settled_set hs hp hf hr h1 h2
  · have hsteps : ∀ q ∈ plantSteps s.params, plantEnabled s1 q = true →
        ∃ sf m, q = .settle sf ∧ SettlingField.bits s.params sf = some (n, m) ∧ pending m ⟨v, memRead s n⟩ = true := by
      intro q hq he
      have hn := (settled_iff s).1 hs q hq
      have hcs : plantCondition s.params s.regs q = false := by simpa [plantEnabled, hb, hnf] using hn
      have hc1 : plantCondition s.params (s.regs.set n ⟨v, memRead s n⟩) q = true := by
        simp only [plantEnabled, hp, hr, Bool.and_eq_true] at he; exact he.2
      by_contra hcon
      rw [plantCondition_set h1 h2 q] at hc1
      · rw [hcs] at hc1; cases hc1
      · intro sf hsf m hbits
        subst hsf
        have hpend : pending m ⟨v, memRead s n⟩ = false := by
          by_contra h; exact hcon ⟨sf, m, rfl, hbits, by simpa using h⟩
        rw [hpend]
        have : plantCondition s.params s.regs (.settle sf) = pending m (s.regs.get n) := by
          simp [plantCondition, hbits]
        rw [← this, hcs]
    apply plantAlone_of_common
    · rw [hp]; exact hl
    · obtain ⟨sf, hmem, m, hbits, hpend⟩ := hone hv
      refine ⟨.settle sf, ?_, ?_⟩
      · rw [hp]; unfold plantSteps; simp [hmem]
      · unfold plantEnabled
        rw [hp, hf, hr, hb, hnf]
        simp [plantCondition, hbits, hpend]
    · intro q hq he
      rw [hp] at hq
      obtain ⟨sf, m, rfl, hbits, hpend⟩ := hsteps q hq he
      have heff : plantEffect s1.params s1.regs (.settle sf) = s.regs.set n ⟨v, v⟩ := by
        rw [hp, hr]
        simp only [plantEffect, hbits, RegFile.get_set_same, hall sf m hbits hpend]
        apply RegFile.ext_get; intro k
        simp only [RegFile.get_set]; split <;> rfl
      rcases plantStep_cases (.settle sf) s1 with ⟨h, _⟩ | ⟨_, hc, hu, _⟩ | ⟨_, _, h⟩
      · rw [he] at h; cases h
      · exfalso
        rw [heff, hp, hsafe sf m hbits hc] at hu; cases hu
      · rw [h, heff]
    · rfl
    · exact hset

end Sys2Proof.Machine
end

