-- ==== Sys2Proof/Laws/Step.lean ====
section
/-! SUPPORT. Everything one step of the machine can do, said once: a property that each agent's moves keep is kept by
every step. -/

namespace Sys2Proof.Machine

/-- A `SEQ_RUN` that answers a next state did not find the Sequencer midway. -/
theorem seqMidway_of_next {cfg : PllWord} {pw : PowerWord} {s t : State} (h : exec (.seqRun cfg pw) s = .next t) :
    seqMidway s.seq = false := by
  have hi := (exec_next h).1
  cases hm : seqMidway s.seq with
  | false => rfl
  | true => simp [exec, execSeqRun, hi, hm] at h

/-- The reserved command word runs like any other once accepted. -/
theorem issueReserved_next {cw : CommandWord} {s t : State} (h : issueReserved cw s = .next t) :
    s.idle = true ∧
      runTurns s.agenda (accept (opOf cw) (a1Of cw) (a0Of cw) [.raise .invalidParameter] s) = .next t := by
  unfold issueReserved issueWord at h
  split at h
  · cases h
  · next hf =>
    split at h
    · cases h
    · next hb => exact ⟨(idle_iff s).2 ⟨by simpa using hb, hf⟩, h⟩

/-- A turn takes nothing from the agenda and adds nothing to it. -/
theorem turnStep_agenda {tn : Turn} {s u : State} (h : turnStep tn s = .next u) : u.agenda = s.agenda := by
  cases tn with
  | go => simp only [turnStep] at h; cases h; simp
  | plant q => simp only [turnStep] at h; cases h; simp
  | port a => simp only [turnStep, portStep] at h; (repeat' split at h) <;> cases h <;> simp
  | force q v => simp only [turnStep, forceStep] at h; (repeat' split at h) <;> cases h <;> rfl
  | reset => simp only [turnStep] at h; cases h; simp

/-- A step of a running command goes on with the turns listed. -/
theorem step_of_running {s : State} (h : s.running = true) : step s = runTurns s.agenda s := by
  have hb : s.busy = true ∧ s.fault = none := by simpa [State.running] using h
  simp [step, choose, hb.1, hb.2]

/-- The induction over a step: a property that does not look at the requester or the agenda, and that every turn, every
plant step, every micro-step and the acceptance of any command keep, is kept by the step. -/
theorem step_keeps {P : State → Prop} (hagenda : ∀ s ts, P s → P { s with agenda := ts })
    (hrequests : ∀ s qs, P s → P { s with requests := qs })
    (hplant : ∀ q s, P s → P (plantStep q s)) (hengine : ∀ s, P s → P (engineStep s))
    (hturn : ∀ tn s s', P s → turnStep tn s = .next s' → P s')
    (haccept : ∀ s i, P s → s.idle = true → ((∃ cfg pw, i = .seqRun cfg pw) → seqMidway s.seq = false) →
      P (accept (opcodeOf i) (word1Of i) (word0Of i) (programOf i s) s))
    (hreserved : ∀ s op a1 a0, P s → s.idle = true → P (accept op a1 a0 [.raise .invalidParameter] s))
    {s t : State} (hs : P s) (h : step s = .next t) : P t := by
  have hrun : ∀ ts u, P u → runTurns ts u = .next t → P t := fun ts u hu e =>
    runTurns_keeps hagenda hplant hengine (fun tn _ u u' => hturn tn u u') hu e
  have hcommand : ∀ u i s', P u → present u = .command i s' → P s' := by
    intro u i s' hu e
    unfold present at e
    split at e
    · cases e
    · split at e
      · cases e
      · split at e
        · cases e; exact hrequests _ _ hu
        · cases e
  have hother : ∀ u o, P u → present u = .other o → o = .next t → P t := by
    intro u o hu e ho
    unfold present at e
    split at e
    · cases e
      cases ho
      split
      · exact plantAlone_keeps hplant hu
      · exact hu
    · next q qs _ =>
      split at e
      · cases e; cases ho; exact hrequests _ _ hu
      · split at e
        · cases e
        · cases e
          obtain ⟨hi, hr⟩ := issueReserved_next ho
          exact hrun _ _ (hreserved _ _ _ _ (hrequests _ qs hu) hi) hr
  unfold step at h
  split at h
  · next i s' hc =>
    obtain ⟨hi, hr⟩ := exec_next h
    refine hrun _ _ (haccept _ i ?_ hi ?_) hr
    · unfold choose at hc
      split at hc
      · split at hc <;> cases hc
      · split at hc
        · cases hc
        · split at hc
          · exact hcommand _ _ _ hs hc
          · exact hcommand _ _ _ (hagenda _ _ hs) hc
          · cases hc
    · rintro ⟨cfg, pw, rfl⟩
      exact seqMidway_of_next h
  · next o hc =>
    unfold choose at hc
    split at hc
    · split at hc
      · cases hc; exact hturn .reset _ _ (hagenda _ _ hs) h
      · cases hc; cases h
    · split at hc
      · cases hc; exact hrun _ _ hs h
      · split at hc
        · exact hother _ _ hs hc h
        · exact hother _ _ (hagenda _ _ hs) hc h
        · cases hc; exact hturn _ _ _ (hagenda _ _ hs) h

end Sys2Proof.Machine
end

