-- ==== Sys2Proof/Tests/Slice0.lean ====
section
/-! SUPPORT. Tests of the model against spec/95_test_vectors.md and the worked examples of the section files, the
well-formedness smoke tests, and for each obligation with hypotheses a state and operands that meet them. -/

namespace Sys2Proof.Tests

open Sys2Proof Sys2Proof.Machine

set_option Elab.async false

/-! ## Helpers -/

/-- A property of the next state, false where there is none. -/
def next (o : Host.Outcome State Fault Refusal) (p : State → Bool) : Bool :=
  match o with
  | .next s => p s
  | .fault _ => false
  | .refused _ => false

/-- The refusal, if the outcome is one. -/
def refusal (o : Host.Outcome State Fault Refusal) : Option Refusal :=
  match o with
  | .refused r => some r
  | .next _ => none
  | .fault _ => none

theorem exists_of_next {o : Host.Outcome State Fault Refusal} {p : State → Bool} (h : next o p = true) :
    ∃ t, o = .next t ∧ p t = true := by
  cases o with
  | next s => exact ⟨s, rfl, h⟩
  | fault _ => cases h
  | refused _ => cases h

/-- A state with one register set, nothing pending. -/
def withReg (n : RegName) (v : Word) (s : State) : State := { s with regs := s.regs.set n ⟨v, v⟩ }

/-- A state whose plant never moves of itself. -/
def still (s : State) : State := { s with params := { s.params with plantLive := false } }

/-- A state in the test binding. -/
def inTest (s : State) : State := { s with params := { s.params with binding := .test } }

/-- The state after reset with the default profile. -/
def base : State := .reset

/-- The map of the state after reset. -/
def map : Regmap := defaultRegmap

/-- A map that splits the PLL fields (R130): M and P stay in `PLL_CFGR`, N is in `PWR_CR`, Q and the source in `CLK_CR`; the
registers lie by falling addresses, and `GPIOEN[k]` is bit `31 - k`. -/
def splitMap : Regmap :=
  { defaultRegmap with
    pwrCrAddr := 0x11C, flashAcrAddr := 0x118, clkCrAddr := 0x114, pllCfgrAddr := 0x110
    clkCfgrAddr := 0x10C, gateAhb1Addr := 0x108, gateApb1Addr := 0x104, gateApb2Addr := 0x100
    plln := ⟨.pwrCr, 16⟩, pllq := ⟨.clkCr, 8⟩, pllsrc := ⟨.clkCr, 12⟩
    gpioen := #v[31, 30, 29, 28, 27, 26, 25, 24] }

/-- A state with another map. -/
def remapped (m : Regmap) (s : State) : State := { s with params := { s.params with regmap := m } }

/-- A register file with a given `PLL_CFGR` word. -/
def pllFile (g : Word) : RegFile := base.regs.set .pllCfgr ⟨g, g⟩

/-- The source's scenario E5: 84 MHz from the PLL, APB1 divided by 2 (95_test_vectors, the end state of P1). -/
def tree : State :=
  withReg .clkCfgr 0x0000100A <| withReg .pllCfgr 0x28015410 <| withReg .clkCr 0x03000083 <|
    withReg .flashAcr 0x00000002 base

/-- Reset and then `PLL_ENABLE` with the lock made (V68, P5). -/
def pllOnBase : State := withReg .clkCr 0x03000083 base

/-- The state with the PLL selected and given `PLL_CFGR` and `CLK_CFGR` words. -/
def selected (g c : Word) : State := withReg .pllCfgr g <| withReg .clkCfgr c tree

/-- A command word presented next, and one step. -/
def run (w : Nat) (s : State) : Host.Outcome State Fault Refusal := step (s.withFetchWord 72 w)

/-- The response of a command word: `ST` and `RV` of a final state. -/
def answers (w : Nat) (s : State) (e : Status) (v : Word) : Bool :=
  next (run w s) fun t => t.st == e && t.rv == v && !t.busy && t.fault.isNone

/-- The engine's writes of a command word that ends `OK`. -/
def writes (w : Nat) (s : State) (l : List (Word × Word)) : Bool :=
  next (run w s) fun t => t.st == .ok && t.rv == 0 && !t.busy && t.fault.isNone && t.wlog == s.wlog ++ l

/-- A command word rejected with no access: the register file and `WLOG` as before. -/
def rejected (w : Nat) (s : State) (e : Status) : Bool :=
  next (run w s) fun t =>
    t.st == e && t.rv == 0 && !t.busy && t.fault.isNone && t.regs == s.regs && t.wlog == s.wlog && t.seq == s.seq

/-- A command word that faults, with the writes made before. -/
def faults (w : Nat) (s : State) (f : Fault) (writesMade : Nat) (q : SeqState) : Bool :=
  next (run w s) fun t =>
    t.fault == some f && t.busy && t.st == s.st && t.rv == s.rv && t.seq == q
      && t.wlog.length == s.wlog.length + writesMade

/-! ## Well-formedness: each check refuses a term -/

theorem test_wf_accepts : Instr.wellFormed (.seqRun bootTarget ⟨0, 1, 2⟩) = true := by decide
theorem test_wf_ignored_a1 : Instr.wellFormed (.getFreq 4 1) = false := by decide
theorem test_wf_ignored_a1_of_scaling : Instr.wellFormed (.setScaling 0 1) = false := by decide
theorem test_wf_ignored_a1_of_latency : Instr.wellFormed (.setLatency 2 1) = false := by decide
theorem test_wf_ignored_a0 : Instr.wellFormed (.enableCache 1 0) = false := by decide
theorem test_wf_ignored_a1_of_cache : Instr.wellFormed (.enableCache 0 1) = false := by decide
theorem test_wf_ignored_a0_of_prefetch : Instr.wellFormed (.enablePrefetch 1 0) = false := by decide
theorem test_wf_ignored_a0_of_enable : Instr.wellFormed (.pllEnable 1 0) = false := by decide
theorem test_wf_ignored_a1_of_wait : Instr.wellFormed (.pllWaitLock 0 1) = false := by decide
theorem test_wf_ignored_a1_of_configure : Instr.wellFormed (.pllConfigure bootTarget 1) = false := by decide
theorem test_wf_ignored_a1_of_gpio : Instr.wellFormed (.gateGpio 0 1) = false := by decide
theorem test_wf_ignored_a1_of_usart : Instr.wellFormed (.gateUsart 2 1) = false := by decide
theorem test_wf_pll_reserved : Instr.wellFormed (.pllConfigure ⟨1, 0, 8, 4, 336, 16⟩ 0) = false := by decide
theorem test_wf_power_reserved : Instr.wellFormed (.seqRun bootTarget ⟨1, 1, 2⟩) = false := by decide

/-! ## Decoding: words written out from R80 to R85 -/

theorem test_decode_getFreq : decode 0x010000000000000004 = .ok (.getFreq 4 0) := by rfl
theorem test_decode_setScaling : decode 0x020000000000000001 = .ok (.setScaling 1 0) := by rfl
theorem test_decode_setLatency : decode 0x030000000000000002 = .ok (.setLatency 2 0) := by rfl
/-- V83: both operand words are ignored words. -/
theorem test_decode_enableCache : decode 0x04123456789ABCDEF0 = .ok (.enableCache 0x9ABCDEF0 0x12345678) := by rfl
theorem test_decode_enablePrefetch : decode 0x050000000000000000 = .ok (.enablePrefetch 0 0) := by rfl
/-- V43: every field of the PllWord at its largest legal value. -/
theorem test_decode_pllConfigure :
    decode 0x060000000000FC6C3F = .ok (.pllConfigure ⟨0, 1, 15, 8, 432, 63⟩ 0) := by rfl
theorem test_decode_pllEnable : decode 0x070000000000000000 = .ok (.pllEnable 0 0) := by rfl
theorem test_decode_pllWaitLock : decode 0x080000000000000000 = .ok (.pllWaitLock 0 0) := by rfl
/-- The word, bit by bit: op 0x09; PowerWord 0, LEVEL 1, WS 2; PllWord 0, SRC 0, Q 8, P 4, N 336, M 16 (R84, R85). -/
theorem test_decode_seqRun :
    decode 0b000010010000000000000000000000010000001000000000010000100101010000010000
      = .ok (.seqRun ⟨0, 0, 8, 4, 336, 16⟩ ⟨0, 1, 2⟩) := by rfl
/-- V84: `a1` is an ignored word. -/
theorem test_decode_gateGpio : decode 0x0A0000000100000000 = .ok (.gateGpio 0 1) := by rfl
theorem test_decode_gateUsart : decode 0x0B0000000000000002 = .ok (.gateUsart 2 0) := by rfl
/-- V80, V81, V82. -/
theorem test_decode_reserved :
    decode 0x000000000000000000 = .error (.reservedOpcode 0x00)
    ∧ decode 0x0C0000000000000000 = .error (.reservedOpcode 0x0C)
    ∧ decode 0xFFFFFFFFFFFFFFFFFF = .error (.reservedOpcode 0xFF) := ⟨rfl, rfl, rfl⟩
theorem test_encode_seqRun : encode (.seqRun bootTarget ⟨0, 1, 2⟩) = 0x090000010200425410 := by rfl
theorem test_decode_table_word : decodeTableWord 72 0x0B0000000000000006 = some (.gateUsart 6 0) := by rfl

/-! ## The text form -/

/-- R89: a comment is dropped, a hexadecimal numeral is read, a bank has a name. -/
theorem test_assemble_bank :
    assemble "GATE_GPIO H ; the last bank".toList = assemble "enable_gpio_bank(0x7)".toList := by decide +kernel
/-- R89: a value too wide for its field is an error. -/
theorem test_assemble_too_wide :
    assemble "PLL_CONFIGURE M=64, N=336, P=4, Q=8, SRC=0".toList = .error .tooWide := by decide +kernel
/-- R90: three commands. -/
theorem test_assemble_bringup :
    assemble "BRINGUP M=16, N=336, P=4, Q=8, SRC=0, LEVEL=HIGH, WS=2".toList
      = .ok [⟨0x030000000000000002, false⟩, ⟨0x020000000000000001, true⟩,
          ⟨0x090000010200425410, true⟩] := by decide +kernel

/-! ## GET_FREQ -/

/-- E5: APB1 peripheral and timer clocks of the scenario. -/
theorem test_getFreq_scenario :
    (answers 0x010000000000000002 tree .ok 42000000 && answers 0x010000000000000004 tree .ok 84000000) = true := by
  decide +kernel
/-- V8 (unknown source) and V7e (`PLLM = 0`). -/
theorem test_getFreq_no_value :
    (answers 0x010000000000000005 (inTest (withReg .clkCfgr 0x00000004 base)) .notAvailable 0
      && faults 0x010000000000000000 (selected 0x20001900 0x0000000A) .divideByZero 0 .uninitialized) = true := by
  decide +kernel
/-- V5, V7, V7b: every division truncates, in the source's order. -/
theorem test_pllOut_order :
    pllOut 3 50 2 = .ok 133333325 ∧ pllOut 3 50 4 = .ok 66666662 ∧ pllOut 13 77 8 = .ok 11846151 := by decide
/-- V3, V7c, V7d, V7f: the edges of 32 bits. -/
theorem test_pllOut_overflow :
    pllOut 2 432 2 = .ok 1728000000 ∧ pllOut 1 268 2 = .ok 2144000000
    ∧ pllOut 1 269 2 = .error .freqOverflow ∧ pllOut 2 511 2 = .ok 2044000000 := by decide
/-- V24, V25, V26: truncation before doubling, APB taken from the core clock. -/
theorem test_domainFreq_truncates :
    domainFreq map .apb1Timer 66666662 0x00001400 = 33333330
    ∧ domainFreq map .apb1Periph 66666662 0x00001080 = 16666665
    ∧ domainFreq map .apb2Timer 84000000 0x0000E0F0 = 20506 := by decide

/-! ## The leaf controllers -/

/-- V30. -/
theorem test_setScaling_high :
    writes 0x020000000000000001 (withReg .pwrCr 0x00004000 base) [(0x40007000, 0x00008000)] = true := by
  decide +kernel
/-- V33. -/
theorem test_setScaling_undefined :
    faults 0x020000000000000002 base .undefinedScalingLevel 0 .uninitialized = true := by decide +kernel
/-- V34. -/
theorem test_setLatency_two :
    writes 0x030000000000000002 (withReg .flashAcr 0x00000700 base) [(0x40023C00, 0x00000702)] = true := by
  decide +kernel
/-- V36, V37: the whole operand is compared. -/
theorem test_setLatency_too_large :
    (rejected 0x030000000000000010 base .invalidParameter
      && rejected 0x0300000000FFFFFFFF base .invalidParameter) = true := by decide +kernel
/-- V38. -/
theorem test_enableCache :
    writes 0x040000000000000000 (withReg .flashAcr 0x00000002 base) [(0x40023C00, 0x00000602)] = true := by
  decide +kernel
/-- V40. -/
theorem test_enablePrefetch :
    writes 0x050000000000000000 (withReg .flashAcr 0x00000602 base) [(0x40023C00, 0x00000702)] = true := by
  decide +kernel
/-- V41, V43, V44. -/
theorem test_pllConfigure_fields :
    (writes 0x060000000000425410 base [(0x40023804, 0x28015410)]
      && writes 0x060000000000FC6C3F base [(0x40023804, 0x2F436C3F)]
      && writes 0x060000000000010C82 base [(0x40023804, 0x20000C82)]) = true := by decide +kernel
/-- V45, V45c, V45e, V45g, V46, V46a. -/
theorem test_pllConfigure_rejects :
    (rejected 0x060000000000425401 base .invalidParameter && rejected 0x060000000000426C50 base .invalidParameter
      && rejected 0x060000000000405410 base .invalidParameter && rejected 0x060000000001425410 base .invalidParameter
      && faults 0x060000000000425410 pllOnBase .pllReconfigWhileRunning 0 .uninitialized
      && rejected 0x060000000000425401 pllOnBase .invalidParameter) = true := by decide +kernel
/-- V47. -/
theorem test_pllEnable : writes 0x070000000000000000 base [(0x40023800, 0x01000083)] = true := by decide +kernel
/-- V48. -/
theorem test_pllWaitLock_locked : writes 0x080000000000000000 pllOnBase [] = true := by decide +kernel
/-- V49: with the PLL off the command waits for ever. -/
theorem test_pllWaitLock_hangs :
    next (run 0x080000000000000000 base) (fun t =>
      t.busy && t.fault.isNone && t.ph == [.poll .clkCr 0x02000000 0x02000000, .done]
        && memRead t .clkCr == 0x00000083) = true := by
  decide +kernel

/-! ## The gates -/

/-- V51. -/
theorem test_gateGpio_last :
    writes 0x0A0000000000000007 (withReg .gateAhb1 0x00000001 base) [(0x40023830, 0x00000081)] = true := by
  decide +kernel
/-- V52. -/
theorem test_gateGpio_unknown :
    rejected 0x0A0000000000000008 (withReg .gateAhb1 0x00000081 base) .invalidParameter = true := by decide +kernel
/-- V54, V56. -/
theorem test_gateUsart_known :
    (writes 0x0B0000000000000002 base [(0x40023840, 0x00020000)]
      && writes 0x0B0000000000000006 (withReg .gateApb2 0x00000010 base) [(0x40023844, 0x00000030)]) = true := by
  decide +kernel
/-- V57, V58. -/
theorem test_gateUsart_unknown :
    (rejected 0x0B0000000000000003 base .invalidParameter
      && rejected 0x0B0000000000000000 base .invalidParameter) = true := by decide +kernel

/-! ## Another map -/

/-- R130: one write for each register that holds some of the fields, in the order M, N, P, Q, source. -/
theorem test_pllConfigure_split :
    (writes 0x060000000000FC6C3F (remapped splitMap base)
        [(0x110, 0x2403303F), (0x11C, 0x01B08000), (0x114, 0x00001F83)]
      && next (run 0x060000000000FC6C3F (remapped splitMap base)) fun t =>
        (t.regs.rd splitMap .plln).toNat == 432 && (t.regs.rd splitMap .pllq).toNat == 15) = true := by decide +kernel
/-- R23, R66: another bit and another address for the same bank. -/
theorem test_gateGpio_remapped :
    writes 0x0A0000000000000007 (remapped splitMap base) [(0x108, 0x01000000)] = true := by decide +kernel
/-- R50, R51: the registers of that map, by rising address. -/
theorem test_registers_by_address :
    regsByAddress splitMap
      = [.gateApb2, .gateApb1, .gateAhb1, .clkCfgr, .pllCfgr, .clkCr, .flashAcr, .pwrCr] := by decide +kernel
/-- R5: the map is an argument, and both maps are well-formed. -/
theorem test_maps_wellFormed : mapWf base.params ∧ mapWf (remapped splitMap base).params := by decide +kernel

/-! ## The Sequencer -/

/-- V60: the complete run, its five writes and its end state (P1 without its first line). -/
theorem test_seqRun_completes :
    (writes 0x090000010200425410 base
        [(0x40007000, 0x00008000), (0x40023C00, 0x00000002), (0x40023804, 0x28015410),
         (0x40023800, 0x01000083), (0x40023808, 0x00000002)]
      && next (run 0x090000010200425410 base) fun t =>
        t.seqState == 7 && memRead t .clkCr == 0x03000083 && memRead t .clkCfgr == 0x0000000A) = true := by
  decide +kernel
/-- V62, V64, V67, V68, V69, V70: the checks in their order, and the hazards. -/
theorem test_seqRun_checks :
    (rejected 0x09FFFFFFFFFFFFFFFF { base with seq := .complete } .alreadyInitialized
      && rejected 0x090000011000425410 base .invalidParameter
      && rejected 0x090000021000425410 base .invalidParameter
      && faults 0x090000010200425410 pllOnBase .pllReconfigWhileRunning 2 .latencySet
      && faults 0x090000010100425410 base .flashTiming 5 .pllLocked
      && faults 0x090000000200425410 base .flashTiming 5 .pllLocked) = true := by decide +kernel

/-! ## The register file, the plant and the port -/

/-- V90: the fields of a running PLL keep their values, the other bits are stored. -/
theorem test_write_running_pll : memRead (memWrite .port .pllCfgr 0 tree) .pllCfgr = 0x08015410 := by decide +kernel
/-- V91: switching the PLL off takes its lock flag with it. -/
theorem test_write_pll_off : memRead (memWrite .port .clkCr 0x00000083 pllOnBase) .clkCr = 0x00000083 := by
  decide +kernel
/-- V91a, V92, V93: the clock glitches. -/
theorem test_write_glitches :
    memWrite .port .clkCr 0x00000083 tree = recordFault .clockGlitch tree
    ∧ memWrite .port .clkCfgr 0x00000002 base = recordFault .clockGlitch base
    ∧ memWrite .port .clkCfgr 0x00000001 base = recordFault .clockGlitch base := by decide +kernel
/-- V94: `SWS` is read-only. -/
theorem test_write_status_ignored : memRead (memWrite .port .clkCfgr 0x0000000C base) .clkCfgr = 0 := by
  decide +kernel
/-- V95: the port's write falls between the read and the write of `GATE_GPIO A` and is lost. -/
theorem test_interleaved_write_is_lost :
    let free : State := { base with params := { base.params with allowInterleave := true } }
    let s : State := { free with agenda := [.go, .port ⟨0x40023830, 4, some 0x00000002⟩, .go] }
    next (exec (.gateGpio 0 0) s) (fun t => (t.regs.get .gateAhb1).w == 0x00000001) = true := by decide +kernel
/-- U20, R50: an aligned word at no register. -/
theorem test_port_no_register :
    refusal (portStep ⟨0x4002380C, 4, none⟩ base) = some .portNoRegister := by decide +kernel
/-- R32: a gate enable is forced, the other bits of its register kept. -/
theorem test_force_gate :
    next (forceStep (.usarten 6) 1 (inTest (withReg .gateApb2 0x00000010 base))) (fun t =>
      t.regs.gateApb2 == ⟨0x00000030, 0x00000030⟩) = true := by decide +kernel
/-- R61: without interleaving the port does not step while a command runs. -/
theorem test_interleaving_refused :
    refusal (exec (.gateGpio 0 0) { base with agenda := [.go, .port ⟨0x40023830, 4, some 0x00000002⟩] })
      = some .portWhileBusy := by decide +kernel
/-- V96: fewer wait states at 84 MHz fault when they settle. -/
theorem test_settle_too_few :
    (plantStep (.settle .latency) (memWrite .port .flashAcr 0 tree)).fault = some .flashTiming := by decide +kernel
/-- P4: `Force` of the source status in the test binding. -/
theorem test_force_source :
    next (forceStep (.fixed .sws) 0b01 (inTest base)) (fun t => memRead t .clkCfgr == 0x00000004) = true := by
  decide +kernel
/-- R51, R50: the bytes of `PLL_CFGR` after reset, lowest first, and an address that is none. -/
theorem test_bytes :
    base.regs.byteAt map 0x40023804 = some 0x10 ∧ base.regs.byteAt map 0x40023805 = some 0x30
    ∧ base.regs.byteAt map 0x40023807 = some 0x24 ∧ base.regs.byteAt map 0x4002380C = none := by decide +kernel
/-- R40, R26: the reset words of 95_test_vectors part 3. -/
theorem test_reset_words :
    (regsByAddress map).map (fun n => memRead base n)
      = [0x00008000, 0x00000083, 0x24003010, 0, 0, 0, 0, 0] := by decide +kernel

/-! ## Witnesses: for each obligation with hypotheses, states and operands that meet them, clause by clause -/

/-- The block at the poll of `PLL_WAIT_LOCK` with the PLL off (V49). -/
def hung : State := { base with op := 0x08, busy := true, ph := doWaitLock map ++ [.done] }

/-- A machine with no live plant whose mux shows an unwired source. -/
def unwired : State := still (withReg .clkCfgr 0x00000004 base)

theorem witness_EncodeOfDecodeIsTheWord :
    decode 0x04123456789ABCDEF0 = .ok (.enableCache 0x9ABCDEF0 0x12345678) := by rfl

theorem witness_OpcodeSelectsTheCommand :
    ((0x00 : Opcode) = 0x00 ∨ 0x0C ≤ (0x00 : Opcode).toNat) ∧ ((0x0C : Opcode) = 0x00 ∨ 0x0C ≤ (0x0C : Opcode).toNat)
    ∧ ((0xFF : Opcode) = 0x00 ∨ 0x0C ≤ (0xFF : Opcode).toNat) := by decide

theorem witness_BringupStopsAtTheFirstError :
    let s : State := { base with st := .invalidParameter, requests := [⟨0x020000000000000001, true⟩] }
    s.idle = true ∧ s.agenda = [] ∧ s.requests = ⟨0x020000000000000001, true⟩ :: [] ∧ s.st ≠ .ok := by decide +kernel

/-- Both ways the block's turn comes: listed, and with nothing listed. -/
theorem witness_StepRunsThePresentedCommand :
    let q : Request := ⟨0x040000000000000000, true⟩
    let s : State := { base with requests := [q] }
    let s' : State := { base with requests := [q], agenda := [.go, .reset] }
    (s.idle = true ∧ s.requests = q :: [] ∧ (q.onlyIfOk = true → s.st = .ok)
      ∧ (s.agenda = .go :: [] ∨ (s.agenda = [] ∧ ([] : List Turn) = [])))
    ∧ (s'.idle = true ∧ s'.requests = q :: [] ∧ (q.onlyIfOk = true → s'.st = .ok)
      ∧ (s'.agenda = .go :: [.reset] ∨ (s'.agenda = [] ∧ [Turn.reset] = []))) := by decide +kernel

/-- Another agent's turn in an idle block; in a running command, a turn after which it runs on, one after which it does not, and one
that is refused. -/
theorem witness_StepRunsThePresentedCommand_turns :
    (let s : State := { base with agenda := [.port ⟨0x40023C00, 4, some 2⟩, .go] }
     s.idle = true ∧ s.agenda = .port ⟨0x40023C00, 4, some 2⟩ :: [.go]
      ∧ Turn.port ⟨0x40023C00, 4, some 2⟩ ≠ .go)
    ∧ (let s : State := { hung with agenda := [.plant .oscReady, .reset, .go] }
       s.running = true ∧ s.agenda = .plant .oscReady :: [.reset, .go]
        ∧ next (turnStep (.plant .oscReady) { s with agenda := [.reset, .go] }) (fun u => u.running) = true)
    ∧ (let s : State := { hung with agenda := [.reset, .go] }
       next (turnStep .reset { s with agenda := [.go] }) (fun u => !u.running) = true)
    ∧ (let s : State := { hung with agenda := [.port ⟨0x40023C00, 4, none⟩] }
       turnStep (.port ⟨0x40023C00, 4, none⟩) { s with agenda := [] } = .refused .portWhileBusy) :=
  ⟨by decide +kernel, by decide +kernel, by decide +kernel, rfl⟩

/-- A load, a store, a poll that holds and one that does not. -/
theorem witness_StepRunsThePresentedCommand_microSteps :
    (let u : State := { hung with ph := maskedWrite .flashAcr 0xF 2 }
     u.running = true ∧ u.ph = .load .flashAcr :: [.store .flashAcr 0xF 2]
      ∧ (engineStep u).ph = .store .flashAcr 0xF 2 :: [])
    ∧ (hung.running = true ∧ hung.ph = .poll .clkCr 0x02000000 0x02000000 :: [.done]
      ∧ memRead hung .clkCr &&& 0x02000000 ≠ 0x02000000)
    ∧ (let u : State := { hung with regs := tree.regs }
       u.running = true ∧ memRead u .clkCr &&& 0x02000000 = 0x02000000) := by decide +kernel

/-- The lost update of R56, which a command and a port write between its two halves make (R61). -/
theorem test_lost_update :
    let p : Params := { base.params with allowInterleave := true }
    let s : State := { base with params := p, agenda := [.go, .port ⟨0x40023C00, 4, some 0x00000100⟩] }
    next (exec (.enableCache 0 0) s) (fun t =>
      t.st == .ok && memRead t .flashAcr == 0x00000600
        && t.wlog == [(0x40023C00, 0x00000600)] && t.plog == [(0x40023C00, 0x00000100)]) = true := by decide +kernel

theorem witness_StepRunsThePresentedCommand_decodes :
    decode 0x040000000000000000 = .ok (.enableCache 0 0) := by rfl

theorem witness_StoredCommandIsRunNext : decodeTableWord 72 0x040000000000000000 = some (.enableCache 0 0) := by rfl

theorem witness_ReservedOpcodeIsAnswered :
    let s : State := { base with requests := [⟨0x0C0000000000000000, false⟩] }
    s.idle = true ∧ s.Undisturbed ∧ s.requests = ⟨0x0C0000000000000000, false⟩ :: []
    ∧ (opOf 0x0C0000000000000000 = 0x00 ∨ 0x0C ≤ (opOf 0x0C0000000000000000).toNat) := by decide +kernel

theorem witness_FaultStopsEveryAgent :
    let s : State := recordFault .clockGlitch { base with agenda := [.go] }
    s.fault = some .clockGlitch ∧ s.agenda.head? ≠ some .reset := by decide +kernel

theorem witness_BusyBlockRefusesCommands : hung.running = true := by decide +kernel

theorem witness_PollThatNeverHoldsHangs : hung.Polling ∧ hung.agenda = [] ∧ hung.Settled :=
  ⟨⟨by decide +kernel, by show memRead hung .clkCr &&& 0x02000000 ≠ 0x02000000; decide +kernel⟩, rfl,
    by decide +kernel⟩

theorem witness_ResetEndsFaultsAndHangs :
    { hung with agenda := [.reset, .go] }.agenda = .reset :: [.go] := rfl

theorem witness_EveryClockIsTheOscillatorAfterReset : (5 : Word).toNat ≤ 5 ∧ (0 : Word).toNat ≤ 5 := by decide

/-- The domain check, the first and the last domain, the oscillator. -/
theorem witness_GetFreqAnswersTheLiveClock :
    base.idle = true ∧ base.Undisturbed ∧ 5 < (6 : Word).toNat ∧ domainOf 0 = some .system
    ∧ domainOf 5 = some .apb2Timer ∧ swsOf map (memRead base .clkCfgr) = 0b00 := by decide +kernel

/-- The PLL with a value. -/
theorem witness_GetFreqAnswersTheLiveClock_pll :
    tree.idle = true ∧ tree.Undisturbed ∧ swsOf map (memRead tree .clkCfgr) = 0b10
    ∧ pllFreq map tree.regs = .ok 84000000 := by decide +kernel

/-- The PLL without a value: `M = 0`, and `M = 1` with `N = 269`. -/
theorem witness_GetFreqAnswersTheLiveClock_none (g : Word) (f : Fault)
    (h : (g = 0x20001900 ∧ f = .divideByZero) ∨ (g = 0x20004341 ∧ f = .freqOverflow)) :
    (selected g 0x0000000A).idle = true ∧ (selected g 0x0000000A).Undisturbed
    ∧ swsOf map (memRead (selected g 0x0000000A) .clkCfgr) = 0b10
    ∧ pllFreq map (selected g 0x0000000A).regs = .error f := by
  rcases h with ⟨rfl, rfl⟩ | ⟨rfl, rfl⟩ <;> decide +kernel

/-- No known source. -/
theorem witness_GetFreqAnswersTheLiveClock_unwired :
    unwired.idle = true ∧ unwired.Undisturbed ∧ swsOf map (memRead unwired .clkCfgr) = 0b01 := by decide +kernel

/-- `M = 0`; `M = 1` with `N = 269` and with `N = 268`. -/
theorem witness_PllWalkIsDivideMultiplyDivide :
    ((pllFile 0x00001900).rd map .pllm).toNat = 0
    ∧ (((pllFile 0x00004341).rd map .pllm).toNat ≠ 0
      ∧ 2 ^ 32 ≤ 16000000 / ((pllFile 0x00004341).rd map .pllm).toNat * ((pllFile 0x00004341).rd map .plln).toNat)
    ∧ (((pllFile 0x00004301).rd map .pllm).toNat ≠ 0
      ∧ 16000000 / ((pllFile 0x00004301).rd map .pllm).toNat * ((pllFile 0x00004301).rd map .plln).toNat < 2 ^ 32) := by
  decide +kernel

theorem witness_PllWalkBounds :
    (2 ≤ 2 ∧ 2 ≤ 63 ∧ 50 ≤ 432 ∧ 432 ≤ 432) ∧ (2 ≤ 63 ∧ 63 ≤ 63 ∧ 50 ≤ 50 ∧ 50 ≤ 432) ∧ (2 ≤ 2 ∧ 511 ≤ 511) := by
  decide

theorem witness_BusPrescalerTable : (0b0111 : BitVec 4).getLsbD 3 = false := by decide

theorem witness_PeripheralPrescalerTable : (0b011 : BitVec 3).getLsbD 2 = false := by decide

/-- Both sources, a dividing prescaler (`tree`) and one that does not divide (`base`). -/
theorem witness_TimerClockDoubles :
    (base.idle = true ∧ base.Undisturbed ∧ swsOf map (memRead base .clkCfgr) = 0b00
      ∧ apbDiv (ppre1Of map (memRead base .clkCfgr)) = 1)
    ∧ (tree.idle = true ∧ tree.Undisturbed ∧ swsOf map (memRead tree .clkCfgr) = 0b10
      ∧ pllFreq map tree.regs = .ok 84000000 ∧ apbDiv (ppre1Of map (memRead tree .clkCfgr)) = 2) := by
  decide +kernel

theorem witness_CoreClockIsSystemClockDivided :
    base.idle = true ∧ base.Undisturbed
    ∧ ((swsOf map (memRead base .clkCfgr) = 0b00 ∧ 16000000 = 16000000)
      ∨ (swsOf map (memRead base .clkCfgr) = 0b10 ∧ pllFreq map base.regs = .ok 16000000)) := by decide +kernel

theorem witness_NoFrequencyWraps : pllFreq map (pllFile 0x28015410) = .ok 84000000 := by decide +kernel

/-- An undefined level; a level the plant answers; one shown already; one the plant never answers. -/
theorem witness_SetScalingRaisesVos :
    (base.idle = true ∧ base.Undisturbed ∧ mapWf base.params ∧ base.regs.wf base.params ∧ 1 < (2 : Word).toNat)
    ∧ ((0 : Word).toNat = 0 ∧ base.params.vosLow = 0b01 ∧ base.PlantAnswers
      ∧ (base.regs.set .pwrCr ⟨0x00004000, 0x00004000⟩).safe base.params = true)
    ∧ ((still base).idle = true ∧ (still base).Undisturbed ∧ ¬ (still base).PlantAnswers
      ∧ mapWf (still base).params ∧ (still base).regs.wf (still base).params
      ∧ (1 : Word).toNat = 1 ∧ vosOf map (memRead (still base) .pwrCr) = (still base).params.vosHigh
      ∧ ((still base).regs.set .pwrCr ⟨0x00008000, 0x00008000⟩).safe (still base).params = true
      ∧ vosOf map (memRead (still base) .pwrCr) ≠ (still base).params.vosLow) := by
  refine ⟨?_, ?_, ?_⟩ <;> decide +kernel

/-- 16; 15 and 0 with a plant that answers; 0 shown already and 1 never shown without one. -/
theorem witness_SetLatencySetsWaitStates :
    (base.idle = true ∧ base.Undisturbed ∧ mapWf base.params ∧ base.regs.wf base.params ∧ 15 < (16 : Word).toNat)
    ∧ ((15 : Word).toNat ≤ 15 ∧ base.PlantAnswers
      ∧ (base.regs.set .flashAcr ⟨15, 15⟩).safe base.params = true)
    ∧ ((still base).idle = true ∧ (still base).Undisturbed ∧ ¬ (still base).PlantAnswers
      ∧ (latencyOf map (memRead (still base) .flashAcr)).toNat = (0 : Word).toNat
      ∧ ((still base).regs.set .flashAcr ⟨0, 0⟩).safe (still base).params = true
      ∧ (latencyOf map (memRead (still base) .flashAcr)).toNat ≠ (1 : Word).toNat) := by decide +kernel

/-- R124, R62: write, poll, barrier, respond. -/
theorem test_setLatency_ends_with_the_barrier :
    next (exec (.setLatency 1 0) (still base)) (fun t =>
      t.ph == [.poll .flashAcr 0x0000000F 0x00000001, .barrier, .done]) = true := by decide +kernel

theorem witness_EnableCacheSetsBothEnables :
    base.idle = true ∧ base.Undisturbed ∧ mapWf base.params ∧ base.regs.wf base.params := by decide +kernel

theorem witness_EnablePrefetchSetsItsBit :
    tree.idle = true ∧ tree.Undisturbed ∧ mapWf tree.params ∧ tree.regs.wf tree.params := by decide +kernel

/-- An invalid word (M = 1); the smallest valid word with the PLL on; the largest with it off. -/
theorem witness_PllConfigureWritesFiveFields :
    (base.idle = true ∧ base.Undisturbed ∧ ¬ 2 ≤ (1 : BitVec 6).toNat)
    ∧ (pllOnBase.idle = true ∧ pllOnBase.Undisturbed ∧ pllOnOf map (memRead pllOnBase .clkCr) = 1
      ∧ ((0 : BitVec 8) = 0 ∧ 2 ≤ (2 : BitVec 6).toNat ∧ 50 ≤ (50 : BitVec 9).toNat
        ∧ (50 : BitVec 9).toNat ≤ 432 ∧ (2 : BitVec 4) = 2))
    ∧ (pllOnOf map (memRead base .clkCr) = 0 ∧ 2 ≤ (63 : BitVec 6).toNat ∧ 50 ≤ (432 : BitVec 9).toNat
        ∧ (432 : BitVec 9).toNat ≤ 432 ∧ (8 : BitVec 4) = 8)
    ∧ (mapWf base.params ∧ base.regs.wf base.params ∧ mapWf pllOnBase.params ∧ pllOnBase.regs.wf pllOnBase.params
      ∧ RegName.clkCfgr ∉ pllRegs map) := by
  refine ⟨?_, ?_, ?_, ?_⟩ <;> decide +kernel

/-- The same with the fields split, and with a field in `CLK_CFGR` beside a mux that has followed. -/
theorem witness_PllConfigureWritesFiveFields_split :
    (let s := remapped splitMap base
     s.idle = true ∧ s.Undisturbed ∧ mapWf s.params ∧ s.regs.wf s.params
      ∧ pllOnOf splitMap (memRead s .clkCr) = 0 ∧ RegName.clkCfgr ∉ pllRegs splitMap)
    ∧ (let m : Regmap := { splitMap with pllq := ⟨.clkCfgr, 20⟩ }
       let s := remapped m base
       s.idle = true ∧ s.Undisturbed ∧ mapWf s.params ∧ s.regs.wf s.params
        ∧ pllOnOf m (memRead s .clkCr) = 0 ∧ s.MuxFollowed ∧ RegName.clkCfgr ∈ pllRegs m) := by
  refine ⟨?_, ?_⟩ <;> decide +kernel

theorem witness_PllEnableSetsPllOn :
    (base.idle = true ∧ base.Undisturbed ∧ mapWf base.params ∧ base.regs.wf base.params)
    ∧ ((still base).idle = true ∧ (still base).Undisturbed ∧ (still base).regs.wf (still base).params) := by
  decide +kernel

theorem witness_WaitLockWaitsForTheFlag :
    pllOnBase.idle = true ∧ pllOnBase.Undisturbed ∧ mapWf pllOnBase.params
    ∧ pllRdyOf map (memRead pllOnBase .clkCr) = 1 := by decide +kernel

/-- The plant even tries to lock; the PLL is off, so it cannot. -/
theorem witness_WaitLockWaitsForTheFlag_off :
    let s : State := { base with agenda := [.plant .pllLock, .go] }
    s.idle = true ∧ s.PlantOnly ∧ s.params.binding = .production ∧ mapWf s.params ∧ pllOnOf map (memRead s .clkCr) = 0
      ∧ pllRdyOf map (memRead s .clkCr) = 0 ∧ ∃ t, exec (.pllWaitLock 0 0) s = .next t := by
  refine ⟨by decide +kernel, by decide +kernel, by decide +kernel, by decide +kernel, by decide +kernel,
    by decide +kernel, ?_⟩
  obtain ⟨t, h, _⟩ := exists_of_next (p := fun _ => true)
    (o := exec (.pllWaitLock 0 0) { base with agenda := [.plant .pllLock, .go] }) (by decide +kernel)
  exact ⟨t, h⟩

theorem witness_GateGpioEnablesTheBank :
    (base.idle = true ∧ base.Undisturbed ∧ mapWf base.params ∧ base.regs.wf base.params ∧ 7 < (8 : Word).toNat)
    ∧ ((7 : Word).toNat = (7 : Fin 8).val ∧ base.PlantAnswers)
    ∧ ((still base).idle = true ∧ (still base).Undisturbed ∧ ¬ (still base).PlantAnswers
      ∧ (0 : Word).toNat = (0 : Fin 8).val
      ∧ (memRead (still base) .gateAhb1).getLsbD (map.gpioen.get 0) = false)
    ∧ (let s := still (withReg .gateAhb1 0x00000081 base)
       s.idle = true ∧ s.Undisturbed ∧ (memRead s .gateAhb1).getLsbD (map.gpioen.get 7) = true) := by
  refine ⟨?_, ?_, ?_, ?_⟩ <;> decide +kernel

/-- An id that is no key; the last entry, on APB2; one on APB1 with no plant that answers; a second entry of one id, behind the
first. -/
theorem witness_GateUsartEnablesTheInstance :
    (base.idle = true ∧ base.Undisturbed ∧ mapWf base.params ∧ base.regs.wf base.params
      ∧ (∀ e ∈ base.params.usart, e.id ≠ 3))
    ∧ (base.params.usart = [⟨1, .apb2, 4⟩, ⟨2, .apb1, 17⟩] ++ (⟨6, .apb2, 5⟩ : UsartEntry) :: []
      ∧ (∀ e' ∈ ([⟨1, .apb2, 4⟩, ⟨2, .apb1, 17⟩] : List UsartEntry), e'.id ≠ 6) ∧ base.PlantAnswers)
    ∧ ((still base).idle = true ∧ (still base).Undisturbed ∧ ¬ (still base).PlantAnswers
      ∧ (still base).params.usart = [⟨1, .apb2, 4⟩] ++ (⟨2, .apb1, 17⟩ : UsartEntry) :: [⟨6, .apb2, 5⟩]
      ∧ (memRead (still base) .gateApb1).getLsbD 17 = false)
    ∧ (let s : State := { base with params := { base.params with usart := [⟨1, .apb2, 4⟩, ⟨1, .apb1, 9⟩] } }
       s.idle = true ∧ s.Undisturbed ∧ mapWf s.params
        ∧ s.params.usart = [] ++ (⟨1, .apb2, 4⟩ : UsartEntry) :: [⟨1, .apb1, 9⟩]) := by
  refine ⟨?_, ?_, ?_, ?_⟩ <;> decide +kernel

/-- Spent; invalid operands, 16 wait states among them; an undefined level with 15; a state between. -/
theorem witness_SeqRunChecksInOrder :
    (let s : State := { base with seq := .complete }
     s.idle = true ∧ s.Undisturbed ∧ s.seq = .complete)
    ∧ (base.idle = true ∧ base.Undisturbed ∧ base.seq = .uninitialized
      ∧ ¬ 2 ≤ (1 : BitVec 6).toNat ∧ ¬ (1 : BitVec 16) = 0 ∧ ¬ (16 : BitVec 8).toNat ≤ 15)
    ∧ ((bootTarget.rsv = 0 ∧ 2 ≤ bootTarget.m.toNat ∧ 50 ≤ bootTarget.n.toNat ∧ bootTarget.n.toNat ≤ 432
        ∧ bootTarget.p = 4) ∧ (0 : BitVec 16) = 0 ∧ (15 : BitVec 8).toNat ≤ 15 ∧ 1 < (2 : BitVec 8).toNat)
    ∧ (let s : State := { base with seq := .latencySet }
       s.idle = true ∧ s.Undisturbed ∧ s.seq ≠ .uninitialized ∧ s.seq ≠ .complete) := by decide +kernel

theorem witness_SequencerIsOneShot :
    base.PlantOnly ∧ ∃ t, exec (.seqRun bootTarget ⟨0, 1, 2⟩) base = .next t
      ∧ (!t.busy && t.fault.isNone && t.st == .ok) = true :=
  ⟨by decide, exists_of_next (by decide +kernel)⟩

/-- A spent block. -/
theorem witness_SequencerIsOneShot_spent :
    let s : State := { base with seq := .complete }
    s.idle = true ∧ s.Undisturbed ∧ s.seq = .complete := by decide +kernel

/-- The source's own configuration is a valid one, with level HIGH and 2 wait states. -/
theorem witness_boot_operands :
    (bootTarget.rsv = 0 ∧ 2 ≤ bootTarget.m.toNat ∧ 50 ≤ bootTarget.n.toNat ∧ bootTarget.n.toNat ≤ 432
      ∧ (bootTarget.p = 2 ∨ bootTarget.p = 4 ∨ bootTarget.p = 6 ∨ bootTarget.p = 8))
    ∧ ((⟨0, 1, 2⟩ : PowerWord).rsv = 0 ∧ (⟨0, 1, 2⟩ : PowerWord).ws.toNat ≤ 15)
    ∧ (((1 : BitVec 8) = 0 ∧ (0b10 : BitVec 2) = base.params.vosLow)
      ∨ ((1 : BitVec 8) = 1 ∧ (0b10 : BitVec 2) = base.params.vosHigh)) := by decide +kernel

/-- The state after reset meets every premise for the source's own configuration (V60). -/
theorem witness_SeqRunCompletes :
    base.idle = true ∧ base.Undisturbed ∧ mapWf base.params ∧ base.params.plantLive = true
    ∧ base.params.binding = .production ∧ base.regs.wf base.params ∧ base.seq = .uninitialized
    ∧ oscRdyOf map (memRead base .clkCr) = 1 ∧ pllOnOf map (memRead base .clkCr) = 0
    ∧ swsOf map (memRead base .clkCfgr) = 0b00
    ∧ (let scaled := base.regs.set .pwrCr ⟨0x00008000, 0x00008000⟩
       let slowed := scaled.set .flashAcr ⟨0x00000002, 0x00000002⟩
       let locked := (slowed.programmed map bootTarget).set .clkCr ⟨0x03000083, 0x03000083⟩
       scaled.safe base.params = true ∧ slowed.safe base.params = true
        ∧ (slowed.programmed map bootTarget).pllCfgr = ⟨0x28015410, 0x28015410⟩
        ∧ (locked.set .clkCfgr ⟨0x0000000A, 0x0000000A⟩).safe base.params = true) := by decide +kernel

/-- The oscillator not ready: under a live plant, and where no plant moves. -/
theorem witness_SeqRunCompletes_waits :
    (let s := withReg .clkCr 0x00000081 base
     s.idle = true ∧ s.agenda = [] ∧ mapWf s.params ∧ s.seq = .uninitialized ∧ oscRdyOf map (s.regs.get .clkCr).r = 0
      ∧ s.params.plantLive = true ∧ s.params.binding = .production ∧ (withReg .clkCr 0x00000083 base).Undisturbed)
    ∧ (let s := still (withReg .clkCr 0x00000081 base)
       s.idle = true ∧ s.agenda = [] ∧ mapWf s.params ∧ oscRdyOf map (s.regs.get .clkCr).r = 0
        ∧ s.params.plantLive = false)
    ∧ (inTest (withReg .clkCr 0x00000081 base)).params.binding = .test := by decide +kernel

theorem witness_SeqRunFaultsOnARunningPll :
    pllOnBase.idle = true ∧ pllOnBase.Undisturbed ∧ mapWf pllOnBase.params ∧ pllOnBase.regs.wf pllOnBase.params
    ∧ pllOnBase.PlantAnswers ∧ pllOnBase.seq = .uninitialized
    ∧ oscRdyOf map (memRead pllOnBase .clkCr) = 1 ∧ pllOnOf map (memRead pllOnBase .clkCr) = 1
    ∧ (let scaled := pllOnBase.regs.set .pwrCr ⟨0x00008000, 0x00008000⟩
       scaled.safe pllOnBase.params = true
        ∧ (scaled.set .flashAcr ⟨0x00000002, 0x00000002⟩).safe pllOnBase.params = true) := by decide +kernel

/-- A command with plant steps between its micro-steps. -/
def busyPlant : State :=
  { base with agenda := [.go, .plant (.settle .latency), .go, .plant (.settle .latency), .go] }

theorem witness_OnlySeqRunWritesSeq :
    (∀ cfg pw, Instr.setLatency 2 0 ≠ .seqRun cfg pw) ∧ .reset ∉ busyPlant.agenda
    ∧ ∃ t, exec (.setLatency 2 0) busyPlant = .next t ∧ (t.st == .ok && !t.busy) = true :=
  ⟨(fun _ _ h => by cases h), by decide, exists_of_next (by decide +kernel)⟩

/-- The conditions `SeqOk` asks of a state that runs a command are met in the middle of a sequence. -/
theorem witness_SequencerMovesOneStateAtATime :
    let s : State := { base with busy := true, ph := seqBody base.params bootTarget .high 2 }
    s.SeqOk ∧ base.SeqOk ∧ ∃ t, step base = .next t ∧ (t.st == .ok) = true :=
  ⟨by decide +kernel, by decide, exists_of_next (by decide +kernel)⟩

theorem witness_SeqRunRaisesNoClockGlitch :
    base.Inv ∧ base.PlantOnly ∧ RegName.clkCfgr ∉ pllRegs base.params.regmap
    ∧ ∃ t, exec (.seqRun bootTarget ⟨0, 1, 2⟩) base = .next t ∧ (t.seq == .complete) = true :=
  ⟨by decide +kernel, by decide, by decide, exists_of_next (by decide +kernel)⟩

theorem witness_CommandsWriteOnlyTheirRegisters :
    busyPlant.PlantOnly ∧ RegName.pwrCr ∉ storedRegs busyPlant.params (.setLatency 2 0)
    ∧ ∃ t, exec (.setLatency 2 0) busyPlant = .next t ∧ (t.st == .ok && !t.busy) = true :=
  ⟨by decide, by decide, exists_of_next (by decide +kernel)⟩

theorem witness_UndisturbedCommandsKeepOtherBytes :
    base.Undisturbed ∧ RegName.pwrCr ∉ storedRegs base.params (.gateGpio 0 0)
    ∧ (∀ n ∈ storedRegs base.params (.gateGpio 0 0), (0x40023804 : Word) &&& 0xFFFFFFFC ≠ regAddr map n)
    ∧ ∃ t, exec (.gateGpio 0 0) base = .next t ∧ (t.st == .ok && !t.busy) = true :=
  ⟨by decide +kernel, by decide, by decide, exists_of_next (by decide +kernel)⟩

theorem witness_UnnamedBitsAreNeverChanged :
    base.PlantOnly ∧ base.regs.wf base.params ∧ namedMask base.params .clkCr = 0x03000002
    ∧ ∃ t, exec (.seqRun bootTarget ⟨0, 1, 2⟩) base = .next t ∧ (t.seq == .complete) = true :=
  ⟨by decide, by decide +kernel, by decide, exists_of_next (by decide +kernel)⟩

theorem witness_ErrorResponseChangesNothingElse :
    base.Undisturbed ∧ ∃ t, exec (.gateGpio 8 0) base = .next t
      ∧ (!t.busy && t.fault.isNone && !(t.st == .ok)) = true :=
  ⟨by decide +kernel, exists_of_next (by decide +kernel)⟩

theorem witness_CommandsWithoutPollEnd :
    busyPlant.PlantOnly ∧ ∃ t, exec (.enableCache 0 0) busyPlant = .next t ∧ (t.st == .ok) = true :=
  ⟨by decide, exists_of_next (by decide +kernel)⟩

/-- A poll that ends, the wait for a lock with the PLL on and the lock not yet made, and a whole sequence from an oscillator that
is not ready. -/
theorem witness_PollsEndUnderALivePlant :
    (busyPlant.PlantOnly ∧ mapWf busyPlant.params ∧ busyPlant.params.plantLive = true
      ∧ busyPlant.params.binding = .production ∧ ∃ t, exec (.setLatency 2 0) busyPlant = .next t ∧ (t.st == .ok) = true)
    ∧ (let s := withReg .clkCr 0x01000083 base
       s.PlantOnly ∧ pllOnOf map (memRead s .clkCr) = 1
        ∧ ∃ t, exec (.pllWaitLock 0 0) s = .next t ∧ (t.st == .ok && !t.busy) = true)
    ∧ (let s := withReg .clkCr 0x00000081 base
       s.PlantOnly ∧ ∃ t, exec (.seqRun bootTarget ⟨0, 1, 2⟩) s = .next t ∧ (t.st == .ok && !t.busy) = true) :=
  ⟨⟨by decide, by decide +kernel, by decide, by decide, exists_of_next (by decide +kernel)⟩,
    ⟨by decide, by decide +kernel, exists_of_next (by decide +kernel)⟩,
    ⟨by decide, exists_of_next (by decide +kernel)⟩⟩

/-- The bits of a settling, a read-only and a PLL field, and two that are none of theirs. -/
theorem witness_FieldsLieWhereTheMapSays :
    (rwsMask base.params .pwrCr).getLsbD 15 = true ∧ (rwsMask base.params .pwrCr).getLsbD 16 = false
    ∧ (roMask map .clkCfgr).getLsbD 2 = true ∧ (roMask map .clkCfgr).getLsbD 4 = false
    ∧ (pllFieldsMask map .pllCfgr).getLsbD 14 = true ∧ (pllFieldsMask map .pllCfgr).getLsbD 15 = false
    ∧ (pllFieldsMask splitMap .pwrCr).getLsbD 16 = true ∧ (pllFieldsMask splitMap .pwrCr).getLsbD 15 = false := by
  decide +kernel

/-- A settling register; the frozen fields; `PLL_ON` cleared; `PLL_ON` kept. -/
theorem witness_WriteActsByFieldClass :
    (base.params.binding = .production ∧ base.fault = none ∧ mapWf base.params ∧ (memWrite .port .flashAcr 2 base).fault = none)
    ∧ ((memWrite .port .pllCfgr 0 tree).fault = none ∧ pllOnOf map (memRead tree .clkCr) = 1)
    ∧ ((memWrite .port .clkCr 0x00000083 pllOnBase).fault = none
      ∧ pllOnOf map (pllOnBase.regs.get .clkCr).r = 1 ∧ pllOnOf map 0x00000083 = 0)
    ∧ ((memWrite .port .clkCr 0x01000083 pllOnBase).fault = none ∧ pllOnOf map 0x01000083 = 1)
    ∧ (memWrite .engine .flashAcr 2 base).fault = none := by decide +kernel

/-- The writes that meet no hazard: another register; `CLK_CR` with the PLL off the mux, and with it in use but kept on; `CLK_CFGR`
with the source shown and new prescalers (R223), with the same prescalers and another source that is ready, and with both. -/
theorem witness_WriteActsByFieldClass_noHazard :
    (RegName.pwrCr ≠ .clkCr ∧ RegName.pwrCr ≠ .clkCfgr)
    ∧ ¬ (pllOnOf map (memRead pllOnBase .clkCr) = 1 ∧ pllOnOf map 0x00000083 = 0 ∧ swsOf map (memRead pllOnBase .clkCfgr) = 0b10)
    ∧ ¬ (pllOnOf map (memRead tree .clkCr) = 1 ∧ pllOnOf map 0x01000083 = 0 ∧ swsOf map (memRead tree .clkCfgr) = 0b10)
    ∧ (swOf map 0x000010B0 = swsOf map (memRead base .clkCfgr) ∧ hpreOf map 0x000010B0 ≠ hpreOf map (memRead base .clkCfgr)
      ∧ (base.regs.set .clkCfgr ⟨0x000010B0, 0x000010B0⟩).safe base.params = true)
    ∧ (swOf map 0x00001008 = 0b00 ∧ oscRdyOf map (memRead tree .clkCr) = 1
      ∧ hpreOf map 0x00001008 = hpreOf map (memRead tree .clkCfgr))
    ∧ (swOf map 0x000010B2 = 0b10 ∧ pllRdyOf map (memRead pllOnBase .clkCr) = 1
      ∧ (pllOnBase.regs.set .clkCfgr ⟨0x000010B2, 0x000010B2⟩).safe pllOnBase.params = true) := by decide +kernel

/-- R223: the prescalers are set through the register port, before a bring-up. -/
theorem test_port_writes_prescalers :
    (memWrite .port .clkCfgr 0x000010B0 base).fault = none
    ∧ memRead (memWrite .port .clkCfgr 0x000010B0 base) .clkCfgr = 0x000010B0
    ∧ (memWrite .port .clkCfgr 0x000010B0 base).plog = [(0x40023808, 0x000010B0)] := by decide +kernel

theorem witness_SelectingAnUnreadySourceFaults :
    (base.params.binding = .production ∧ mapWf base.params ∧ mapWf tree.params)
    ∧ (swOf map 0x00000002 ≠ swsOf map (memRead base .clkCfgr) ∧ swOf map 0x00000002 = 0b10 ∧ pllRdyOf map (memRead base .clkCr) = 0)
    ∧ (swOf map 0x00000001 ≠ swsOf map (memRead base .clkCfgr) ∧ swOf map 0x00000001 = 0b01)
    ∧ (swOf map 0x00000003 ≠ swsOf map (memRead base .clkCfgr) ∧ swOf map 0x00000003 = 0b11)
    ∧ (let s := withReg .clkCr 0x03000081 tree
       s.params.binding = .production ∧ swOf map 0x00000000 ≠ swsOf map (memRead s .clkCfgr) ∧ swOf map 0x00000000 = 0b00
        ∧ oscRdyOf map (memRead s .clkCr) = 0)
    ∧ (tree.params.binding = .production ∧ pllOnOf map (memRead tree .clkCr) = 1 ∧ pllOnOf map 0x00000083 = 0
      ∧ swsOf map (memRead tree .clkCfgr) = 0b10) := by decide +kernel

/-- `Safe` with the oscillator and with the PLL, the count at its row's edge, one below it, and the level below; and no value of the
core clock. -/
theorem witness_UnsafeClockingFaults_safe :
    (swsOf map base.regs.clkCfgr.r = 0b00 ∧ vosOf map base.regs.pwrCr.r = base.params.vosHigh
      ∧ base.regs.safe base.params = true)
    ∧ (swsOf map tree.regs.clkCfgr.r = 0b10 ∧ pllFreq map tree.regs = .ok 84000000 ∧ tree.regs.safe base.params = true
      ∧ (tree.regs.set .flashAcr ⟨1, 1⟩).safe base.params = false
      ∧ vosOf map (tree.regs.set .pwrCr ⟨0x00004000, 0x00004000⟩).pwrCr.r ≠ base.params.vosHigh
      ∧ (tree.regs.set .pwrCr ⟨0x00004000, 0x00004000⟩).safe base.params = false)
    ∧ (swsOf map unwired.regs.clkCfgr.r = 0b01 ∧ unwired.regs.safe base.params = true)
    ∧ (swsOf map (selected 0x20001900 0x0000000A).regs.clkCfgr.r = 0b10
      ∧ pllFreq map (selected 0x20001900 0x0000000A).regs = .error .divideByZero) := by decide +kernel

/-- A latency too low, a level too low, a switch too early; a bus prescaler taken away. -/
theorem witness_UnsafeClockingFaults :
    (let s := memWrite .port .flashAcr 1 tree
     plantEnabled s (.settle .latency) = true
      ∧ (plantEffect s.params s.regs (.settle .latency)).safe s.params = false)
    ∧ (let s := memWrite .port .pwrCr 0x00004000 tree
       plantEnabled s (.settle .vos) = true ∧ (plantEffect s.params s.regs (.settle .vos)).safe s.params = false)
    ∧ (let s := withReg .flashAcr 0 (withReg .clkCfgr 0x00000002 tree)
       plantEnabled s .muxSwitch = true ∧ (plantEffect s.params s.regs .muxSwitch).safe s.params = false)
    ∧ (let s := withReg .flashAcr 0 (withReg .clkCfgr 0x000000BA tree)
       s.params.binding = .production ∧ mapWf s.params ∧ swOf map 0x0000000A = swsOf map (memRead s .clkCfgr)
        ∧ hpreOf map 0x0000000A ≠ hpreOf map (memRead s .clkCfgr)
        ∧ (afterWrite s.params .clkCfgr 0x0000000A s.regs).safe s.params = false) := by decide +kernel

/-- A write that takes the bus prescaler away and selects another source: the oscillator, ready; the PLL, locked. -/
theorem witness_UnsafeClockingFaults_selects :
    (let s := withReg .flashAcr 0 (withReg .clkCfgr 0x000000BA tree)
     swOf map 0x00000008 = 0b00 ∧ oscRdyOf map (memRead s .clkCr) = 1
      ∧ swOf map 0x00000008 ≠ swsOf map (memRead s .clkCfgr)
      ∧ hpreOf map 0x00000008 ≠ hpreOf map (memRead s .clkCfgr)
      ∧ (afterWrite s.params .clkCfgr 0x00000008 s.regs).safe s.params = false)
    ∧ (let p : Params := { base.params with latencyHigh := [⟨8000000, 0⟩, ⟨84000000, 2⟩] }
       let s : State := { withReg .flashAcr 0 (withReg .clkCfgr 0x00000080 tree) with params := p }
       s.params.binding = .production ∧ mapWf s.params ∧ swOf map 0x00000002 = 0b10
        ∧ pllRdyOf map (memRead s .clkCr) = 1 ∧ swOf map 0x00000002 ≠ swsOf map (memRead s .clkCfgr)
        ∧ hpreOf map 0x00000002 ≠ hpreOf map (memRead s .clkCfgr)
        ∧ (afterWrite s.params .clkCfgr 0x00000002 s.regs).safe s.params = false) := by decide +kernel

theorem witness_SettleCopiesThePendingValue :
    let s := memWrite .port .gateAhb1 0x00000081 base
    s.params.binding = .production ∧ s.fault = none
    ∧ SettlingField.bits s.params (.gpioen 7) = some (.gateAhb1, 0x00000080)
    ∧ (s.regs.get .gateAhb1).w &&& 0x00000080 ≠ (s.regs.get .gateAhb1).r &&& 0x00000080
    ∧ (plantStep (.settle (.gpioen 7)) s).fault = none := by decide +kernel

/-- A new count that is enough; and where the entries of `USART_TABLE` are found. -/
theorem witness_SettleCopiesThePendingValue_safe :
    (let s := memWrite .port .flashAcr 3 tree
     SettlingField.bits s.params .latency = some (.flashAcr, 0x0000000F)
      ∧ (s.regs.get .flashAcr).w &&& 0x0000000F ≠ (s.regs.get .flashAcr).r &&& 0x0000000F
      ∧ (s.regs.set .flashAcr ⟨3, 3⟩).safe s.params = true)
    ∧ (∀ e ∈ base.params.usart, e.id ≠ 3)
    ∧ base.params.usart = [⟨1, .apb2, 4⟩] ++ ⟨2, .apb1, 17⟩ :: [⟨6, .apb2, 5⟩] ∧ (1 : Word) ≠ 2 := by decide +kernel

/-- An oscillator to come up, a PLL to lock, a mux to switch and where that is safe, and nothing of it. -/
theorem witness_PlantOnlyRaisesStatus :
    (let s := withReg .clkCr 0x01000081 base
     s.params.binding = .production ∧ s.fault = none ∧ mapWf s.params ∧ oscRdyOf map (s.regs.get .clkCr).r = 0
      ∧ pllOnOf map (s.regs.get .clkCr).r = 1 ∧ pllRdyOf map (s.regs.get .clkCr).r = 0)
    ∧ (let s := withReg .clkCfgr 0x00000002 tree
       plantEnabled s .muxSwitch = true ∧ (s.regs.set .clkCfgr ⟨0x0000000A, 0x0000000A⟩).safe s.params = true)
    ∧ (oscRdyOf map base.regs.clkCr.r = 1 ∧ pllRdyOf map tree.regs.clkCr.r = 1
      ∧ plantEnabled tree .muxSwitch = false
      ∧ pllRdyOf map (plantStep .pllLock (withReg .clkCr 0x01000083 base)).regs.clkCr.r = 1) := by decide +kernel

/-- Refused while busy; a halfword and a doubleword; the three misaligned offsets; no register; a read; a write. -/
theorem witness_PortTakesAlignedWordsOnly :
    (mapWf base.params ∧ hung.busy = true ∧ hung.params.allowInterleave = false)
    ∧ (base.busy = false ∨ base.params.allowInterleave = true)
    ∧ (⟨0x40023800, 2, none⟩ : PortAccess).bytes ≠ 4 ∧ (⟨0x40023800, 8, none⟩ : PortAccess).bytes ≠ 4
    ∧ (0x40023801 : Word).toNat % 4 ≠ 0 ∧ (0x40023803 : Word).toNat % 4 ≠ 0
    ∧ ((0x4002380C : Word).toNat % 4 = 0 ∧ ∀ n ∈ allRegs, regAddr map n ≠ 0x4002380C)
    ∧ (0x40023C00 : Word) = regAddr map .flashAcr := by decide +kernel

/-- The same address misses every register. -/
theorem witness_PortTakesAlignedWordsOnly_none : ∀ n, regAddr map n ≠ 0x4002380C := by
  intro n
  cases n <;> decide

/-- A field, a bank, an instance, and an id that is no key. -/
theorem witness_TestBindingIsPlainStorage :
    (inTest base).params.binding = .test ∧ base.params.binding = .production ∧ mapWf (inTest base).params
    ∧ FieldName.place base.params (.fixed .sws) = some ⟨.clkCfgr, 2, 2⟩
    ∧ FieldName.place base.params (.gpioen 7) = some ⟨.gateAhb1, 7, 1⟩
    ∧ FieldName.place base.params (.usarten 2) = some ⟨.gateApb1, 17, 1⟩
    ∧ FieldName.place base.params (.usarten 3) = none := by decide +kernel

/-- The lowest and the highest byte of a register, and the addresses just outside one. -/
theorem witness_RegisterBytesAreLittleEndian :
    mapWf base.params ∧ 0 < 4 ∧ 3 < 4
    ∧ (∀ n ∈ allRegs, (0x4002380C : Word).toNat < (regAddr map n).toNat ∨ (regAddr map n).toNat + 4 ≤ (0x4002380C : Word).toNat)
    ∧ (∀ n ∈ allRegs, (0x400237FF : Word).toNat < (regAddr map n).toNat
        ∨ (regAddr map n).toNat + 4 ≤ (0x400237FF : Word).toNat) := by decide +kernel

theorem witness_EveryStepKeepsTheInvariant :
    let s : State := { base with requests := [⟨0x090000010200425410, false⟩] }
    s.Inv ∧ ∃ t, step s = .next t ∧ (t.seq == .complete) = true :=
  ⟨by decide +kernel, exists_of_next (by decide +kernel)⟩

theorem witness_EveryStepKeepsTheEngineSound :
    hung.EngineOk ∧ ∃ t, step hung = .next t ∧ t.busy = true :=
  ⟨by decide +kernel, exists_of_next (p := fun t => t.busy) (by decide +kernel)⟩

theorem witness_EveryStepKeepsTheParameters :
    busyPlant.regs.wf busyPlant.params ∧ ∃ t, step busyPlant = .next t ∧ (t.st == .ok) = true :=
  ⟨by decide +kernel, exists_of_next (by decide +kernel)⟩

end Sys2Proof.Tests
end

/-! SUPPORT. Where the fields of a map lie (R17 to R23, R26), what number a field stands for (R6), and what no step of any
agent changes (R5). -/

namespace Sys2Proof.Machine

/-! ## The bits of the access classes -/

/-- A place one bit wide has its lowest bit and no other. -/
theorem mem_oneWide_iff {lo i : Nat} : lo ≤ i ∧ i < lo + 1 ↔ i = lo := by omega

/-- A bit of some `GPIOEN[k]` lies in `GATE_AHB1`, where the map puts it (R23). -/
theorem getLsbD_gpioPlaces (m : Regmap) (n : RegName) {i : Nat} (h32 : i < 32) :
    (placesMask (gpioPlaces m) n).getLsbD i = true ↔ n = .gateAhb1 ∧ ∃ k, m.gpioen.get k = i := by
  rw [getLsbD_placesMask]
  constructor
  · rintro ⟨pl, hpl, hn, -, hbit⟩
    obtain ⟨k, -, rfl⟩ := List.mem_map.1 hpl
    exact ⟨hn.symm, k, (mem_oneWide_iff.1 hbit).symm⟩
  · rintro ⟨rfl, k, rfl⟩
    exact ⟨gpioPlace m k, List.mem_map_of_mem (List.mem_finRange k), rfl, h32, mem_oneWide_iff.2 rfl⟩

theorem busReg_eq_iff (b : UsartBus) (n : RegName) :
    busReg b = n ↔ (b = .apb1 ∧ n = .gateApb1) ∨ (b = .apb2 ∧ n = .gateApb2) := by
  cases b <;> simp [busReg, eq_comm]

/-- A bit of some `USARTEN[id]` lies where an entry of `USART_TABLE` puts it (R23, R180). -/
theorem getLsbD_usartPlaces (p : Params) (n : RegName) {i : Nat} (h32 : i < 32) :
    (placesMask (usartPlaces p) n).getLsbD i = true ↔
      ∃ e ∈ p.usart, e.bit.val = i ∧ ((e.bus = .apb1 ∧ n = .gateApb1) ∨ (e.bus = .apb2 ∧ n = .gateApb2)) := by
  rw [getLsbD_placesMask]
  constructor
  · rintro ⟨pl, hpl, hn, -, hbit⟩
    obtain ⟨e, he, rfl⟩ := List.mem_map.1 hpl
    exact ⟨e, he, (mem_oneWide_iff.1 hbit).symm, (busReg_eq_iff _ _).1 hn⟩
  · rintro ⟨e, he, rfl, hn⟩
    exact ⟨usartPlace e, List.mem_map_of_mem he, (busReg_eq_iff _ _).2 hn, h32, mem_oneWide_iff.2 rfl⟩

/-- The bits of the places of two lists are the bits of either's. -/
theorem getLsbD_placesMask_append (as bs : List Place) (n : RegName) (i : Nat) :
    (placesMask (as ++ bs) n).getLsbD i = true ↔
      (placesMask as n).getLsbD i = true ∨ (placesMask bs n).getLsbD i = true := by
  simp only [getLsbD_placesMask, List.mem_append, or_and_right, exists_or]

/-- The bits of the first place of a list and those of the others. -/
theorem getLsbD_placesMask_cons (pl : Place) (ps : List Place) (n : RegName) {i : Nat} (h32 : i < 32) :
    (placesMask (pl :: ps) n).getLsbD i = true ↔
      (n = pl.reg ∧ pl.lo ≤ i ∧ i < pl.lo + pl.width) ∨ (placesMask ps n).getLsbD i = true := by
  simp only [getLsbD_placesMask, List.mem_cons, exists_eq_or_imp, h32, true_and, eq_comm (a := n)]

theorem getLsbD_placesMask_nil (n : RegName) (i : Nat) : (placesMask [] n).getLsbD i = false := by
  simp [placesMask]

/-- Where the settling fields lie (R18, R19, R23). -/
theorem getLsbD_rwsMask (p : Params) (n : RegName) {i : Nat} (h32 : i < 32) :
    (rwsMask p n).getLsbD i = true ↔
      (n = .pwrCr ∧ p.regmap.vos ≤ i ∧ i < p.regmap.vos + 2)
      ∨ (n = .flashAcr ∧ p.regmap.latency ≤ i ∧ i < p.regmap.latency + 4)
      ∨ (n = .gateAhb1 ∧ ∃ k, p.regmap.gpioen.get k = i)
      ∨ ∃ e ∈ p.usart, e.bit.val = i ∧ ((e.bus = .apb1 ∧ n = .gateApb1) ∨ (e.bus = .apb2 ∧ n = .gateApb2)) := by
  rw [← getLsbD_gpioPlaces p.regmap n h32, ← getLsbD_usartPlaces p n h32, ← getLsbD_placesMask_append]
  unfold rwsMask rwsPlaces
  rw [List.cons_append, getLsbD_placesMask_cons _ _ _ h32, List.cons_append, getLsbD_placesMask_cons _ _ _ h32]
  rfl

/-- Where the read-only fields lie (R20, R22). -/
theorem getLsbD_roMask (m : Regmap) (n : RegName) {i : Nat} (h32 : i < 32) :
    (roMask m n).getLsbD i = true ↔
      (n = .clkCr ∧ (i = m.oscRdy ∨ i = m.pllRdy)) ∨ (n = .clkCfgr ∧ m.sws ≤ i ∧ i < m.sws + 2) := by
  simp only [roMask, roPlaces, getLsbD_placesMask_cons _ _ _ h32, getLsbD_placesMask_nil, FixedField.place,
    FixedField.reg, FixedField.lo, FixedField.width, mem_oneWide_iff, and_or_left, or_assoc, Bool.false_eq_true, or_false]

/-- Where the five PLL fields lie (R21, R130). -/
theorem getLsbD_pllFieldsMask (m : Regmap) (n : RegName) {i : Nat} (h32 : i < 32) :
    (pllFieldsMask m n).getLsbD i = true ↔
      (n = m.pllm.reg ∧ m.pllm.lo ≤ i ∧ i < m.pllm.lo + 6) ∨ (n = m.plln.reg ∧ m.plln.lo ≤ i ∧ i < m.plln.lo + 9)
      ∨ (n = m.pllp.reg ∧ m.pllp.lo ≤ i ∧ i < m.pllp.lo + 2) ∨ (n = m.pllq.reg ∧ m.pllq.lo ≤ i ∧ i < m.pllq.lo + 4)
      ∨ (n = m.pllsrc.reg ∧ i = m.pllsrc.lo) := by
  simp only [pllFieldsMask, pllFields, List.map_cons, List.map_nil, getLsbD_placesMask_cons _ _ _ h32,
    getLsbD_placesMask_nil, FixedField.place, FixedField.reg, FixedField.lo, FixedField.width, mem_oneWide_iff,
    Bool.false_eq_true, or_false]

/-! ## A field as a number -/

/-- R6: a field of a word is the number its bits stand for. -/
theorem FixedField.toNat_get (m : Regmap) (f : FixedField) (v : Word) :
    (f.get m v).toNat = v.toNat / 2 ^ f.lo m % 2 ^ f.width := by
  unfold FixedField.get
  rw [BitVec.extractLsb'_toNat, Nat.shiftRight_eq_div_pow]

/-- R7: so is a field as it reads, of the word its register shows. -/
theorem RegFile.toNat_rd (m : Regmap) (f : FixedField) (r : RegFile) :
    (r.rd m f).toNat = (r.get (f.reg m)).r.toNat / 2 ^ f.lo m % 2 ^ f.width :=
  f.toNat_get m _

/-! ## What a turn, and so a step, leaves alone -/

/-- A port access that is not refused is a write of a register or changes nothing (R50). -/
theorem portStep_next {a : PortAccess} {s s' : State} (h : portStep a s = .next s') :
    s' = s ∨ ∃ n v, s' = memWrite .port n v s := by
  unfold portStep at h
  (repeat' split at h) <;> cases h
  · exact .inr ⟨_, _, rfl⟩
  · exact .inl rfl

theorem forceStep_params {q : FieldName} {v : Word} {s s' : State} (h : forceStep q v s = .next s') :
    s'.params = s.params := by
  unfold forceStep at h
  (repeat' split at h) <;> cases h <;> rfl

/-- No turn of any agent changes a parameter (R5). -/
theorem turnStep_params {tn : Turn} {s s' : State} (h : turnStep tn s = .next s') : s'.params = s.params := by
  cases tn with
  | go => cases h; exact engineStep_params s
  | plant q => cases h; exact plantStep_params q s
  | port a =>
    obtain rfl | ⟨n, v, rfl⟩ := portStep_next h
    · rfl
    · exact memWrite_params .port n v s
  | force q v => exact forceStep_params h
  | reset => cases h; exact resetStep_params s

/-- Every turn keeps the canonical form of the register file. -/
theorem turnStep_wf {tn : Turn} {s s' : State} (hs : s.regs.wf s.params) (h : turnStep tn s = .next s') :
    s'.regs.wf s.params := by
  cases tn with
  | go => cases h; exact engineStep_wf hs
  | plant q => cases h; exact plantStep_wf hs
  | port a =>
    obtain rfl | ⟨n, v, rfl⟩ := portStep_next h
    · exact hs
    · exact memWrite_wf hs
  | force q v => exact (forceStep_wf hs h).1
  | reset => cases h; exact resetStep_wf s

/-- No step changes a parameter (R5). -/
theorem step_params {s t : State} (h : step s = .next t) : t.params = s.params :=
  step_keeps (P := fun u => u.params = s.params) (fun _ _ hu => hu) (fun _ _ hu => hu)
    (fun q u hu => (plantStep_params q u).trans hu) (fun u hu => (engineStep_params u).trans hu)
    (fun _ _ _ hu e => (turnStep_params e).trans hu) (fun _ _ hu _ _ => hu) (fun _ _ _ _ hu _ => hu) rfl h

/-- Every step keeps the canonical form of the register file. -/
theorem step_wf {s t : State} (hs : s.regs.wf s.params) (h : step s = .next t) : t.regs.wf t.params :=
  step_keeps (P := fun u => u.regs.wf u.params) (fun _ _ hu => hu) (fun _ _ hu => hu)
    (fun q u hu => plantStep_params q u ▸ plantStep_wf hu) (fun u hu => engineStep_params u ▸ engineStep_wf hu)
    (fun _ _ _ hu e => turnStep_params e ▸ turnStep_wf hu e) (fun _ _ hu _ _ => hu) (fun _ _ _ _ hu _ => hu) hs h

/-! ## The statements settled -/

/-- Settles O60: the induction over a step, once for the parameters and once for the canonical form. -/
theorem everyStepKeepsTheParameters : Obligations.EveryStepKeepsTheParameters :=
  fun _ _ h => ⟨step_params h, fun hs => step_wf hs h⟩

/-- Settles O47: the bits by the lemmas of the three classes, the fields by `FixedField.toNat_get`, and the default map by
evaluating it. -/
theorem fieldsLieWhereTheMapSays : Obligations.FieldsLieWhereTheMapSays := by
  refine ⟨fun p n i h32 => ?_, fun m v => ?_, ?_⟩
  · exact ⟨getLsbD_rwsMask p n h32, getLsbD_roMask p.regmap n h32, getLsbD_pllFieldsMask p.regmap n h32⟩
  · exact ⟨FixedField.toNat_get m .vos v, FixedField.toNat_get m .latency v, FixedField.toNat_get m .oscRdy v,
      FixedField.toNat_get m .pllOn v, FixedField.toNat_get m .pllRdy v, FixedField.toNat_get m .sw v,
      FixedField.toNat_get m .sws v, FixedField.toNat_get m .hpre v, FixedField.toNat_get m .ppre1 v,
      FixedField.toNat_get m .ppre2 v, fun f => ⟨f.toNat_rd m .pllm, f.toNat_rd m .plln, f.toNat_rd m .pllp,
      f.toNat_rd m .pllq, f.toNat_rd m .pllsrc, f.toNat_rd m .prften, f.toNat_rd m .icen, f.toNat_rd m .dcen⟩⟩
  · decide

end Sys2Proof.Machine

/-! SUPPORT. What a write of the register file and a plant step do to each field as it reads, and that every step of every
agent keeps the machine's invariant (R30, R31, R53, R230, R231). -/

namespace Sys2Proof.Machine

/-! ## A field as it reads -/

theorem RegFile.rd_set (m : Regmap) (f : RegFile) (n : RegName) (x : Reg) (k : FixedField) :
    (f.set n x).rd m k = if k.reg m = n then k.get m x.r else f.rd m k := by
  unfold RegFile.rd
  rw [RegFile.get_set]
  split <;> rfl

/-- A field set to a value reads it, cut to its width. -/
theorem RegFile.rd_setField_same {p : Params} (h : mapWf p) (q : FixedField) (v : Word) (f : RegFile) :
    (f.setField p.regmap q v).rd p.regmap q = v.setWidth q.width := by
  unfold RegFile.setField
  rw [RegFile.rd_set, if_pos rfl]
  exact q.get_merge_put _ (mapWf_fits h q)

/-- A field set leaves every other field as it reads. -/
theorem RegFile.rd_setField_of_ne {p : Params} (h : mapWf p) {q k : FixedField} (hne : k ≠ q) (v : Word) (f : RegFile) :
    (f.setField p.regmap q v).rd p.regmap k = f.rd p.regmap k := by
  unfold RegFile.setField
  rw [RegFile.rd_set]
  split
  · next hr =>
    rw [RegFile.rd, hr]
    exact k.get_merge_of_disjoint _ (mapWf_masks h hne.symm hr.symm)
  · rfl

/-- `Safe` is read off `SWS`, `HPRE`, `VOS`, `LATENCY` and, with the PLL in use, the PLL fields (R231). -/
theorem RegFile.safe_congr {p : Params} {f g : RegFile} (hsws : g.rd p.regmap .sws = f.rd p.regmap .sws)
    (hhpre : g.rd p.regmap .hpre = f.rd p.regmap .hpre) (hvos : g.rd p.regmap .vos = f.rd p.regmap .vos)
    (hlat : g.rd p.regmap .latency = f.rd p.regmap .latency)
    (hpll : f.rd p.regmap .sws = srcPll → ∀ k ∈ pllFields, g.rd p.regmap k = f.rd p.regmap k) :
    g.safe p = f.safe p := by
  have hsws' : swsOf p.regmap g.clkCfgr.r = swsOf p.regmap f.clkCfgr.r := hsws
  have hhpre' : hpreOf p.regmap g.clkCfgr.r = hpreOf p.regmap f.clkCfgr.r := hhpre
  have hvos' : vosOf p.regmap g.pwrCr.r = vosOf p.regmap f.pwrCr.r := hvos
  have hlat' : latencyOf p.regmap g.flashAcr.r = latencyOf p.regmap f.flashAcr.r := hlat
  have hcore : coreNow p.regmap g = coreNow p.regmap f := by
    simp only [coreNow, coreFreq, hsws', hhpre']
    split
    · next hs =>
      have hk := hpll hs
      simp only [pllFreq, hk .pllm (by decide), hk .plln (by decide), hk .pllp (by decide)]
    · rfl
  simp only [RegFile.safe, hcore, hvos', hlat']

/-! ## The fields after a write -/

theorem pllOn_setField_pllRdy {p : Params} (h : mapWf p) (v : Word) (f : RegFile) :
    (f.setField p.regmap .pllRdy v).pllOn p.regmap = f.pllOn p.regmap :=
  congrArg (· == 1) (RegFile.rd_setField_of_ne h (q := .pllRdy) (k := .pllOn) (by decide) v f)

/-- Every field but `PLL_RDY` after a write: the new value where the field lies in the register written, is taken and does
not settle, and what it read before otherwise (R53). -/
theorem rd_afterWrite {p : Params} (h : mapWf p) {k : FixedField} (hk : k ≠ .pllRdy) (n : RegName) (v : Word)
    (f : RegFile) :
    (afterWrite p n v f).rd p.regmap k
      = if k.reg p.regmap = n ∧ k.taken (f.pllOn p.regmap) ∧ k ∉ [FixedField.vos, .latency] then k.get p.regmap v
        else f.rd p.regmap k := by
  have hset : (f.set n (writtenReg p (f.pllOn p.regmap) n v (f.get n))).rd p.regmap k
      = if k.reg p.regmap = n ∧ k.taken (f.pllOn p.regmap) ∧ k ∉ [FixedField.vos, .latency] then k.get p.regmap v
        else f.rd p.regmap k := by
    rw [RegFile.rd_set]
    by_cases hr : k.reg p.regmap = n
    · subst hr
      rw [if_pos rfl, FixedField.get_written h]
      simp only [true_and, RegFile.rd]
    · rw [if_neg hr, if_neg fun e => hr e.1]
  unfold afterWrite
  dsimp only
  split
  · rw [RegFile.rd_setField_of_ne h hk, hset]
  · exact hset

/-- A write changes no read-only field but `PLL_RDY`, shows nothing yet of a settling field, and leaves the PLL fields alone
while the PLL runs (R53). -/
theorem rd_afterWrite_kept {p : Params} (h : mapWf p) {k : FixedField} {f : RegFile}
    (hk : k ∈ [FixedField.oscRdy, .sws, .vos, .latency] ∨ f.pllOn p.regmap = true ∧ k ∈ pllFields) (n : RegName)
    (v : Word) :
    (afterWrite p n v f).rd p.regmap k = f.rd p.regmap k := by
  have hne : k ≠ .pllRdy := by
    rintro rfl
    revert hk
    simp [pllFields]
  rw [rd_afterWrite h hne, if_neg]
  rintro ⟨-, ⟨hro, hpll⟩, hset⟩
  rcases hk with hk | ⟨hon, hk⟩
  · simp only [List.mem_cons, List.not_mem_nil, or_false] at hk hro hset
    tauto
  · exact hpll hon hk

theorem clearsPll_afterWrite {p : Params} (h : mapWf p) (n : RegName) (v : Word) (f : RegFile) :
    clearsPll p.regmap f (afterWrite p n v f)
      = clearsPll p.regmap f (f.set n (writtenReg p (f.pllOn p.regmap) n v (f.get n))) := by
  unfold afterWrite
  dsimp only
  split
  · unfold clearsPll
    rw [pllOn_setField_pllRdy h]
  · rfl

/-- `PLL_RDY` after a write: cleared with `PLL_ON`, and left alone otherwise (R53). -/
theorem rd_afterWrite_pllRdy {p : Params} (h : mapWf p) (n : RegName) (v : Word) (f : RegFile) :
    (afterWrite p n v f).rd p.regmap .pllRdy
      = if clearsPll p.regmap f (afterWrite p n v f) = true then 0 else f.rd p.regmap .pllRdy := by
  rw [clearsPll_afterWrite h]
  unfold afterWrite
  dsimp only
  split
  · exact RegFile.rd_setField_same h .pllRdy 0 _
  · rw [RegFile.rd_set]
    split
    · next hr =>
      subst hr
      rw [FixedField.get_written h, if_neg (by simp [FixedField.taken])]
      rfl
    · rfl

/-! ## A write without a hazard keeps the clock tree and `Safe` -/

/-- A write that meets no hazard does not switch off the PLL in use, and where it changes `HPRE` it leaves `Safe` true
(R230, R231). -/
theorem writeHazard_none {p : Params} {n : RegName} {f g : RegFile} (hz : writeHazard p n f g = none) :
    (clearsPll p.regmap f g = true → f.rd p.regmap .sws ≠ srcPll)
      ∧ (g.rd p.regmap .hpre = f.rd p.regmap .hpre ∨ g.safe p = true) := by
  unfold writeHazard at hz
  dsimp only at hz
  split at hz
  · cases hz
  · next hoff =>
    split at hz
    · cases hz
    · split at hz
      · cases hz
      · next hsafe =>
        refine ⟨fun hc hs => hoff ⟨hc, hs⟩, or_iff_not_imp_left.2 fun hne => ?_⟩
        by_contra hns
        exact hsafe ⟨hne, hns⟩

theorem afterWrite_clockOk {p : Params} (h : mapWf p) {n : RegName} {v : Word} {f : RegFile}
    (hf : f.clockOk p.regmap) (hz : writeHazard p n f (afterWrite p n v f) = none) :
    (afterWrite p n v f).clockOk p.regmap := by
  have hsws := rd_afterWrite_kept (k := .sws) (f := f) h (.inl (by decide)) n v
  have hrdy := rd_afterWrite_pllRdy h n v f
  obtain ⟨hon, huse⟩ := hf
  show ((afterWrite p n v f).rd p.regmap .pllRdy = 1 → _)
    ∧ ((afterWrite p n v f).rd p.regmap .sws = srcPll → (afterWrite p n v f).rd p.regmap .pllRdy = 1)
  rw [hrdy, hsws]
  by_cases hc : clearsPll p.regmap f (afterWrite p n v f) = true
  · rw [if_pos hc]
    exact ⟨fun e => absurd e (by decide), fun e => absurd e ((writeHazard_none hz).1 hc)⟩
  · rw [if_neg hc]
    refine ⟨fun e => ?_, huse⟩
    simpa [clearsPll, hon e] using hc

theorem afterWrite_safe {p : Params} (h : mapWf p) {n : RegName} {v : Word} {f : RegFile}
    (hf : f.clockOk p.regmap) (hs : f.safe p = true) (hz : writeHazard p n f (afterWrite p n v f) = none) :
    (afterWrite p n v f).safe p = true := by
  obtain ⟨hon, huse⟩ := hf
  rcases (writeHazard_none hz).2 with hhpre | hsafe
  · rw [← hs]
    exact RegFile.safe_congr (rd_afterWrite_kept h (.inl (by decide)) n v) hhpre
      (rd_afterWrite_kept h (.inl (by decide)) n v) (rd_afterWrite_kept h (.inl (by decide)) n v)
      fun e k hk => rd_afterWrite_kept h (.inr ⟨hon (huse e), hk⟩) n v
  · exact hsafe

/-! ## The fields after a plant step -/

/-- The field a plant step sets (R30, R31). -/
def PlantStep.field : PlantStep → FieldName
  | .settle q => q.toField
  | .oscReady => .fixed .oscRdy
  | .pllLock => .fixed .pllRdy
  | .muxSwitch => .fixed .sws

/-- A named field shares no bit with another field of the map. -/
theorem FieldName.place_apart {p : Params} (h : mapWf p) {q : FieldName} {pl : Place} (hq : q.place p = some pl)
    {k : FixedField} (hne : q ≠ .fixed k) : pl.Apart (k.place p.regmap) := by
  cases q with
  | fixed g => cases hq; exact mapWf_apart h fun e => hne (e ▸ rfl)
  | gpioen j => cases hq; exact apart_symm (mapWf_apart_gpio h k j)
  | usarten id =>
    obtain ⟨e, he, rfl⟩ := Option.map_eq_some_iff.1 hq
    exact mapWf_apart_usart h (List.mem_of_find?_eq_some he) k

/-- A plant step changes no field of the map but its own. -/
theorem rd_plantEffect {p : Params} (h : mapWf p) {q : PlantStep} {k : FixedField} (hne : q.field ≠ .fixed k)
    (f : RegFile) : (plantEffect p f q).rd p.regmap k = f.rd p.regmap k := by
  cases q with
  | settle q =>
    simp only [plantEffect, SettlingField.bits]
    cases hpl : q.toField.place p with
    | none => rfl
    | some pl =>
      simp only [Option.map_some, RegFile.rd_set]
      split
      · next hr =>
        rw [RegFile.rd, hr]
        exact k.get_merge_of_disjoint _ (mask_and_of_apart (FieldName.place_apart h hpl hne) hr.symm)
      · rfl
  | oscReady => exact RegFile.rd_setField_of_ne h (by rintro rfl; exact hne rfl) _ _
  | pllLock => exact RegFile.rd_setField_of_ne h (by rintro rfl; exact hne rfl) _ _
  | muxSwitch => exact RegFile.rd_setField_of_ne h (by rintro rfl; exact hne rfl) _ _

/-- Of the fields there is one each of, only `VOS` and `LATENCY` settle. -/
theorem SettlingField.toField_ne {q : SettlingField} {k : FixedField} (hk : k ∉ [FixedField.vos, .latency]) :
    q.toField ≠ .fixed k := by
  simp only [List.mem_cons, List.not_mem_nil, or_false, not_or] at hk
  cases q <;> simp [SettlingField.toField, Ne.symm hk.1, Ne.symm hk.2]

theorem setWidth_setWidth_two (b : BitVec 2) : (b.setWidth 32).setWidth 2 = b := by
  revert b
  decide

/-- A field that does not settle is set by one plant step at most. -/
theorem PlantStep.eq_of_field {q q' : PlantStep} {k : FixedField} (hk : k ∉ [FixedField.vos, .latency])
    (h : q.field = .fixed k) (h' : q'.field = .fixed k) : q = q' := by
  cases q with
  | settle q => exact absurd h (SettlingField.toField_ne hk)
  | _ =>
    cases q' with
    | settle q' => exact absurd h' (SettlingField.toField_ne hk)
    | _ => cases h.trans h'.symm <;> rfl

/-- `osc_ready` sets `OSC_RDY`, and no other plant step changes it (R31). -/
theorem rd_plantEffect_oscRdy {p : Params} (h : mapWf p) (q : PlantStep) (f : RegFile) :
    (plantEffect p f q).rd p.regmap .oscRdy = if q = .oscReady then 1 else f.rd p.regmap .oscRdy := by
  split
  · next e => subst e; exact RegFile.rd_setField_same h .oscRdy 1 f
  · next hq => exact rd_plantEffect h (fun e => hq (PlantStep.eq_of_field (by decide) e rfl)) f

/-- `pll_lock` sets `PLL_RDY`, and no other plant step changes it (R31). -/
theorem rd_plantEffect_pllRdy {p : Params} (h : mapWf p) (q : PlantStep) (f : RegFile) :
    (plantEffect p f q).rd p.regmap .pllRdy = if q = .pllLock then 1 else f.rd p.regmap .pllRdy := by
  split
  · next e => subst e; exact RegFile.rd_setField_same h .pllRdy 1 f
  · next hq => exact rd_plantEffect h (fun e => hq (PlantStep.eq_of_field (by decide) e rfl)) f

/-- `mux_switch` gives `SWS` the value of `SW`, and no other plant step changes it (R31). -/
theorem swsOf_plantEffect {p : Params} (h : mapWf p) (q : PlantStep) (f : RegFile) :
    swsOf p.regmap (plantEffect p f q).clkCfgr.r
      = if q = .muxSwitch then swOf p.regmap f.clkCfgr.r else swsOf p.regmap f.clkCfgr.r := by
  split
  · next e =>
    subst e
    exact (RegFile.rd_setField_same h .sws _ f).trans (setWidth_setWidth_two _)
  · next hq => exact rd_plantEffect h (fun e => hq (PlantStep.eq_of_field (by decide) e rfl)) f

theorem plantEffect_pllOn {p : Params} (h : mapWf p) (q : PlantStep) (f : RegFile) :
    (plantEffect p f q).pllOn p.regmap = f.pllOn p.regmap := by
  refine congrArg (· == 1) (rd_plantEffect (k := .pllOn) h (fun e => ?_) f)
  cases q with
  | settle q => exact SettlingField.toField_ne (by decide) e
  | _ => cases e

/-- A source is selectable when it is the oscillator or the PLL, and ready (R230). -/
theorem selectable_iff (m : Regmap) (f : RegFile) (src : BitVec 2) :
    selectable m f src = true
      ↔ (src = srcOsc ∧ oscRdyOf m f.clkCr.r = 1) ∨ (src = srcPll ∧ pllRdyOf m f.clkCr.r = 1) := by
  have hne : srcOsc ≠ srcPll := by decide
  unfold selectable
  split
  · next e => simp [e, hne.symm]
  · split
    · next e => simp [e, hne]
    · simp [*]

/-- A plant step whose condition holds keeps the clock tree: only a running PLL locks, and only a locked one is
switched to. -/
theorem plantEffect_clockOk {p : Params} (h : mapWf p) {f : RegFile} {q : PlantStep} (hf : f.clockOk p.regmap)
    (hc : plantCondition p f q = true) : (plantEffect p f q).clockOk p.regmap := by
  obtain ⟨hon, huse⟩ := hf
  show ((plantEffect p f q).rd p.regmap .pllRdy = 1 → _)
    ∧ (_ → (plantEffect p f q).rd p.regmap .pllRdy = 1)
  rw [plantEffect_pllOn h, rd_plantEffect_pllRdy h, swsOf_plantEffect h]
  by_cases hlock : q = .pllLock
  · subst hlock
    simp only [plantCondition, Bool.and_eq_true] at hc
    exact ⟨fun _ => hc.1, fun _ => rfl⟩
  · rw [if_neg hlock]
    refine ⟨hon, fun e => ?_⟩
    split at e
    · next hmux =>
      subst hmux
      simp only [plantCondition, Bool.and_eq_true, selectable_iff] at hc
      rcases hc.2 with ⟨hosc, -⟩ | ⟨-, hrdy⟩
      · exact absurd (e.symm.trans hosc) (by decide)
      · exact hrdy
    · exact huse e

/-- A plant step at which `Safe` is not checked changes nothing that `Safe` is read off (R231). -/
theorem plantEffect_safe_of_unchecked {p : Params} (h : mapWf p) (f : RegFile) {q : PlantStep}
    (hq : plantChecked q = false) : (plantEffect p f q).safe p = f.safe p := by
  have hne : ∀ k ∈ [FixedField.sws, .hpre, .vos, .latency] ++ pllFields, q.field ≠ .fixed k := by
    intro k hk
    cases q with
    | settle q => cases q <;> simp [plantChecked, PlantStep.field, SettlingField.toField] at hq ⊢
    | oscReady => rintro ⟨⟩; revert hk; decide
    | pllLock => rintro ⟨⟩; revert hk; decide
    | muxSwitch => cases hq
  exact RegFile.safe_congr (rd_plantEffect h (hne _ (by decide)) f) (rd_plantEffect h (hne _ (by decide)) f)
    (rd_plantEffect h (hne _ (by decide)) f) (rd_plantEffect h (hne _ (by decide)) f)
    fun _ k hk => rd_plantEffect h (hne k (List.mem_append_right _ hk)) f

/-! ## The invariant, agent by agent -/

/-- The invariant looks at the parameters and the register file alone. -/
theorem State.Inv.congr {s u : State} (hs : s.Inv) (hp : u.params = s.params) (hr : u.regs = s.regs) : u.Inv := by
  unfold State.Inv State.Safe
  rw [hp, hr]
  exact hs

theorem plantStep_inv (q : PlantStep) {s : State} (hs : s.Inv) : (plantStep q s).Inv := by
  obtain ⟨hp, hb, hwf, hck, hsafe⟩ := hs
  rcases plantStep_cases q s with ⟨-, e⟩ | ⟨-, -, -, e⟩ | ⟨hen, hchk, e⟩
  · rw [e]; exact ⟨hp, hb, hwf, hck, hsafe⟩
  · rw [e]; exact ⟨hp, hb, hwf, hck, hsafe⟩
  · rw [e]
    have hcond : plantCondition s.params s.regs q = true := by
      simp only [plantEnabled, Bool.and_eq_true] at hen
      exact hen.2
    refine ⟨hp, hb, plantEffect_wf q hwf, plantEffect_clockOk hp.1 hck hcond, ?_⟩
    cases hc : plantChecked q with
    | true => exact hchk hc
    | false => exact (plantEffect_safe_of_unchecked hp.1 s.regs hc).trans hsafe

theorem memWrite_inv (who : Writer) (n : RegName) (v : Word) {s : State} (hs : s.Inv) : (memWrite who n v s).Inv := by
  obtain ⟨hp, hb, hwf, hck, hsafe⟩ := hs
  rcases memWrite_cases who n v s with ⟨ht, -⟩ | ⟨-, f, -, e⟩ | ⟨-, hz, e⟩
  · rw [hb] at ht; cases ht
  · rw [e]; exact ⟨hp, hb, hwf, hck, hsafe⟩
  · rw [e]
    refine State.Inv.congr (s := { s with regs := afterWrite s.params n v s.regs }) ?_ (by simp) (by simp)
    exact ⟨hp, hb, afterWrite_wf n v hwf, afterWrite_clockOk hp.1 hck hz, afterWrite_safe hp.1 hck hsafe hz⟩

/-- A micro-step of the engine writes one register or leaves the register file alone. -/
theorem engineStep_regs (s : State) :
    (engineStep s).regs = s.regs ∨ ∃ n v rest, engineStep s = memWrite .engine n v { s with ph := rest } := by
  by_cases hr : s.running = true
  · cases hph : s.ph with
    | nil => exact .inl (by simp [engineStep, hph])
    | cons m rest =>
      rw [engineStep_cons hr hph]
      cases m with
      | store n mask v => exact .inr ⟨n, _, rest, rfl⟩
      | _ =>
        refine .inl ?_
        simp only [runMicro, freqClkStep, freqPllStep]
        repeat' split
        all_goals simp
  · exact .inl (by rw [engineStep_of_not_running (by simpa using hr)])

theorem engineStep_inv {s : State} (hs : s.Inv) : (engineStep s).Inv := by
  rcases engineStep_regs s with h | ⟨n, v, rest, h⟩
  · exact hs.congr (engineStep_params s) h
  · rw [h]; exact memWrite_inv _ _ _ (hs.congr rfl rfl)

/-- Admissible parameters ask of the reset profile what the invariant asks of the register file (R40). -/
theorem resetWith_inv {p : Params} (hp : paramsWf p) (hb : p.binding = .production) : (State.resetWith p).Inv := by
  have ⟨_, _, hsafe, hon, huse⟩ := hp
  exact ⟨hp, hb, RegFile.wf_ofProfile p p.profile, ⟨fun e => beq_iff_eq.2 (hon e), huse⟩, hsafe⟩

theorem resetStep_inv {s : State} (hs : s.Inv) : (resetStep s).Inv := by
  obtain ⟨hp, hb, -⟩ := hs
  exact (resetWith_inv hp hb).congr rfl rfl

theorem turnStep_inv {tn : Turn} {s t : State} (hs : s.Inv) (h : turnStep tn s = .next t) : t.Inv := by
  cases tn with
  | go => cases h; exact engineStep_inv hs
  | plant q => cases h; exact plantStep_inv q hs
  | port a =>
    obtain rfl | ⟨n, v, rfl⟩ := portStep_next h
    · exact hs
    · exact memWrite_inv _ _ _ hs
  | force q v =>
    obtain ⟨-, hb, -⟩ := hs
    simp [turnStep, forceStep, hb] at h
  | reset => cases h; exact resetStep_inv hs

/-- Settles O56: the induction over a step, with one lemma for the moves of each agent. -/
theorem everyStepKeepsTheInvariant : Obligations.EveryStepKeepsTheInvariant :=
  fun _ _ hs h =>
    step_keeps (P := State.Inv) (fun _ _ hu => hu) (fun _ _ hu => hu) (fun q _ hu => plantStep_inv q hu)
      (fun _ hu => engineStep_inv hu) (fun _ _ _ hu e => turnStep_inv hu e) (fun _ _ hu _ _ => hu)
      (fun _ _ _ _ hu _ => hu) hs h

end Sys2Proof.Machine

/-! SUPPORT. What a fault and a running command leave enabled (R10, R12, R34), which step comes next (R12, R13, R60), and
what reset leaves (R40). -/

namespace Sys2Proof.Machine

/-! ## A stopped and a busy block -/

theorem running_of_fault {s : State} {f : Fault} (h : s.fault = some f) : s.running = false := by
  simp [State.running, h]

/-- Where the block is not idle every command is put to `issue`, `SEQ_RUN` too. -/
theorem exec_of_not_idle {s : State} (h : s.idle = false) (i : Instr) : exec i s = issue i (programOf i s) s :=
  exec_eq_issue i s fun _ hi => by simp [h] at hi

/-- With a fault recorded every command answers it (R34). -/
theorem exec_of_fault {s : State} {f : Fault} (h : s.fault = some f) (i : Instr) : exec i s = .fault f := by
  rw [exec_of_not_idle (by simp [State.idle, h])]
  exact issueWord_of_fault h _ _ _ _

theorem plantStep_of_fault {s : State} {f : Fault} (h : s.fault = some f) (q : PlantStep) : plantStep q s = s := by
  simp [plantStep, plantEnabled, h]

/-- With a fault recorded every step but reset answers it (R34, R220). -/
theorem step_of_fault {s : State} {f : Fault} (h : s.fault = some f) (hr : s.agenda.head? ≠ some .reset) :
    step s = .fault f := by
  simp only [step, choose, h]
  cases ha : s.agenda with
  | nil => rfl
  | cons tn ts =>
    cases tn with
    | reset => simp [ha] at hr
    | _ => rfl

/-- Settles O10: commands, engine, plant and step, each by its own lemma. -/
theorem faultStopsEveryAgent : Obligations.FaultStopsEveryAgent :=
  fun _ _ h => ⟨exec_of_fault h, engineStep_of_not_running (running_of_fault h), plantStep_of_fault h, step_of_fault h⟩

/-- Settles O11: a running block is not idle, so the command is put to `issue`, which refuses it. -/
theorem busyBlockRefusesCommands : Obligations.BusyBlockRefusesCommands := by
  intro s i h
  obtain ⟨hb, hf⟩ := (running_iff s).1 h
  rw [exec_of_not_idle (by simp [State.idle, hb])]
  exact issueWord_of_busy hf hb _ _ _ _

/-! ## Which step comes next -/

/-- The requester's next command, where it is not held back by a response that was not `OK` (R13, R90). -/
theorem present_command {s : State} {q : Request} {qs : List Request} {i : Instr} (hq : s.requests = q :: qs)
    (hok : q.onlyIfOk = true → s.st = .ok) (hd : decode q.word = .ok i) :
    present s = .command i { s with requests := qs } := by
  have hgo : (q.onlyIfOk && s.st != .ok) = false := by
    cases ho : q.onlyIfOk with
    | false => rfl
    | true => simp [hok ho]
  simp [present, hq, hgo, hd]

/-- The step of an idle block whose turn it is, listed or with nothing listed, is the requester's (R60). -/
theorem choose_own_turn {s : State} {ts : List Turn} (h : s.idle = true)
    (ha : s.agenda = .go :: ts ∨ (s.agenda = [] ∧ ts = [])) : choose s = present { s with agenda := ts } := by
  obtain ⟨hb, hf⟩ := (idle_iff s).1 h
  rcases ha with ha | ⟨ha, rfl⟩
  · simp [choose, hb, hf, ha]
  · rw [show ({ s with agenda := [] } : State) = s by rw [← ha]]
    simp [choose, hb, hf, ha]

/-- The step of an idle block whose turn it is runs the command presented. -/
theorem step_command {s : State} {q : Request} {qs : List Request} {ts : List Turn} {i : Instr} (h : s.idle = true)
    (hq : s.requests = q :: qs) (hok : q.onlyIfOk = true → s.st = .ok)
    (ha : s.agenda = .go :: ts ∨ (s.agenda = [] ∧ ts = [])) (hd : decode q.word = .ok i) :
    step s = exec i { s with requests := qs, agenda := ts } := by
  simp only [step, choose_own_turn h ha]
  rw [present_command (s := { s with agenda := ts }) hq hok hd]

/-- The step of an idle block on another agent's turn is that turn (R60). -/
theorem step_other_turn {s : State} {tn : Turn} {ts : List Turn} (h : s.idle = true) (ha : s.agenda = tn :: ts)
    (hne : tn ≠ .go) : step s = turnStep tn { s with agenda := ts } := by
  obtain ⟨hb, hf⟩ := (idle_iff s).1 h
  cases tn with
  | go => exact absurd rfl hne
  | _ => simp [step, choose, hb, hf, ha]

/-- While a command runs, a turn it is not stopped by leads to the step of the state after it. -/
theorem step_turn_running {s u : State} {tn : Turn} {ts : List Turn} (h : s.running = true) (ha : s.agenda = tn :: ts)
    (ht : turnStep tn { s with agenda := ts } = .next u) (hu : u.running = true) : step s = step u := by
  rw [step_of_running h, ha, runTurns_cons h ts ht, step_of_running hu, turnStep_agenda ht]

/-- A turn that ends the command, or stops it, ends the step. -/
theorem step_turn_last {s u : State} {tn : Turn} {ts : List Turn} (h : s.running = true) (ha : s.agenda = tn :: ts)
    (ht : turnStep tn { s with agenda := ts } = .next u) (hu : u.running = false) : step s = .next u := by
  have hts : u.agenda = ts := turnStep_agenda ht
  rw [step_of_running h, ha, runTurns_cons h ts ht, runTurns_of_not_running hu, ← hts]

theorem step_turn_refused {s : State} {tn : Turn} {ts : List Turn} {r : Refusal} (h : s.running = true)
    (ha : s.agenda = tn :: ts) (ht : turnStep tn { s with agenda := ts } = .refused r) : step s = .refused r := by
  rw [step_of_running h, ha]
  simp [runTurns, h, ht]

/-- Settles O7: the command, the other agents' turns and the turns of a running command by the lemmas above; the engine's
micro-steps by `engineStep_cons`. -/
theorem stepRunsThePresentedCommand : Obligations.StepRunsThePresentedCommand := by
  refine ⟨?command, ?otherTurn, ?running, ?turns, ?micro⟩
  case command => exact fun s q qs ts i h hq hok ha hd => step_command h hq hok ha hd
  case otherTurn => exact fun s tn ts h ha hne => step_other_turn h ha hne
  case running =>
    exact fun s tn ts h ha => ⟨fun u ht hu => step_turn_running h ha ht hu,
      fun u ht hu => step_turn_last h ha ht hu, fun r ht => step_turn_refused h ha ht⟩
  case turns => exact fun u => ⟨rfl, fun _ => rfl, fun _ => rfl, fun _ _ => rfl⟩
  case micro =>
    intro u n mask v rest h
    exact ⟨fun hp => engineStep_cons h hp, fun hp => engineStep_cons h hp,
      fun hp hv => (engineStep_cons h hp).trans (if_pos hv), fun hp hv => (engineStep_cons h hp).trans (if_neg hv),
      fun hp => engineStep_cons h hp⟩

/-- A table word that is a command decodes to it. -/
theorem decode_of_decodeTableWord {nbits w : Nat} {i : Instr} (h : decodeTableWord nbits w = some i) :
    decode (BitVec.ofNat 72 (w % 2 ^ nbits)) = .ok i := by
  unfold decodeTableWord at h
  split at h <;> cases h
  assumption

/-- Settles O8: what `withFetchWord` stores is an idle block with the command presented and its own turn first. -/
theorem storedCommandIsRunNext : Obligations.StoredCommandIsRunNext := fun s nbits w _ h =>
  step_command (s := s.withFetchWord nbits w) rfl rfl nofun (.inl rfl) (decode_of_decodeTableWord h)

/-! ## Reset -/

/-- Settles O13: reset takes every register's two values from the profile's one word. -/
theorem resetLeavesTheProfile : Obligations.ResetLeavesTheProfile := by
  intro p
  refine ⟨rfl, rfl, rfl, rfl, fun n => ?_, rfl, rfl, rfl, rfl, rfl, rfl, rfl, rfl⟩
  cases n <;> rfl

/-- The spec's default parameters are admissible (R5, R26, R40). -/
theorem defaultParams_wf : paramsWf defaultParams := by decide

/-- Settles O57: the default parameters are admissible and of the production binding. -/
theorem resetHasTheInvariant : Obligations.ResetHasTheInvariant :=
  resetWith_inv defaultParams_wf rfl

/-- Settles O59: reset leaves the block idle with `PH` empty. -/
theorem resetHasASoundEngine : Obligations.ResetHasASoundEngine :=
  fun _ => ⟨nofun, fun _ => rfl⟩

end Sys2Proof.Machine

/-! SUPPORT. The plant's steps one by one: when each is enabled and what it does (R30, R31, R231). -/

namespace Sys2Proof.Machine

/-! ## Masks -/

/-- Merging with a word that has the mask's ones and no other bit is an OR. -/
theorem merge_same (k x : Word) : merge k k x = x ||| k := by
  apply BitVec.eq_of_getLsbD_eq
  intro i _
  rw [getLsbD_merge, BitVec.getLsbD_or]
  cases k.getLsbD i <;> simp

/-- A value put in its field's place is in the field's mask. -/
theorem FixedField.put_and_mask (m : Regmap) (f : FixedField) (b : BitVec f.width) :
    f.put m (b.setWidth 32) &&& f.mask m = f.put m (b.setWidth 32) := by
  apply BitVec.eq_of_getLsbD_eq
  intro i hi
  rw [BitVec.getLsbD_and, f.getLsbD_put, f.getLsbD_mask, BitVec.getLsbD_setWidth]
  by_cases hw : i < f.lo m + f.width
  · by_cases hlo : i < f.lo m
    · simp [hlo]
    · simp [hi, hw, Nat.le_of_not_lt hlo]
  · simp [BitVec.getLsbD_of_ge b (i - f.lo m) (by omega)]

/-- Merging a field's value in is clearing the field and OR-ing the value in. -/
theorem FixedField.merge_put (m : Regmap) (f : FixedField) (b : BitVec f.width) (x : Word) :
    merge (f.mask m) (f.put m (b.setWidth 32)) x = (x &&& ~~~ f.mask m) ||| f.put m (b.setWidth 32) := by
  rw [merge, f.put_and_mask]

/-- The bits of some places are among those of a list they are all in. -/
theorem placesMask_and_not {ps qs : List Place} (h : ∀ pl ∈ ps, pl ∈ qs) (n : RegName) :
    placesMask ps n &&& ~~~ placesMask qs n = 0 := by
  apply BitVec.eq_of_getLsbD_eq
  intro i _
  rw [BitVec.getLsbD_and, BitVec.getLsbD_not]
  by_cases hp : (placesMask ps n).getLsbD i = true
  · obtain ⟨pl, hpl, hbit⟩ := (getLsbD_placesMask ps n i).1 hp
    simp [(getLsbD_placesMask qs n i).2 ⟨pl, h pl hpl, hbit⟩]
  · simp [hp]

/-- The bits of a place are among those of a list it is in. -/
theorem mask_and_not_placesMask {qs : List Place} {pl : Place} (h : pl ∈ qs) :
    pl.mask &&& ~~~ placesMask qs pl.reg = 0 := by
  have e : placesMask [pl] pl.reg = pl.mask := by simp [placesMask]
  rw [← e]
  exact placesMask_and_not (by simpa using h) _

/-- A write is pending exactly where the two words differ in the mask (R30). -/
theorem pending_iff (mask : Word) (x : Reg) : pending mask x = true ↔ x.w &&& mask ≠ x.r &&& mask := by
  have e : (x.w ^^^ x.r) &&& mask = (x.w &&& mask) ^^^ (x.r &&& mask) := by
    apply BitVec.eq_of_getLsbD_eq
    intro i _
    simp only [BitVec.getLsbD_and, BitVec.getLsbD_xor]
    cases mask.getLsbD i <;> simp
  rw [pending, bne_iff_ne, e]
  exact not_congr BitVec.xor_eq_zero_iff

/-- Where the bits under the mask are the same, merging them in changes nothing. -/
theorem merge_of_and_eq {mask v x : Word} (h : v &&& mask = x &&& mask) : merge mask v x = x := by
  rw [merge, h]
  exact merge_self mask x

/-! ## A plant step in the production binding -/

theorem plantEnabled_eq {s : State} (hb : s.params.binding = .production) (hf : s.fault = none) (q : PlantStep) :
    plantEnabled s q = plantCondition s.params s.regs q := by
  simp [plantEnabled, hb, hf]

/-- An enabled plant step that keeps `Safe`, where that is checked, has its effect and no other (R31, R231). -/
theorem plantStep_of_enabled {s : State} {q : PlantStep} (he : plantEnabled s q = true)
    (hs : plantChecked q = true → (plantEffect s.params s.regs q).safe s.params = true) :
    plantStep q s = { s with regs := plantEffect s.params s.regs q } := by
  rcases plantStep_cases q s with ⟨hd, -⟩ | ⟨-, hc, hu, -⟩ | ⟨-, -, e⟩
  · rw [he] at hd; cases hd
  · rw [hs hc] at hu; cases hu
  · exact e

/-- The register file after a plant step is the one before, or the step's condition held and it had its effect. -/
theorem plantStep_regs (q : PlantStep) (s : State) :
    (plantStep q s).regs = s.regs
      ∨ (plantCondition s.params s.regs q = true ∧ (plantStep q s).regs = plantEffect s.params s.regs q) := by
  rcases plantStep_cases q s with ⟨-, e⟩ | ⟨-, -, -, e⟩ | ⟨he, -, e⟩
  · exact .inl (by rw [e])
  · exact .inl (by rw [e]; rfl)
  · simp only [plantEnabled, Bool.and_eq_true] at he
    exact .inr ⟨he.2, by rw [e]⟩

/-! ## `settle` -/

section
variable {p : Params} {q : SettlingField} {n : RegName} {mask : Word} (hq : SettlingField.bits p q = some (n, mask))
include hq

theorem plantCondition_settle (f : RegFile) : plantCondition p f (.settle q) = pending mask (f.get n) := by
  simp [plantCondition, hq]

theorem plantEffect_settle (f : RegFile) :
    plantEffect p f (.settle q) = f.set n ⟨(f.get n).w, merge mask (f.get n).w (f.get n).r⟩ := by
  simp [plantEffect, hq]

/-- With nothing pending there is nothing to settle. -/
theorem plantEffect_settle_of_not_pending {f : RegFile} (h : pending mask (f.get n) = false) :
    plantEffect p f (.settle q) = f := by
  have he : (f.get n).w &&& mask = (f.get n).r &&& mask := by
    by_contra hne
    rw [(pending_iff mask (f.get n)).2 hne] at h
    cases h
  rw [plantEffect_settle hq, merge_of_and_eq he]
  exact f.set_get n

end

/-- Only a level and a count are checked when they settle (R231). -/
theorem plantChecked_settle {q : SettlingField} (h : plantChecked (.settle q) = true) : q = .vos ∨ q = .latency := by
  cases q <;> simp [plantChecked] at h ⊢

section
variable {s : State} {q : SettlingField} {n : RegName} {mask : Word} (hb : s.params.binding = .production)
  (hf : s.fault = none) (hq : SettlingField.bits s.params q = some (n, mask))
include hb hf hq

/-- `settle` that records no fault leaves the register file with its effect, enabled or not. -/
theorem plantStep_settle_regs (hok : (plantStep (.settle q) s).fault = none) :
    (plantStep (.settle q) s).regs = plantEffect s.params s.regs (.settle q) := by
  rcases plantStep_cases (.settle q) s with ⟨hd, e⟩ | ⟨-, -, -, e⟩ | ⟨-, -, e⟩
  · rw [plantEnabled_eq hb hf, plantCondition_settle hq] at hd
    rw [e, plantEffect_settle_of_not_pending hq hd]
  · simp [e] at hok
  · rw [e]

/-- `settle` that keeps `Safe`, where that is checked, changes the register file and nothing else. -/
theorem plantStep_settle
    (hs : q = .vos ∨ q = .latency → (plantEffect s.params s.regs (.settle q)).safe s.params = true) :
    plantStep (.settle q) s = { s with regs := plantEffect s.params s.regs (.settle q) } := by
  cases he : plantEnabled s (.settle q) with
  | true => exact plantStep_of_enabled he fun hc => hs (plantChecked_settle hc)
  | false =>
    have hd := he
    rw [plantEnabled_eq hb hf, plantCondition_settle hq] at hd
    rw [plantEffect_settle_of_not_pending hq hd]
    simp [plantStep, he]

end

/-- Of the entries of one USART id the first counts (R180, notes/assumptions/27.md). -/
theorem usartEntry_first {p : Params} {pre post : List UsartEntry} {e : UsartEntry} (h : p.usart = pre ++ e :: post)
    (hpre : ∀ e' ∈ pre, e'.id ≠ e.id) : usartEntry p e.id = some e :=
  List.find?_eq_some_iff_append.2 ⟨by simp, pre, post, h, by simpa using hpre⟩

theorem usartEntry_none {p : Params} {id : Word} (h : ∀ e ∈ p.usart, e.id ≠ id) : usartEntry p id = none :=
  List.find?_eq_none.2 (by simpa using h)

/-- Settles O51: `settle` by the lemmas above, the places of the settling fields by `SettlingField.bits`. -/
theorem settleCopiesThePendingValue : Obligations.SettleCopiesThePendingValue := by
  refine ⟨fun s q n mask hb hf hq => ⟨?_, fun hok => ?_, fun hs => ?_⟩, fun p => ⟨rfl, rfl, fun _ => rfl, ?_, ?_⟩⟩
  · rw [plantEnabled_eq hb hf, plantCondition_settle hq]
    exact pending_iff mask _
  · rw [plantStep_settle_regs hb hf hq hok, plantEffect_settle hq, RegFile.get_set_same]
    exact ⟨rfl, merge_and_mask _ _ _, merge_and_not_mask _ _ _, fun k hk => RegFile.get_set_of_ne _ _ hk⟩
  · have e := plantStep_settle hb hf hq
    rw [plantEffect_settle hq] at e
    exact e hs
  · intro id hid
    simp [SettlingField.bits, SettlingField.toField, FieldName.place, usartEntry_none hid]
  · intro pre post e hp hpre
    have he := usartEntry_first hp hpre
    constructor <;> intro hbus <;>
      simp [SettlingField.bits, SettlingField.toField, FieldName.place, he, usartPlace, busReg, hbus, Place.mask,
        onesAt]

/-! ## The status fields -/

/-- The three fields the plant's other steps set are the read-only ones (R20, R22). -/
theorem roMask_covers {m : Regmap} {k : FixedField} (hk : k ∈ [FixedField.oscRdy, .pllRdy, .sws]) :
    k.mask m &&& ~~~ roMask m (k.reg m) = 0 :=
  mask_and_not_placesMask (pl := k.place m) (List.mem_map_of_mem (f := FixedField.place m) hk)

/-- Setting a read-only field changes no other bit. -/
theorem setField_ro_w {m : Regmap} {k : FixedField} (hk : k ∈ [FixedField.oscRdy, .pllRdy, .sws]) (v : Word)
    (f : RegFile) (n : RegName) :
    ((f.setField m k v).get n).w &&& ~~~ roMask m n = (f.get n).w &&& ~~~ roMask m n := by
  rw [RegFile.get_setField]
  split
  · next hn =>
    subst hn
    exact merge_and_of_disjoint _ _ _ _ (roMask_covers hk)
  · rfl

/-- No plant step changes a written bit but those of the status fields (R31). -/
theorem plantEffect_w (p : Params) (f : RegFile) (q : PlantStep) (n : RegName) :
    ((plantEffect p f q).get n).w &&& ~~~ roMask p.regmap n = (f.get n).w &&& ~~~ roMask p.regmap n := by
  cases q with
  | settle q =>
    simp only [plantEffect]
    split
    · rw [RegFile.get_set]
      split
      · next hn => subst hn; rfl
      · rfl
    · rfl
  | oscReady => exact setField_ro_w (by decide) _ _ _
  | pllLock => exact setField_ro_w (by decide) _ _ _
  | muxSwitch => exact setField_ro_w (by decide) _ _ _

/-- `osc_ready` is enabled exactly while `OSC_RDY = 0` (R31). -/
theorem plantCondition_oscReady (p : Params) (f : RegFile) :
    plantCondition p f .oscReady = true ↔ oscRdyOf p.regmap f.clkCr.r = 0 := beq_iff_eq

/-- `pll_lock` is enabled exactly while a PLL that is on is not locked (R31). -/
theorem plantCondition_pllLock (p : Params) (f : RegFile) :
    plantCondition p f .pllLock = true ↔ pllOnOf p.regmap f.clkCr.r = 1 ∧ pllRdyOf p.regmap f.clkCr.r = 0 := by
  simp [plantCondition, RegFile.pllOn]

/-- `mux_switch` is enabled exactly while `SW` names another source than `SWS` and that source may be selected (R31). -/
theorem plantCondition_muxSwitch (p : Params) (f : RegFile) :
    plantCondition p f .muxSwitch = true
      ↔ swsOf p.regmap f.clkCfgr.r ≠ swOf p.regmap f.clkCfgr.r
        ∧ selectable p.regmap f (swOf p.regmap f.clkCfgr.r) = true := by
  simp [plantCondition]

/-- A one-bit field set to 1 is its bit OR-ed in. -/
theorem Reg.force_one {m : Regmap} {k : FixedField} (hk : k.width = 1) (x : Reg) :
    x.force (k.mask m) (k.put m 1) = ⟨x.w ||| (1 : Word) <<< k.lo m, x.r ||| (1 : Word) <<< k.lo m⟩ := by
  have hmask : k.mask m = (1 : Word) <<< k.lo m := by simp [FixedField.mask, Place.mask, FixedField.place, hk, onesAt]
  simp [Reg.force, hmask, FixedField.put, merge_same]

theorem plantEffect_muxSwitch (p : Params) (f : RegFile) :
    let m := p.regmap
    let c := f.get .clkCfgr
    let sw := (swOf m c.r).setWidth 32 <<< m.sws
    plantEffect p f .muxSwitch = f.set .clkCfgr
      ⟨(c.w &&& ~~~ ((0b11 : Word) <<< m.sws)) ||| sw, (c.r &&& ~~~ ((0b11 : Word) <<< m.sws)) ||| sw⟩ := by
  have hmerge := FixedField.merge_put p.regmap .sws (swOf p.regmap f.clkCfgr.r)
  exact congrArg₂ (fun w r => f.set .clkCfgr ⟨w, r⟩) (hmerge _) (hmerge _)

/-- Settles O52: the conditions and effects step by step, and then what `plantEffect` leaves of each status field. -/
theorem plantOnlyRaisesStatus : Obligations.PlantOnlyRaisesStatus := by
  refine ⟨fun s hb hf _ => ?_, fun s q h => ?_⟩
  · have hen := fun q => plantEnabled_eq hb hf q
    have hosc := plantCondition_oscReady s.params s.regs
    have hlock := plantCondition_pllLock s.params s.regs
    refine ⟨by rw [hen]; exact hosc, fun h0 => ?_, by rw [hen]; exact hlock, fun h1 h0 => ?_, ?_, fun he hs => ?_⟩
    · rw [plantStep_of_enabled (by rw [hen]; exact hosc.2 h0) (fun e => by cases e)]
      exact congrArg (fun x => { s with regs := s.regs.set .clkCr x }) (Reg.force_one (k := .oscRdy) rfl _)
    · rw [plantStep_of_enabled (by rw [hen]; exact hlock.2 ⟨h1, h0⟩) (fun e => by cases e)]
      exact congrArg (fun x => { s with regs := s.regs.set .clkCr x }) (Reg.force_one (k := .pllRdy) rfl _)
    · rw [hen, plantCondition_muxSwitch, selectable_iff]
      rfl
    · have e := plantEffect_muxSwitch s.params s.regs
      rw [plantStep_of_enabled he fun _ => by rw [e]; exact hs, e]
  · dsimp only
    rcases plantStep_regs q s with e | ⟨hc, e⟩ <;> rw [e]
    · exact ⟨id, id, .inl, .inl rfl, fun _ => rfl⟩
    · have hosc := rd_plantEffect_oscRdy h q s.regs
      have hrdy := rd_plantEffect_pllRdy h q s.regs
      refine ⟨fun h1 => ?_, fun h1 => ?_, fun h1 => ?_, ?_, plantEffect_w _ _ q⟩
      · refine hosc.trans ?_
        split
        · rfl
        · exact h1
      · refine hrdy.trans ?_
        split
        · rfl
        · exact h1
      · by_cases hq : q = .pllLock
        · subst hq
          exact .inr ((plantCondition_pllLock _ _).1 hc).1
        · rw [if_neg hq] at hrdy
          exact .inl (hrdy.symm.trans h1)
      · rw [swsOf_plantEffect h]
        split
        · next hq =>
          subst hq
          exact .inr ⟨rfl, ((plantCondition_muxSwitch _ _).1 hc).2⟩
        · exact .inl rfl

end Sys2Proof.Machine

/-! SUPPORT. The bits that belong to no named field (R24): no move of the engine or the plant changes them. -/

namespace Sys2Proof.Machine

/-! ## Masks of named bits -/

theorem fixedPlace_named (p : Params) (k : FixedField) : k.place p.regmap ∈ namedPlaces p :=
  List.mem_append_left _ (List.mem_append_left _ (List.mem_map_of_mem (fixedFields_mem k)))

theorem gpioPlace_named (p : Params) (k : Fin 8) : gpioPlace p.regmap k ∈ namedPlaces p :=
  List.mem_append_left _ (List.mem_append_right _ (List.mem_map_of_mem (List.mem_finRange k)))

theorem usartPlace_named {p : Params} {e : UsartEntry} (he : e ∈ p.usart) : usartPlace e ∈ namedPlaces p :=
  List.mem_append_right _ (List.mem_map_of_mem he)

theorem FieldName.place_named {p : Params} {q : FieldName} {pl : Place} (hq : q.place p = some pl) :
    pl ∈ namedPlaces p := by
  cases q with
  | fixed k => cases hq; exact fixedPlace_named p k
  | gpioen k => cases hq; exact gpioPlace_named p k
  | usarten id =>
    obtain ⟨e, he, rfl⟩ := Option.map_eq_some_iff.1 hq
    exact usartPlace_named (List.mem_of_find?_eq_some he)

/-- A mask has no bit of register `n` that belongs to no named field (R24). -/
abbrev OnlyNamed (p : Params) (n : RegName) (mask : Word) : Prop := mask &&& ~~~ namedMask p n = 0

theorem onlyNamed_place {p : Params} {pl : Place} (h : pl ∈ namedPlaces p) : OnlyNamed p pl.reg pl.mask :=
  mask_and_not_placesMask h

theorem onlyNamed_fixed (p : Params) (k : FixedField) : OnlyNamed p (k.reg p.regmap) (k.mask p.regmap) :=
  onlyNamed_place (fixedPlace_named p k)

/-- The masks of a list of fields are named in every register. -/
theorem onlyNamed_fields (p : Params) (l : List FixedField) (n : RegName) :
    OnlyNamed p n (placesMask (l.map (FixedField.place p.regmap)) n) :=
  placesMask_and_not (fun pl hpl => by
    obtain ⟨k, -, rfl⟩ := List.mem_map.1 hpl
    exact fixedPlace_named p k) n

/-- The settling fields are named ones. -/
theorem onlyNamed_rwsMask (p : Params) (n : RegName) : OnlyNamed p n (rwsMask p n) := by
  refine placesMask_and_not (fun pl hpl => ?_) n
  simp only [rwsPlaces, List.mem_append, List.mem_cons] at hpl
  rcases hpl with (rfl | rfl | hpl) | hpl
  · exact fixedPlace_named p _
  · exact fixedPlace_named p _
  · exact List.mem_append_left _ (List.mem_append_right _ hpl)
  · exact List.mem_append_right _ hpl

/-! ## Register files with the same unnamed bits -/

/-- Outside the named fields two register files hold the same, as written and as read (R24). -/
def RegFile.SameUnnamed (p : Params) (f g : RegFile) : Prop :=
  ∀ n, (g.get n).w &&& ~~~ namedMask p n = (f.get n).w &&& ~~~ namedMask p n
    ∧ (g.get n).r &&& ~~~ namedMask p n = (f.get n).r &&& ~~~ namedMask p n

theorem RegFile.SameUnnamed.set {p : Params} {f g : RegFile} {n : RegName} {x : Reg} (h : f.SameUnnamed p g)
    (hw : x.w &&& ~~~ namedMask p n = (f.get n).w &&& ~~~ namedMask p n)
    (hr : x.r &&& ~~~ namedMask p n = (f.get n).r &&& ~~~ namedMask p n) : f.SameUnnamed p (g.set n x) := by
  intro k
  rw [RegFile.get_set]
  split
  · next e => subst e; exact ⟨hw, hr⟩
  · exact h k

theorem RegFile.SameUnnamed.setField {p : Params} {f g : RegFile} (h : f.SameUnnamed p g) (k : FixedField) (v : Word) :
    f.SameUnnamed p (g.setField p.regmap k v) :=
  h.set ((merge_and_of_disjoint _ _ _ _ (onlyNamed_fixed p k)).trans (h _).1)
    ((merge_and_of_disjoint _ _ _ _ (onlyNamed_fixed p k)).trans (h _).2)

theorem plantEffect_sameUnnamed {p : Params} {f g : RegFile} (h : f.SameUnnamed p g) (q : PlantStep) :
    f.SameUnnamed p (plantEffect p g q) := by
  cases q with
  | settle q =>
    cases hpl : q.toField.place p with
    | none => simpa [plantEffect, SettlingField.bits, hpl] using h
    | some pl =>
      have hq : SettlingField.bits p q = some (pl.reg, pl.mask) := by simp [SettlingField.bits, hpl]
      have hm := onlyNamed_place (FieldName.place_named hpl)
      rw [plantEffect_settle hq]
      exact h.set (h _).1 ((merge_and_of_disjoint _ _ _ _ hm).trans (h _).2)
  | oscReady => exact h.setField _ _
  | pllLock => exact h.setField _ _
  | muxSwitch => exact h.setField _ _

/-- In canonical form an unnamed bit reads as written. -/
theorem unnamed_w_eq_r {p : Params} {n : RegName} {x : Reg} (h : regWf p n x) :
    x.w &&& ~~~ namedMask p n = x.r &&& ~~~ namedMask p n := by
  have hm : merge (rwsMask p n) x.r x.w = x.r := by
    apply BitVec.eq_of_getLsbD_eq
    intro i hi
    rw [getLsbD_merge]
    split
    · rfl
    · next hc => exact (regWf_iff p n x).1 h i hi (by simpa using hc)
  rw [← merge_and_of_disjoint (rwsMask p n) x.r x.w _ (onlyNamed_rwsMask p n), hm]

/-- Merging in a word that agrees on some bits leaves them as they are. -/
theorem merge_and_of_agree {v x k : Word} (m : Word) (h : v &&& k = x &&& k) : merge m v x &&& k = x &&& k := by
  apply BitVec.eq_of_getLsbD_eq
  intro i _
  have hb : (v &&& k).getLsbD i = (x &&& k).getLsbD i := by rw [h]
  rw [BitVec.getLsbD_and, BitVec.getLsbD_and] at *
  rw [getLsbD_merge]
  split
  · exact hb
  · rfl

section
variable {p : Params} {f : RegFile} (hf : f.wf p) {n : RegName} {v : Word}
  (hv : v &&& ~~~ namedMask p n = (f.get n).r &&& ~~~ namedMask p n)
include hf hv

/-- A write of the production binding that brings back the unnamed bits it read leaves them alone. -/
theorem afterWrite_sameUnnamed {g : RegFile} (h : f.SameUnnamed p g) : f.SameUnnamed p (afterWrite p n v g) := by
  obtain ⟨hw, hr⟩ := h n
  have hvw := hv.trans (unnamed_w_eq_r (RegFile.wf_get hf n)).symm
  have hset : f.SameUnnamed p (g.set n (writtenReg p (g.pllOn p.regmap) n v (g.get n))) :=
    h.set ((merge_and_of_agree _ (hvw.trans hw.symm)).trans hw) ((merge_and_of_agree _ (hv.trans hr.symm)).trans hr)
  unfold afterWrite
  dsimp only
  split
  · exact hset.setField _ _
  · exact hset

/-- So does a write of either binding. -/
theorem memWrite_sameUnnamed (who : Writer) {s : State} (hp : s.params = p) (h : f.SameUnnamed p s.regs) :
    f.SameUnnamed p (memWrite who n v s).regs := by
  subst hp
  rcases memWrite_cases who n v s with ⟨-, e⟩ | ⟨-, _, -, e⟩ | ⟨-, -, e⟩
  · rw [e, logWrite_regs]
    exact h.set (hv.trans (unnamed_w_eq_r (RegFile.wf_get hf n)).symm) hv
  · rw [e]; exact h
  · rw [e, logWrite_regs]; exact afterWrite_sameUnnamed hf hv h

end

/-! ## Programs whose stores are masked by named bits -/

/-- A micro-step that neither loads nor stores nor opens a frequency query. -/
def Micro.plain : Micro → Bool
  | .load _ => false
  | .store _ _ _ => false
  | .freqClk _ => false
  | _ => true

/-- Every store of the program follows the load of its register and changes named bits only (R56). -/
inductive NamedStores (p : Params) : List Micro → Prop
  | nil : NamedStores p []
  | masked {n : RegName} {mask v : Word} {rest : List Micro} : OnlyNamed p n mask → NamedStores p rest →
      NamedStores p (.load n :: .store n mask v :: rest)
  | freq {d : ClockDomain} {rest : List Micro} : NamedStores p rest →
      NamedStores p (.freqClk d :: .freqPll d :: rest)
  | plain {m : Micro} {rest : List Micro} : m.plain = true → NamedStores p rest → NamedStores p (m :: rest)

theorem NamedStores.append {p : Params} {a b : List Micro} (ha : NamedStores p a) (hb : NamedStores p b) :
    NamedStores p (a ++ b) := by
  induction ha with
  | nil => exact hb
  | masked hm _ ih => exact .masked hm ih
  | freq _ ih => exact .freq ih
  | plain hm _ ih => exact .plain hm ih

theorem NamedStores.single {p : Params} {m : Micro} (h : m.plain = true) : NamedStores p [m] := .plain h .nil

theorem NamedStores.maskedWrite {p : Params} {n : RegName} {mask : Word} (h : OnlyNamed p n mask) (v : Word) :
    NamedStores p (maskedWrite n mask v) := .masked h .nil

theorem NamedStores.flatMap {p : Params} {g : RegName → List Micro} (h : ∀ n, NamedStores p (g n)) (l : List RegName) :
    NamedStores p (l.flatMap g) := by
  induction l with
  | nil => exact .nil
  | cons n l ih => exact (h n).append ih

theorem doScaling_namedStores (p : Params) (l : Level) : NamedStores p (doScaling p l) :=
  (NamedStores.maskedWrite (onlyNamed_fixed p .vos) _).append (.single rfl)

theorem doLatency_namedStores (p : Params) (ws : Word) : NamedStores p (doLatency p.regmap ws) :=
  ((NamedStores.maskedWrite (onlyNamed_fixed p .latency) _).append (.single rfl)).append (.single rfl)

theorem doPllConfigure_namedStores (p : Params) (w : PllWord) : NamedStores p (doPllConfigure p.regmap w) :=
  .plain rfl (NamedStores.flatMap (fun n => .maskedWrite (onlyNamed_fields p pllFields n) _) _)

theorem doPllEnable_namedStores (p : Params) : NamedStores p (doPllEnable p.regmap) :=
  .maskedWrite (onlyNamed_fixed p .pllOn) _

theorem gateBody_namedStores {p : Params} {pl : Place} (h : pl ∈ namedPlaces p) :
    NamedStores p (gateBody pl.reg pl.mask) :=
  (NamedStores.maskedWrite (onlyNamed_place h) _).append (.plain rfl (.single rfl))

/-- The whole run of the Sequencer, transition by transition (R151). -/
theorem seqBody_namedStores (p : Params) (w : PllWord) (l : Level) (ws : Word) : NamedStores p (seqBody p w l ws) := by
  have t1 : NamedStores p (seqT1 p.regmap) := .plain rfl (.single rfl)
  have t2 : NamedStores p (seqT2 p l) := (doScaling_namedStores p l).append (.single rfl)
  have t3 : NamedStores p (seqT3 p.regmap ws) := (doLatency_namedStores p ws).append (.single rfl)
  have t4 : NamedStores p (seqT4 p.regmap w) := (doPllConfigure_namedStores p w).append (.single rfl)
  have t5 : NamedStores p (seqT5 p.regmap) :=
    ((doPllEnable_namedStores p).append (.single rfl)).append (.single rfl)
  have t6 : NamedStores p (seqT6 p.regmap) :=
    ((NamedStores.maskedWrite (onlyNamed_fixed p .sw) _).append (.single rfl)).append (.single rfl)
  exact ((((((t1.append t2).append t3).append t4).append t5).append t6).append (.single rfl)).append (.single rfl)

/-- The program of every command stores named bits only (R24). -/
theorem programOf_namedStores (i : Instr) (s : State) : NamedStores s.params (programOf i s) := by
  cases i with
  | getFreq domain a1 =>
    simp only [programOf]
    split
    · exact .single rfl
    · exact .freq (.single rfl)
  | setScaling level a1 =>
    simp only [programOf]
    split
    · exact .single rfl
    · exact (doScaling_namedStores _ _).append (.single rfl)
  | setLatency ws a1 =>
    simp only [programOf]
    split
    · exact .single rfl
    · exact (doLatency_namedStores _ _).append (.single rfl)
  | enableCache a0 a1 =>
    have hm : OnlyNamed s.params .flashAcr
        (FixedField.icen.mask s.params.regmap ||| FixedField.dcen.mask s.params.regmap) := by
      simpa [placesMask, FixedField.mask, FixedField.place, FixedField.reg] using
        onlyNamed_fields s.params [.icen, .dcen] .flashAcr
    exact (NamedStores.maskedWrite hm _).append (.single rfl)
  | enablePrefetch a0 a1 =>
    exact (NamedStores.maskedWrite (onlyNamed_fixed s.params .prften) _).append (.single rfl)
  | pllConfigure cfg a1 =>
    simp only [programOf]
    split
    · exact (doPllConfigure_namedStores _ _).append (.single rfl)
    · exact .single rfl
  | pllEnable a0 a1 => exact (doPllEnable_namedStores _).append (.single rfl)
  | pllWaitLock a0 a1 => exact .plain rfl (.single rfl)
  | seqRun cfg pw =>
    simp only [programOf, seqProgram]
    split
    · exact .single rfl
    · split
      · exact .single rfl
      · split
        · exact .single rfl
        · exact seqBody_namedStores _ _ _ _
  | gateGpio id a1 =>
    simp only [programOf]
    split
    · exact .single rfl
    · exact gateBody_namedStores (gpioPlace_named _ _)
  | gateUsart id a1 =>
    simp only [programOf]
    split
    · exact .single rfl
    · next e he => exact gateBody_namedStores (usartPlace_named (List.mem_of_find?_eq_some he))

/-! ## A run that keeps the unnamed bits -/

/-- In the middle of a command begun with register file `f`: the unnamed bits are those of `f`, and what is left of the
program keeps them, a store at its head by the word already read (R15, R56). -/
structure UnnamedKept (p : Params) (f : RegFile) (u : State) : Prop where
  params : u.params = p
  regs : f.SameUnnamed p u.regs
  ph : NamedStores p u.ph ∨ ∃ n mask v rest, u.ph = .store n mask v :: rest ∧ OnlyNamed p n mask
    ∧ u.t &&& ~~~ namedMask p n = (f.get n).r &&& ~~~ namedMask p n ∧ NamedStores p rest

theorem plantStep_unnamedKept {p : Params} {f : RegFile} (q : PlantStep) {u : State} (h : UnnamedKept p f u) :
    UnnamedKept p f (plantStep q u) := by
  obtain ⟨hp, hregs, hph⟩ := h
  refine ⟨(plantStep_params q u).trans hp, ?_, by simpa using hph⟩
  rcases plantStep_regs q u with e | ⟨-, e⟩
  · rw [e]; exact hregs
  · rw [e, hp]; exact plantEffect_sameUnnamed hregs q

/-- What a plain micro-step leaves alone, and where it leaves the engine. -/
theorem runMicro_plain {m : Micro} (hm : m.plain = true) (rest : List Micro) (u : State) :
    (runMicro m rest u).params = u.params ∧ (runMicro m rest u).regs = u.regs
      ∧ ((runMicro m rest u).ph = rest ∨ (runMicro m rest u).ph = u.ph ∨ (runMicro m rest u).ph = []) := by
  cases m with
  | load n => cases hm
  | store n mask v => cases hm
  | freqClk d => cases hm
  | _ =>
    simp only [runMicro, freqPllStep]
    repeat' split
    all_goals simp

theorem engineStep_unnamedKept {p : Params} {f : RegFile} (hf : f.wf p) {u : State} (h : UnnamedKept p f u) :
    UnnamedKept p f (engineStep u) := by
  by_cases hr : u.running = true
  · obtain ⟨hp, hregs, hph⟩ := h
    rcases hph with hph | ⟨n, mask, v, rest, hph, hmask, ht, hrest⟩
    · generalize hl : u.ph = l at hph
      cases hph with
      | nil =>
        rw [show engineStep u = u by simp [engineStep, hl]]
        exact ⟨hp, hregs, .inl (hl ▸ .nil)⟩
      | @masked n mask v rest hmask hrest =>
        rw [engineStep_cons hr hl]
        exact ⟨hp, hregs, .inr ⟨n, mask, v, rest, rfl, hmask, (hregs n).2, hrest⟩⟩
      | freq hrest =>
        rw [engineStep_cons hr hl]
        simp only [runMicro, freqClkStep]
        split
        · exact ⟨hp, hregs, .inl (.plain rfl hrest)⟩
        · split
          · exact ⟨hp, hregs, .inl hrest⟩
          · exact ⟨hp, hregs, .inl (.single rfl)⟩
      | @plain m rest hm hrest =>
        rw [engineStep_cons hr hl]
        obtain ⟨ep, er, eph⟩ := runMicro_plain hm rest u
        refine ⟨ep.trans hp, er ▸ hregs, .inl ?_⟩
        rcases eph with e | e | e <;> rw [e]
        · exact hrest
        · exact hl ▸ .plain hm hrest
        · exact .nil
    · rw [engineStep_cons hr hph]
      refine ⟨(memWrite_params _ _ _ _).trans hp, ?_, .inl ?_⟩
      · exact memWrite_sameUnnamed (s := { u with ph := rest }) hf
          ((merge_and_of_disjoint _ _ _ _ hmask).trans ht) _ hp hregs
      · rw [show (runMicro (.store n mask v) rest u).ph = rest from memWrite_ph _ _ _ _]
        exact hrest
  · rw [engineStep_of_not_running (by simpa using hr)]
    exact h

/-- Settles O43: the program of the command keeps the unnamed bits, and so do the plant's turns between its micro-steps. -/
theorem unnamedBitsAreNeverChanged : Obligations.UnnamedBitsAreNeverChanged := by
  intro i s t hplant hwf h
  obtain ⟨-, hrun⟩ := exec_next h
  have hstart : UnnamedKept s.params s.regs (accept (opcodeOf i) (word1Of i) (word0Of i) (programOf i s) s) :=
    ⟨rfl, fun _ => ⟨rfl, rfl⟩, .inl (programOf_namedStores i s)⟩
  have hkept : UnnamedKept s.params s.regs t :=
    runTurns_keeps_internal (fun _ _ hu => ⟨hu.params, hu.regs, hu.ph⟩) (fun q _ hu => plantStep_unnamedKept q hu)
      (fun _ hu => engineStep_unnamedKept hwf hu) hplant hstart hrun
  exact hkept.regs

end Sys2Proof.Machine

/-! SUPPORT. The register space (R50, R51): which register an address names, what the register port can do (R54, R61), and the
byte view of the register file. -/

namespace Sys2Proof.Machine

/-! ## Word addresses -/

theorem mem_allRegs (n : RegName) : n ∈ allRegs := by cases n <;> decide

theorem toNat_and_three (a : Word) : (a &&& 3).toNat = a.toNat % 4 := by
  rw [BitVec.toNat_and]
  exact Nat.and_two_pow_sub_one_eq_mod _ 2

/-- An aligned address is a multiple of 4 (R54). -/
theorem and_three_eq_zero_iff (a : Word) : a &&& 3#32 = 0#32 ↔ a.toNat % 4 = 0 := by
  rw [← toNat_and_three, ← BitVec.toNat_inj]
  rfl

/-- An address is the address of its word and its place in the word. -/
theorem toNat_wordAddr (a : Word) : (a &&& ~~~ 3).toNat + a.toNat % 4 = a.toNat := by
  have hdisj : (a &&& ~~~ 3) &&& (a &&& 3) = 0 := by
    apply BitVec.eq_of_getLsbD_eq
    intro i _
    simp only [BitVec.getLsbD_and, BitVec.getLsbD_not]
    cases (3 : Word).getLsbD i <;> simp
  have hsum : (a &&& ~~~ 3) ||| (a &&& 3) = a := by
    apply BitVec.eq_of_getLsbD_eq
    intro i hi
    simp only [BitVec.getLsbD_or, BitVec.getLsbD_and, BitVec.getLsbD_not, hi]
    cases (3 : Word).getLsbD i <;> simp
  rw [← toNat_and_three, ← BitVec.toNat_add_of_and_eq_zero hdisj, BitVec.add_eq_or_of_and_eq_zero _ _ hdisj, hsum]

/-- A word address is that of the addresses of its four bytes. -/
theorem wordAddr_eq_iff {a b : Word} (hb : b.toNat % 4 = 0) :
    a &&& ~~~ 3 = b ↔ b.toNat ≤ a.toNat ∧ a.toNat < b.toNat + 4 := by
  have hsplit := toNat_wordAddr a
  rw [← BitVec.toNat_inj]
  omega

/-- The registers of a well-formed map are at multiples of 4 (R50). -/
theorem mapWf_aligned {p : Params} (h : mapWf p) (n : RegName) : (regAddr p.regmap n).toNat % 4 = 0 := by
  rw [← toNat_and_three, h.2.1 n (mem_allRegs n)]
  rfl

/-- The registers of a well-formed map are at different addresses (R50). -/
theorem mapWf_regAddr_inj {p : Params} (h : mapWf p) {n k : RegName} (e : regAddr p.regmap n = regAddr p.regmap k) :
    n = k := by
  by_contra hne
  have hsymm : Std.Symm fun n k : RegName => regAddr p.regmap n ≠ regAddr p.regmap k := ⟨fun _ _ => Ne.symm⟩
  exact h.1.forall (mem_allRegs n) (mem_allRegs k) hne e

/-- The register found at an address is at that address. -/
theorem regAddr_of_regAt {m : Regmap} {a : Word} {n : RegName} (h : regAt m a = some n) : regAddr m n = a := by
  simpa using List.find?_some h

theorem regAt_eq_none {m : Regmap} {a : Word} (h : ∀ n, regAddr m n ≠ a) : regAt m a = none :=
  List.find?_eq_none.2 fun n _ => by simpa using h n

/-- Under a well-formed map the register at a register's address is that register. -/
theorem regAt_regAddr {p : Params} (h : mapWf p) (n : RegName) : regAt p.regmap (regAddr p.regmap n) = some n := by
  cases hk : regAt p.regmap (regAddr p.regmap n) with
  | none => exact absurd (List.find?_eq_none.1 hk n (mem_allRegs n)) (by simp)
  | some k => rw [mapWf_regAddr_inj h (regAddr_of_regAt hk)]

/-! ## The register port -/

/-- Settles O53: the checks of `portStep` in its order, the register found by `regAt_regAddr`. -/
theorem portTakesAlignedWordsOnly : Obligations.PortTakesAlignedWordsOnly := by
  intro s a h
  refine ⟨fun hb hi => by simp [portStep, hb, hi], fun hfree => ?_⟩
  have hgo : (s.busy && !s.params.allowInterleave) = false := by
    rcases hfree with hb | hi
    · simp [hb]
    · simp [hi]
  have hreg : ∀ n, a.addr = regAddr s.params.regmap n →
      a.addr.toNat % 4 = 0 ∧ regAt s.params.regmap a.addr = some n :=
    fun n e => e ▸ ⟨mapWf_aligned h n, regAt_regAddr h n⟩
  refine ⟨fun hw => ?width, fun hw hm => ?misaligned, fun hw hal hn => ?noRegister, fun n hw e hr => ?read,
    fun n v hw e hv => ?write⟩
  case width => simp [portStep, hgo, hw]
  case misaligned => simp [portStep, hgo, hw, and_three_eq_zero_iff, hm]
  case noRegister => simp [portStep, hgo, hw, and_three_eq_zero_iff, hal, regAt_eq_none hn]
  case read => simp [portStep, hgo, hw, and_three_eq_zero_iff, hreg n e, hr]
  case write => simp [portStep, hgo, hw, and_three_eq_zero_iff, hreg n e, hv]

/-! ## The byte view -/

/-- A byte of a register is eight bits of the word it reads, at its place in the word (R51). -/
theorem RegFile.byteAt_of_mem {p : Params} (h : mapWf p) (f : RegFile) {n : RegName} {a : Word}
    (hlo : (regAddr p.regmap n).toNat ≤ a.toNat) (hhi : a.toNat < (regAddr p.regmap n).toNat + 4) :
    f.byteAt p.regmap a
      = some ((f.get n).r.extractLsb' (8 * (a.toNat - (regAddr p.regmap n).toNat)) 8) := by
  have hal := mapWf_aligned h n
  have hoff : a.toNat % 4 = a.toNat - (regAddr p.regmap n).toNat := by omega
  rw [RegFile.byteAt, (wordAddr_eq_iff hal).2 ⟨hlo, hhi⟩, regAt_regAddr h, Option.map_some, toNat_and_three, hoff]

/-- Settles O55: inside a register by `byteAt_of_mem`; outside, no register is at the address of the byte's word. -/
theorem registerBytesAreLittleEndian : Obligations.RegisterBytesAreLittleEndian := by
  refine fun p f h => ⟨fun n i hi => ?inside, fun a ha => ?outside⟩
  case inside =>
    have hal := mapWf_aligned h n
    have hsum : (regAddr p.regmap n + BitVec.ofNat 32 i).toNat = (regAddr p.regmap n).toNat + i := by
      have := (regAddr p.regmap n).isLt
      rw [BitVec.toNat_add, BitVec.toNat_ofNat]
      omega
    rw [f.byteAt_of_mem h (n := n) (by omega) (by omega), hsum, Nat.add_sub_cancel_left]
  case outside =>
    have hnone : regAt p.regmap (a &&& ~~~ 3) = none := regAt_eq_none fun n e => by
      have := ha n
      have := (wordAddr_eq_iff (mapWf_aligned h n)).1 e.symm
      omega
    rw [RegFile.byteAt, hnone, Option.map_none]

end Sys2Proof.Machine

/-! SUPPORT. The test binding (R68): plain storage, no plant, and `Force` (R32). -/

namespace Sys2Proof.Machine

/-- In the test binding the plant has no step (R68). -/
theorem plantStep_of_test {s : State} (h : s.params.binding = .test) (q : PlantStep) : plantStep q s = s := by
  simp [plantStep, plantEnabled, h]

/-- Every named field of a well-formed map lies inside its register (R17). -/
theorem FieldName.place_fits {p : Params} (h : mapWf p) {q : FieldName} {pl : Place} (hq : q.place p = some pl) :
    pl.lo + pl.width ≤ 32 := by
  cases q with
  | fixed k => cases hq; exact mapWf_fits h k
  | gpioen k => cases hq; exact mapWf_fits_gpio h k
  | usarten id =>
    obtain ⟨e, -, rfl⟩ := Option.map_eq_some_iff.1 hq
    exact e.bit.isLt

theorem usartPlace_eq_none_iff (p : Params) (id : Word) :
    (FieldName.usarten id).place p = none ↔ ∀ e ∈ p.usart, e.id ≠ id := by
  simp [FieldName.place, usartEntry]

/-- A value merged in at a place that fits is read there, cut to its width. -/
theorem Place.extract_merge {pl : Place} (h : pl.lo + pl.width ≤ 32) (v x : Word) :
    (merge pl.mask (v <<< pl.lo) x).extractLsb' pl.lo pl.width = v.setWidth pl.width := by
  apply BitVec.eq_of_getLsbD_eq
  intro i hi
  have h1 : pl.lo + i < 32 := by omega
  rw [BitVec.getLsbD_extractLsb', getLsbD_merge, Place.mask, getLsbD_onesAt, BitVec.getLsbD_shiftLeft,
    BitVec.getLsbD_setWidth]
  simp [h1, hi]

/-- Outside the place the word keeps its bits. -/
theorem Place.getLsbD_merge_outside {pl : Place} {i : Nat} (h : ¬ (pl.lo ≤ i ∧ i < pl.lo + pl.width)) (v x : Word) :
    (merge pl.mask v x).getLsbD i = x.getLsbD i := by
  rw [getLsbD_merge, Place.mask, getLsbD_onesAt, if_neg]
  simp only [Bool.and_eq_true, decide_eq_true_eq]
  exact fun hc => h ⟨hc.1.2, hc.2⟩

theorem forceStep_of_place {s : State} (hb : s.params.binding = .test) {q : FieldName} {pl : Place}
    (hq : q.place s.params = some pl) (v : Word) :
    forceStep q v s
      = .next { s with regs := s.regs.set pl.reg ((s.regs.get pl.reg).force pl.mask (v <<< pl.lo)) } := by
  simp [forceStep, hb, hq]

/-- Settles O54: a write by `memWrite_of_test`, `Force` by `forceStep_of_place` and the merging of a place. -/
theorem testBindingIsPlainStorage : Obligations.TestBindingIsPlainStorage := by
  refine ⟨fun who n v s hb => ?write, fun q v s hb => by simp [forceStep, hb], fun q v s hb h => ?force⟩
  case write =>
    rw [memWrite_of_test hb]
    refine ⟨by simp, fun k hk => ?_, by simp, ?_, ?_, plantStep_of_test hb⟩
    · rw [logWrite_regs]
      exact RegFile.get_set_of_ne _ _ hk
    · rintro rfl; rfl
    · rintro rfl; rfl
  case force =>
    refine ⟨fun pl hpl => ⟨_, forceStep_of_place hb hpl v, rfl, ?_⟩, fun hnone => by simp [forceStep, hb, hnone],
      fun _ => rfl, fun _ => rfl, fun id => (usartPlace_eq_none_iff _ id).symm⟩
    have hfit := FieldName.place_fits h hpl
    simp only [RegFile.get_set_same, Reg.force]
    exact ⟨Place.extract_merge hfit v _, Place.extract_merge hfit v _,
      fun i hi => ⟨Place.getLsbD_merge_outside hi _ _, Place.getLsbD_merge_outside hi _ _⟩,
      fun k hk => RegFile.get_set_of_ne _ _ hk⟩

end Sys2Proof.Machine

/-! SUPPORT. A poll whose condition stays false (R58, R198). -/

namespace Sys2Proof.Machine

theorem engineStep_of_polling {s : State} (h : s.Polling) : engineStep s = s := by
  obtain ⟨hr, hpoll⟩ := h
  split at hpoll
  · next n mask v rest hph =>
    rw [engineStep_cons hr hph]
    exact if_neg hpoll
  · exact hpoll.elim

/-- Where neither the plant nor the engine changes anything, the engine alone stays where it is. -/
theorem engineAlone_of_stuck {s : State} (hplant : plantAlone s = s) (hengine : engineStep s = s) (n : Nat) :
    engineAlone n s = s := by
  induction n with
  | zero => rfl
  | succ n ih =>
    cases hr : s.running with
    | true => rw [engineAlone_succ hr, hplant, hengine, ih]
    | false => exact engineAlone_of_not_running hr _

/-- Settles O12: the engine alone is stuck at the poll, however many micro-steps its program has left. -/
theorem pollThatNeverHoldsHangs : Obligations.PollThatNeverHoldsHangs := by
  intro s hpoll ha hsettled
  have hs : ({ s with agenda := [] } : State) = s := by rw [← ha]
  rw [step_of_running hpoll.1, ha, runTurns_nil, hs,
    engineAlone_of_stuck (plantAlone_of_settled hsettled) (engineStep_of_polling hpoll)]

end Sys2Proof.Machine

/-! SUPPORT. A write of the production binding, register by register and bit by bit (R53), and which writes meet no hazard
(R230, R231). -/

namespace Sys2Proof.Machine

/-! ## The register written and the others -/

/-- Every register but the one written holds what it held, `CLK_CR` too. -/
theorem afterWrite_get_other {p : Params} {n k : RegName} {v : Word} {f : RegFile} (h : k ≠ n) :
    (afterWrite p n v f).get k = f.get k := by
  by_cases hn : n = .clkCr
  · exact afterWrite_get_of_ne h fun hk => h (hk.trans hn.symm)
  · rw [afterWrite_of_ne hn, RegFile.get_set_of_ne _ _ h]

/-- The bits of the register written, apart from `PLL_RDY`, are as `writtenReg` says, as written and as read (R53). -/
theorem afterWrite_and {p : Params} (h : mapWf p) {n : RegName} {k : Word}
    (hk : n = .clkCr → FixedField.pllRdy.mask p.regmap &&& k = 0) (v : Word) (f : RegFile) :
    ((afterWrite p n v f).get n).w &&& k = (writtenReg p (f.pllOn p.regmap) n v (f.get n)).w &&& k
      ∧ ((afterWrite p n v f).get n).r &&& k = (writtenReg p (f.pllOn p.regmap) n v (f.get n)).r &&& k := by
  by_cases hn : n = .clkCr
  · subst hn
    rw [afterWrite_get_clkCr h]
    split
    · exact ⟨merge_and_of_disjoint _ _ _ _ (hk rfl), merge_and_of_disjoint _ _ _ _ (hk rfl)⟩
    · exact ⟨rfl, rfl⟩
  · rw [afterWrite_of_ne hn, RegFile.get_set_same]
    exact ⟨rfl, rfl⟩

/-- The bits a write does not take: the read-only ones, and the PLL fields while `PLL_ON = 1` (R53). -/
theorem takenMask_eq (m : Regmap) (f : RegFile) (n : RegName) :
    takenMask m (f.pllOn m) n
      = ~~~ (roMask m n ||| if pllOnOf m f.clkCr.r = 1 then pllFieldsMask m n else 0) := by
  simp [takenMask, RegFile.pllOn]

/-- `CLK_CR` has no settling field (R20). -/
theorem rwsMask_clkCr (p : Params) : rwsMask p .clkCr = 0 := by
  apply BitVec.eq_of_getLsbD_eq
  intro i hi
  rw [Bool.eq_iff_iff, getLsbD_rwsMask p _ hi]
  simp

/-- `PLL_RDY` is none of the five PLL fields. -/
theorem pllRdy_mask_and_pllFieldsMask {p : Params} (h : mapWf p) :
    FixedField.pllRdy.mask p.regmap &&& pllFieldsMask p.regmap .clkCr = 0 := by
  apply BitVec.eq_of_getLsbD_eq
  intro i hi
  rw [BitVec.getLsbD_and, FixedField.getLsbD_mask]
  by_cases hbit : FixedField.pllRdy.lo p.regmap ≤ i ∧ i < FixedField.pllRdy.lo p.regmap + FixedField.pllRdy.width
  · have hno := mapWf_pllFieldsMask h .pllRdy hi hbit.1 hbit.2
    rw [show FixedField.pllRdy.reg p.regmap = .clkCr from rfl] at hno
    rw [hno]
    simp [pllFields]
  · rcases not_and_or.1 hbit with hc | hc <;> simp [hc]

/-- What a write takes is apart from `PLL_RDY`. -/
theorem pllRdy_mask_and_taken (m : Regmap) (on : Bool) (k : Word) :
    FixedField.pllRdy.mask m &&& (k &&& takenMask m on .clkCr) = 0 := by
  have hro : FixedField.pllRdy.mask m &&& ~~~ roMask m .clkCr = 0 := roMask_covers (k := .pllRdy) (by decide)
  generalize FixedField.pllRdy.mask m = a at hro ⊢
  unfold takenMask
  generalize (if on = true then pllFieldsMask m .clkCr else 0) = b
  calc a &&& (k &&& ~~~ (roMask m .clkCr ||| b))
      = (a &&& ~~~ roMask m .clkCr) &&& (k &&& ~~~ b) := by rw [BitVec.not_or]; ac_rfl
    _ = 0 := by rw [hro, BitVec.ofNat_eq_ofNat, BitVec.zero_and]

section
variable {p : Params} (h : mapWf p) (n : RegName) (v : Word) (f : RegFile)
include h

/-- A settling bit reads as before a write (R53). -/
theorem afterWrite_r_settling :
    ((afterWrite p n v f).get n).r &&& rwsMask p n = (f.get n).r &&& rwsMask p n := by
  rw [(afterWrite_and h (fun hn => by subst hn; simp [rwsMask_clkCr]) v f).2]
  exact merge_and_of_disjoint _ _ _ _ (by rw [BitVec.and_assoc]; simp)

/-- A bit the write takes holds the value written (R53). -/
theorem afterWrite_w_taken (k : Word) :
    ((afterWrite p n v f).get n).w &&& (k &&& takenMask p.regmap (f.pllOn p.regmap) n)
      = v &&& (k &&& takenMask p.regmap (f.pllOn p.regmap) n) := by
  rw [(afterWrite_and h (fun hn => by subst hn; exact pllRdy_mask_and_taken _ _ k) v f).1]
  exact merge_and_of_subset _ _ _ _ (by rw [BitVec.and_assoc]; simp)

/-- And reads as written where it does not settle (R53). -/
theorem afterWrite_r_taken :
    ((afterWrite p n v f).get n).r &&& (~~~ rwsMask p n &&& takenMask p.regmap (f.pllOn p.regmap) n)
      = v &&& (~~~ rwsMask p n &&& takenMask p.regmap (f.pllOn p.regmap) n) := by
  rw [(afterWrite_and h (fun hn => by subst hn; exact pllRdy_mask_and_taken _ _ _) v f).2, BitVec.and_comm (~~~ _)]
  exact merge_and_of_subset _ _ _ _ (by simp)

/-- A bit the write does not take reads as before, `PLL_RDY` apart (R53). -/
theorem afterWrite_r_untaken {k : Word} (hk : takenMask p.regmap (f.pllOn p.regmap) n &&& k = 0)
    (hrdy : n = .clkCr → FixedField.pllRdy.mask p.regmap &&& k = 0) :
    ((afterWrite p n v f).get n).r &&& k = (f.get n).r &&& k := by
  rw [(afterWrite_and h hrdy v f).2]
  refine merge_and_of_disjoint _ _ _ _ ?_
  calc takenMask p.regmap (f.pllOn p.regmap) n &&& ~~~ rwsMask p n &&& k
      = takenMask p.regmap (f.pllOn p.regmap) n &&& k &&& ~~~ rwsMask p n := by ac_rfl
    _ = 0 := by rw [hk, BitVec.ofNat_eq_ofNat, BitVec.zero_and]

end

/-- `PLL_ON` is cleared by a write of `CLK_CR` with a 0 there, and by no other (R53). -/
theorem clearsPll_afterWrite_iff {p : Params} (h : mapWf p) (n : RegName) (v : Word) (f : RegFile) :
    clearsPll p.regmap f (afterWrite p n v f) = true
      ↔ n = .clkCr ∧ pllOnOf p.regmap f.clkCr.r = 1 ∧ pllOnOf p.regmap v = 0 := by
  have hon : pllOnOf p.regmap (afterWrite p n v f).clkCr.r
      = if n = .clkCr then pllOnOf p.regmap v else pllOnOf p.regmap f.clkCr.r := by
    refine (rd_afterWrite h (k := .pllOn) (by decide) n v f).trans ?_
    by_cases hn : n = .clkCr
    · rw [if_pos hn, if_pos ⟨hn.symm, by simp [FixedField.taken, pllFields], by decide⟩]
      rfl
    · rw [if_neg hn, if_neg fun hc => hn hc.1.symm]
      rfl
  simp only [clearsPll, RegFile.pllOn, hon, Bool.and_eq_true, beq_iff_eq, Bool.not_eq_true', beq_eq_false_iff_ne]
  split
  · next hn =>
    rw [Ne, bit_eq_one_iff, bit_eq_one_iff, bit_eq_zero_iff]
    simp [hn]
  · next hn => simp [hn]

/-! ## Which writes meet no hazard -/

/-- A write that records no fault met no hazard, and has its effect and its record. -/
theorem memWrite_of_no_fault {who : Writer} {n : RegName} {v : Word} {s : State}
    (hb : s.params.binding = .production) (h : (memWrite who n v s).fault = none) :
    memWrite who n v s = logWrite who n v { s with regs := afterWrite s.params n v s.regs } := by
  rcases memWrite_cases who n v s with ⟨ht, -⟩ | ⟨-, x, -, e⟩ | ⟨-, -, e⟩
  · rw [hb] at ht; cases ht
  · rw [e] at h; cases h
  · exact e

theorem memWrite_fault_none {who : Writer} {n : RegName} {v : Word} {s : State}
    (hb : s.params.binding = .production) (hf : s.fault = none)
    (hz : writeHazard s.params n s.regs (afterWrite s.params n v s.regs) = none) :
    (memWrite who n v s).fault = none := by
  rw [memWrite_of_ok hb hz, logWrite_fault, hf]

/-- A write meets no hazard that does not switch off the source in use, selects, where it selects another source, one that
may be selected, and where it changes `HPRE` leaves `Safe` true (R230, R231). -/
theorem writeHazard_eq_none {p : Params} {n : RegName} {f g : RegFile}
    (hoff : clearsPll p.regmap f g = true → swsOf p.regmap f.clkCfgr.r ≠ srcPll)
    (hsel : n = .clkCfgr → swOf p.regmap g.clkCfgr.r ≠ swsOf p.regmap f.clkCfgr.r →
      selectable p.regmap f (swOf p.regmap g.clkCfgr.r) = true)
    (hsafe : hpreOf p.regmap g.clkCfgr.r ≠ hpreOf p.regmap f.clkCfgr.r → g.safe p = true) :
    writeHazard p n f g = none := by
  unfold writeHazard
  dsimp only
  rw [if_neg fun hc => hoff hc.1 hc.2, if_neg fun hc => hc.2.2 (hsel hc.1 hc.2.1),
    if_neg fun hc => hc.2 (hsafe hc.1)]

/-- `CLK_CFGR` after it is written: `SWS` kept, and the PLL fields in it while the PLL runs (R53). -/
theorem afterWrite_clkCfgr_kept (p : Params) (v : Word) (f : RegFile) :
    let m := p.regmap
    let x := f.get .clkCfgr
    let kept : Word := ((0b11 : Word) <<< m.sws) ||| (if pllOnOf m f.clkCr.r = 1 then pllFieldsMask m .clkCfgr else 0)
    afterWrite p .clkCfgr v f
      = f.set .clkCfgr ⟨(x.w &&& kept) ||| (v &&& ~~~ kept), (x.r &&& kept) ||| (v &&& ~~~ kept)⟩ := by
  have hro : roMask p.regmap .clkCfgr = (0b11 : Word) <<< p.regmap.sws := by
    simp [roMask, roPlaces, placesMask, FixedField.place, FixedField.reg, FixedField.lo, FixedField.width, Place.mask,
      onesAt]
  simp only [afterWrite_clkCfgr, takenMask_eq, hro, merge, BitVec.not_not]

section
variable {p : Params} (h : mapWf p) (v : Word) (f : RegFile)
include h

/-- A write of `CLK_CFGR` shows the new `SW` and `HPRE` at once (R53). -/
theorem afterWrite_clkCfgr_shows {k : FixedField} (hk : k ∈ [FixedField.sw, .hpre]) :
    k.get p.regmap (afterWrite p .clkCfgr v f).clkCfgr.r = k.get p.regmap v := by
  simp only [List.mem_cons, List.not_mem_nil, or_false] at hk
  rcases hk with rfl | rfl
  · exact (rd_afterWrite h (k := .sw) (by decide) .clkCfgr v f).trans
      (if_pos (by simp [FixedField.taken, pllFields, FixedField.reg]))
  · exact (rd_afterWrite h (k := .hpre) (by decide) .clkCfgr v f).trans
      (if_pos (by simp [FixedField.taken, pllFields, FixedField.reg]))

/-- A write of `CLK_CR` meets no hazard where it does not switch off the PLL in use (R230). -/
theorem writeHazard_clkCr (hoff : ¬ (pllOnOf p.regmap f.clkCr.r = 1 ∧ pllOnOf p.regmap v = 0
      ∧ swsOf p.regmap f.clkCfgr.r = srcPll)) :
    writeHazard p .clkCr f (afterWrite p .clkCr v f) = none := by
  have hcfg : (afterWrite p .clkCr v f).clkCfgr = f.clkCfgr := afterWrite_get_other (k := .clkCfgr) (by decide)
  refine writeHazard_eq_none (fun hc hs => ?_) nofun fun hne => absurd (by rw [hcfg]) hne
  obtain ⟨-, hon, hclr⟩ := (clearsPll_afterWrite_iff h .clkCr v f).1 hc
  exact hoff ⟨hon, hclr, hs⟩

/-- A write of `CLK_CFGR` meets no hazard where its `SW` is the source shown or may be selected, and it keeps `HPRE` or leaves
`Safe` true (R230, R231). -/
theorem writeHazard_clkCfgr
    (hsel : swOf p.regmap v ≠ swsOf p.regmap f.clkCfgr.r → selectable p.regmap f (swOf p.regmap v) = true)
    (hsafe : hpreOf p.regmap v ≠ hpreOf p.regmap f.clkCfgr.r → (afterWrite p .clkCfgr v f).safe p = true) :
    writeHazard p .clkCfgr f (afterWrite p .clkCfgr v f) = none := by
  have hsw : swOf p.regmap (afterWrite p .clkCfgr v f).clkCfgr.r = swOf p.regmap v :=
    afterWrite_clkCfgr_shows h v f (k := .sw) (by decide)
  have hhpre : hpreOf p.regmap (afterWrite p .clkCfgr v f).clkCfgr.r = hpreOf p.regmap v :=
    afterWrite_clkCfgr_shows h v f (k := .hpre) (by decide)
  refine writeHazard_eq_none (fun hc => ?_) (fun _ => ?_) ?_
  · exact absurd ((clearsPll_afterWrite_iff h .clkCfgr v f).1 hc).1 (by decide)
  · rw [hsw]; exact hsel
  · rw [hhpre]; exact hsafe

end

/-! ## The statement settled -/

/-- Settles O48: the register written by the lemmas on its bits and fields, the hazards by those on the three registers. -/
theorem writeActsByFieldClass : Obligations.WriteActsByFieldClass := by
  refine ⟨fun who n v s hb _ h hok => ?effect, fun who n v s hb hf h => ?noHazard⟩
  case effect =>
    have e := memWrite_of_no_fault hb hok
    have hregs : (memWrite who n v s).regs = afterWrite s.params n v s.regs := by rw [e, logWrite_regs]
    have hrdy := rd_afterWrite_pllRdy h n v s.regs
    have hclears := clearsPll_afterWrite_iff h n v s.regs
    dsimp only
    rw [hregs]
    generalize hfrozen : (if pllOnOf s.params.regmap (memRead s .clkCr) = 1 then pllFieldsMask s.params.regmap n else 0)
      = frozen
    have htaken : takenMask s.params.regmap (s.regs.pllOn s.params.regmap) n
        = ~~~ roMask s.params.regmap n &&& ~~~ frozen := by
      rw [takenMask_eq, BitVec.not_or, ← hfrozen]
      rfl
    refine ⟨afterWrite_r_settling h n v s.regs, ?w, ?r, ?frozen, fun hn => ?ro, fun hn => ?oscRdy, fun hn => ?sws,
      fun hn hon hclr => ?cleared, fun hn hno => ?notCleared, fun k hk => afterWrite_get_other hk, ?engine, ?port⟩
    case w =>
      have hw := afterWrite_w_taken h n v s.regs (rwsMask s.params n)
      rw [htaken] at hw
      simpa only [BitVec.and_assoc] using hw
    case r =>
      have hr := afterWrite_r_taken h n v s.regs
      rw [htaken] at hr
      simpa only [BitVec.and_assoc] using hr
    case frozen =>
      refine afterWrite_r_untaken h _ _ _ (by rw [htaken, BitVec.and_assoc]; simp) fun hn => ?_
      subst hn hfrozen
      split
      · exact pllRdy_mask_and_pllFieldsMask h
      · simp
    case ro =>
      refine afterWrite_r_untaken h _ _ _ ?_ fun hc => absurd hc hn
      rw [htaken, BitVec.and_comm (~~~ _), BitVec.and_assoc]
      simp
    case oscRdy => subst hn; exact rd_afterWrite_kept h (k := .oscRdy) (.inl (by decide)) _ v
    case sws => subst hn; exact rd_afterWrite_kept h (k := .sws) (.inl (by decide)) _ v
    case cleared => subst hn; exact hrdy.trans (if_pos (hclears.2 ⟨rfl, hon, hclr⟩))
    case notCleared => subst hn; exact hrdy.trans (if_neg fun hc => hno (hclears.1 hc).2)
    case engine => rintro rfl; exact e
    case port => rintro rfl; exact e
  case noHazard =>
    refine ⟨fun hcr hcfg => ?other, ?clkCr, ?clkCfgr⟩
    case other =>
      refine memWrite_fault_none hb hf ?_
      rw [afterWrite_of_ne hcr]
      exact writeHazard_of_ne hcr hcfg
    case clkCr =>
      rintro rfl hoff
      exact memWrite_fault_none hb hf (writeHazard_clkCr h v s.regs hoff)
    case clkCfgr =>
      rintro rfl hsrc hsafe
      refine memWrite_fault_none hb hf (writeHazard_clkCfgr h v s.regs (fun hne => ?_) fun hne => ?_)
      · rw [selectable_iff]
        exact (hsrc.resolve_left hne).symm
      · rw [afterWrite_clkCfgr_kept]
        exact hsafe hne

end Sys2Proof.Machine

/-! SUPPORT. The frame of every command (R55, R56, R135, R163): which registers its program stores to, and what a run of it
leaves alone. -/

namespace Sys2Proof.Machine

/-! ## What one write and one plant step leave alone -/

/-- A write changes no register but the one written, in either binding. -/
theorem memWrite_get_other (who : Writer) {n k : RegName} (v : Word) (s : State) (h : k ≠ n) :
    (memWrite who n v s).regs.get k = s.regs.get k := by
  rcases memWrite_cases who n v s with ⟨-, e⟩ | ⟨-, _, -, e⟩ | ⟨-, -, e⟩ <;> rw [e]
  · rw [logWrite_regs]; exact RegFile.get_set_of_ne _ _ h
  · rfl
  · rw [logWrite_regs]; exact afterWrite_get_other h

/-- A write of the engine is recorded in `WLOG`, or is not made; the port's list stays (R33). -/
theorem memWrite_engine_logs (n : RegName) (v : Word) (s : State) :
    (memWrite .engine n v s).plog = s.plog
      ∧ ((memWrite .engine n v s).wlog = s.wlog
        ∨ (memWrite .engine n v s).wlog = s.wlog ++ [(regAddr s.params.regmap n, v)]) := by
  rcases memWrite_cases .engine n v s with ⟨-, e⟩ | ⟨-, _, -, e⟩ | ⟨-, -, e⟩ <;> rw [e]
  · exact ⟨rfl, .inr rfl⟩
  · exact ⟨rfl, .inl rfl⟩
  · exact ⟨rfl, .inr rfl⟩

/-! ## Which registers a program stores to -/

/-- The register a micro-step stores to, if it is a store. -/
@[simp] def Micro.storeReg : Micro → Option RegName
  | .store n _ _ => some n
  | _ => none

/-- The registers the stores of a program are to, in order. -/
def storedBy (b : List Micro) : List RegName := b.filterMap Micro.storeReg

@[simp] theorem storedBy_nil : storedBy [] = [] := rfl

@[simp] theorem storedBy_cons (m : Micro) (b : List Micro) :
    storedBy (m :: b) = m.storeReg.toList ++ storedBy b := by
  cases m <;> rfl

@[simp] theorem storedBy_append (a b : List Micro) : storedBy (a ++ b) = storedBy a ++ storedBy b :=
  List.filterMap_append

@[simp] theorem storedBy_maskedWrite (n : RegName) (mask v : Word) : storedBy (maskedWrite n mask v) = [n] := rfl

@[simp] theorem storedBy_orIn (n : RegName) (mask : Word) : storedBy (orIn n mask) = [n] := rfl

@[simp] theorem storedBy_pollField (m : Regmap) (f : FixedField) (v : Word) : storedBy (pollField m f v) = [] := rfl

theorem storedBy_tail (b : List Micro) : storedBy b.tail ⊆ storedBy b :=
  (b.tail_sublist.filterMap _).subset

/-- `DoPllConfigure` stores once to each register that holds some of the five fields (R130). -/
@[simp] theorem storedBy_doPllConfigure (m : Regmap) (w : PllWord) : storedBy (doPllConfigure m w) = pllRegs m := by
  have hwrites : ∀ l : List RegName,
      storedBy (l.flatMap fun n => maskedWrite n (pllFieldsMask m n) (pllImage m w n)) = l := by
    intro l
    induction l with
    | nil => rfl
    | cons n l ih => rw [List.flatMap_cons, storedBy_append, ih]; rfl
  exact hwrites _

/-- A whole run of the Sequencer stores to its registers once each in this order (R151, R163). -/
theorem storedBy_seqBody (p : Params) (w : PllWord) (l : Level) (ws : Word) :
    storedBy (seqBody p w l ws) = [.pwrCr, .flashAcr] ++ pllRegs p.regmap ++ [.clkCr, .clkCfgr] := by
  simp [seqBody, seqT1, seqT2, seqT3, seqT4, seqT5, seqT6, seqT7, doScaling, doLatency, doPllEnable, doWaitLock]

/-- The program of a command stores to the command's registers only (R55). -/
theorem storedBy_programOf (i : Instr) (s : State) : storedBy (programOf i s) ⊆ storedRegs s.params i := by
  cases i with
  | getFreq domain a1 =>
    simp only [programOf]
    split <;> exact List.nil_subset _
  | setScaling level a1 =>
    simp only [programOf]
    split
    · exact List.nil_subset _
    · simp [doScaling, storedRegs]
  | setLatency ws a1 =>
    simp only [programOf]
    split
    · exact List.nil_subset _
    · simp [doLatency, storedRegs]
  | enableCache a0 a1 => exact List.Subset.refl _
  | enablePrefetch a0 a1 => exact List.Subset.refl _
  | pllConfigure cfg a1 =>
    simp only [programOf]
    split
    · simp [storedRegs]
    · exact List.nil_subset _
  | pllEnable a0 a1 => exact List.Subset.refl _
  | pllWaitLock a0 a1 => exact List.Subset.refl _
  | seqRun cfg pw =>
    simp only [programOf, seqProgram]
    split
    · exact List.nil_subset _
    · split
      · exact List.nil_subset _
      · split
        · exact List.nil_subset _
        · rw [storedBy_seqBody]
          exact List.Subset.refl _
  | gateGpio id a1 =>
    simp only [programOf]
    split
    · exact List.nil_subset _
    · exact List.Subset.refl _
  | gateUsart id a1 =>
    simp only [programOf]
    split
    · exact List.nil_subset _
    · next e he =>
      simp only [storedRegs, he]
      exact List.Subset.refl _

/-! ## A run that keeps to its registers -/

/-- A micro-step is the store at the head of the program, or it writes nothing and leaves no store to come that was not. -/
theorem engineStep_store_or_quiet (u : State) :
    (∃ n mask v rest, u.ph = .store n mask v :: rest
        ∧ engineStep u = memWrite .engine n (merge mask v u.t) { u with ph := rest })
      ∨ ((engineStep u).regs = u.regs ∧ (engineStep u).wlog = u.wlog
        ∧ storedBy (engineStep u).ph ⊆ storedBy u.ph) := by
  by_cases hr : u.running = true
  · cases hph : u.ph with
    | nil => exact .inr (by simp [engineStep, hph])
    | cons m rest =>
      rw [engineStep_cons hr hph]
      cases m with
      | store n mask v => exact .inl ⟨n, mask, v, rest, rfl, rfl⟩
      | _ =>
        refine .inr ?_
        simp only [runMicro, freqClkStep, freqPllStep]
        repeat' split
        all_goals simp [hph, storedBy_tail]
  · rw [engineStep_of_not_running (by simpa using hr)]
    exact .inr ⟨rfl, rfl, List.Subset.refl _⟩

/-- In the middle of a command begun in `s` that stores to the registers `l`: the parameters, the port's writes and the
requester's commands are those of `s`, the engine has written to registers of `l` and will write to no other, and what a
register outside `l` holds satisfies `P`. -/
structure FrameKept (s : State) (l : List RegName) (P : RegName → Reg → Prop) (u : State) : Prop where
  params : u.params = s.params
  plog : u.plog = s.plog
  requests : u.requests = s.requests
  wlog : ∃ new, u.wlog = s.wlog ++ new ∧ ∀ e ∈ new, ∃ n ∈ l, e.1 = regAddr s.params.regmap n
  ph : storedBy u.ph ⊆ l
  regs : ∀ n, n ∉ l → P n (u.regs.get n)

section
variable {s : State} {l : List RegName} {P : RegName → Reg → Prop} {u : State}

theorem accept_frameKept (i : Instr) (hP : ∀ n, P n (s.regs.get n)) :
    FrameKept s (storedRegs s.params i) P (accept (opcodeOf i) (word1Of i) (word0Of i) (programOf i s) s) where
  params := rfl
  plog := rfl
  requests := rfl
  wlog := ⟨[], by simp⟩
  ph := storedBy_programOf i s
  regs := fun n _ => hP n

/-- A write of the engine to a register of `l`. -/
theorem memWrite_frameKept (h : FrameKept s l P u) {n : RegName} (hn : n ∈ l) (v : Word) :
    FrameKept s l P (memWrite .engine n v u) := by
  obtain ⟨hplog, hlog⟩ := memWrite_engine_logs n v u
  obtain ⟨new, hwlog, hnew⟩ := h.wlog
  refine ⟨(memWrite_params _ _ _ _).trans h.params, hplog.trans h.plog, (memWrite_requests _ _ _ _).trans h.requests,
    ?wlog, memWrite_ph .engine n v u ▸ h.ph, fun k hk => ?regs⟩
  case wlog =>
    rcases hlog with e | e
    · exact ⟨new, e.trans hwlog, hnew⟩
    · refine ⟨new ++ [(regAddr s.params.regmap n, v)], by rw [e, hwlog, h.params, List.append_assoc], fun w hw => ?_⟩
      rcases List.mem_append.1 hw with hw | hw
      · exact hnew w hw
      · exact ⟨n, hn, by rw [List.mem_singleton.1 hw]⟩
  case regs =>
    have hne : k ≠ n := fun e => hk (e ▸ hn)
    rw [memWrite_get_other _ _ _ hne]
    exact h.regs k hk

theorem engineStep_frameKept (h : FrameKept s l P u) : FrameKept s l P (engineStep u) := by
  rcases engineStep_store_or_quiet u with ⟨n, mask, v, rest, hu, e⟩ | ⟨hregs, hwlog, hph⟩
  · have hstores : n :: storedBy rest ⊆ l := by
      have := h.ph
      rwa [hu] at this
    have hrest : FrameKept s l P { u with ph := rest } :=
      ⟨h.params, h.plog, h.requests, h.wlog, List.subset_of_cons_subset hstores, h.regs⟩
    rw [e]
    exact memWrite_frameKept hrest (hstores List.mem_cons_self) _
  · exact ⟨(engineStep_params u).trans h.params, (engineStep_plog u).trans h.plog,
      (engineStep_requests u).trans h.requests, hwlog ▸ h.wlog, fun _ hn => h.ph (hph hn), hregs ▸ h.regs⟩

theorem plantStep_frameKept {q : PlantStep} (hP : ∀ n, n ∉ l → P n ((plantStep q u).regs.get n))
    (h : FrameKept s l P u) : FrameKept s l P (plantStep q u) where
  params := (plantStep_params q u).trans h.params
  plog := (plantStep_plog q u).trans h.plog
  requests := (plantStep_requests q u).trans h.requests
  wlog := plantStep_wlog q u ▸ h.wlog
  ph := plantStep_ph q u ▸ h.ph
  regs := hP

theorem FrameKept.agenda (h : FrameKept s l P u) (ts : List Turn) : FrameKept s l P { u with agenda := ts } :=
  ⟨h.params, h.plog, h.requests, h.wlog, h.ph, h.regs⟩

end

/-- A register holds as written what it holds in `f`, the plant's status bits apart (R31, R53). -/
abbrev WrittenAsIn (m : Regmap) (f : RegFile) (n : RegName) (x : Reg) : Prop :=
  x.w &&& ~~~ roMask m n = (f.get n).w &&& ~~~ roMask m n

theorem plantStep_writtenAsIn {q : PlantStep} {u : State} {f : RegFile} {n : RegName}
    (h : WrittenAsIn u.params.regmap f n (u.regs.get n)) :
    WrittenAsIn u.params.regmap f n ((plantStep q u).regs.get n) := by
  rcases plantStep_regs q u with e | ⟨-, e⟩ <;> rw [e]
  · exact h
  · exact (plantEffect_w _ _ _ _).trans h

/-- Settles O41: the program keeps to the command's registers, and a plant step changes no written bit but the status fields'. -/
theorem commandsWriteOnlyTheirRegisters : Obligations.CommandsWriteOnlyTheirRegisters := by
  intro i s t hplant hexec
  obtain ⟨-, hrun⟩ := exec_next hexec
  have hkept : FrameKept s (storedRegs s.params i) (WrittenAsIn s.params.regmap s.regs) t :=
    runTurns_keeps_internal (fun _ ts hu => hu.agenda ts)
      (fun _ _ hu => plantStep_frameKept (fun n hn => hu.params ▸ plantStep_writtenAsIn (hu.params ▸ hu.regs n hn)) hu)
      (fun _ hu => engineStep_frameKept hu) hplant (accept_frameKept i fun _ => rfl) hrun
  exact ⟨hkept.regs, hkept.params, hkept.plog, hkept.requests, hkept.wlog⟩

/-! ## An undisturbed run -/

/-- A plant step whose condition can hold is one of those the plant has. -/
theorem mem_plantSteps {p : Params} {f : RegFile} {q : PlantStep} (h : plantCondition p f q = true) :
    q ∈ plantSteps p := by
  cases q with
  | settle sf =>
    have hsf : sf ∈ settlingFields p := by
      cases sf with
      | vos => simp [settlingFields]
      | latency => simp [settlingFields]
      | gpioen k => simp [settlingFields]
      | usarten id =>
        cases he : usartEntry p id with
        | none => simp [plantCondition, SettlingField.bits, SettlingField.toField, FieldName.place, he] at h
        | some e =>
          have hid : e.id = id := by simpa using List.find?_some he
          exact List.mem_append_right _ (List.mem_map.2 ⟨e, List.mem_of_find?_eq_some he, by rw [hid]⟩)
    simp [plantSteps, hsf]
  | _ => simp [plantSteps]

/-- In a settled state of the production binding no plant step has its condition. -/
theorem plantCondition_of_settled {s : State} (h : s.Settled) (hb : s.params.binding = .production)
    (hf : s.fault = none) (q : PlantStep) : plantCondition s.params s.regs q = false := by
  by_contra hc
  have ht : plantCondition s.params s.regs q = true := by simpa using hc
  have hoff := (settled_iff s).1 h q (mem_plantSteps ht)
  rw [plantEnabled_eq hb hf] at hoff
  exact hc hoff

/-- A plant step changes the register of its field and no other (R30, R31). -/
theorem plantEffect_get_other {p : Params} {q : PlantStep} {n : RegName}
    (h : ∀ pl, q.field.place p = some pl → n ≠ pl.reg) (f : RegFile) : (plantEffect p f q).get n = f.get n := by
  have hset : ∀ (k : FixedField) (v : Word), n ≠ k.reg p.regmap → (f.setField p.regmap k v).get n = f.get n :=
    fun k v hn => RegFile.get_set_of_ne _ _ hn
  cases q with
  | settle sf =>
    simp only [plantEffect, SettlingField.bits]
    cases hpl : sf.toField.place p with
    | none => rfl
    | some pl => exact RegFile.get_set_of_ne _ _ (h pl hpl)
  | oscReady => exact hset _ _ (h _ rfl)
  | pllLock => exact hset _ _ (h _ rfl)
  | muxSwitch => exact hset _ _ (h _ rfl)

/-- A plant step that is off stays off while the register of its field is untouched; the mux because it has followed. -/
theorem plantCondition_of_same {p : Params} {f g : RegFile} {q : PlantStep} {pl : Place}
    (hpl : q.field.place p = some pl) (hsame : g.get pl.reg = f.get pl.reg)
    (hmux : swsOf p.regmap f.clkCfgr.r = swOf p.regmap f.clkCfgr.r) (hoff : plantCondition p f q = false) :
    plantCondition p g q = false := by
  cases q with
  | settle sf =>
    have hbits : SettlingField.bits p sf = some (pl.reg, pl.mask) := congrArg (Option.map _) hpl
    rw [plantCondition_settle hbits] at hoff ⊢
    rw [hsame, hoff]
  | oscReady =>
    cases hpl
    rw [← hoff]
    exact congrArg (fun x : Reg => oscRdyOf p.regmap x.r == 0) hsame
  | pllLock =>
    cases hpl
    rw [← hoff]
    exact congrArg (fun x : Reg => pllOnOf p.regmap x.r == 1 && pllRdyOf p.regmap x.r == 0) hsame
  | muxSwitch =>
    cases hpl
    have hcfg : g.clkCfgr = f.clkCfgr := hsame
    simp [plantCondition, hcfg, hmux]

/-- Where the plant had nothing to do in `s`, it leaves alone every register that holds what it held there. -/
theorem plantStep_get_of_quiet {s u : State} (hf : s.fault = none) (hp : u.params = s.params)
    (hquiet : s.params.binding = .production → s.Settled ∧ s.MuxFollowed) {n : RegName}
    (hn : u.regs.get n = s.regs.get n) (q : PlantStep) : (plantStep q u).regs.get n = s.regs.get n := by
  cases hb : s.params.binding with
  | test => rw [plantStep_of_test (hp ▸ hb), hn]
  | production =>
    obtain ⟨hsettled, hmux⟩ := hquiet hb
    rcases plantStep_regs q u with e | ⟨hc, e⟩ <;> rw [e]
    · exact hn
    · rw [hp] at hc ⊢
      refine (plantEffect_get_other (fun pl hpl hne => ?_) u.regs).trans hn
      rw [plantCondition_of_same hpl (hne ▸ hn) hmux (plantCondition_of_settled hsettled hb hf q)] at hc
      cases hc

/-- The undisturbed engine keeps what its micro-steps and the plant's moving between them keep. -/
theorem engineAlone_keeps_of_plantAlone {P : State → Prop} (hplant : ∀ u, P u → P (plantAlone u))
    (hengine : ∀ u, P u → P (engineStep u)) (n : Nat) {u : State} (hu : P u) : P (engineAlone n u) := by
  induction n generalizing u with
  | zero => exact hu
  | succ n ih =>
    unfold engineAlone
    split
    · exact ih (hengine _ (hplant _ hu))
    · exact hu

/-- A register holds what it holds in `f`, as written and as read. -/
abbrev HoldsAsIn (f : RegFile) (n : RegName) (x : Reg) : Prop := x = f.get n

/-- An undisturbed command keeps to its registers, whatever a live plant does in answer to its writes. -/
theorem exec_undisturbed_frame {i : Instr} {s t : State} (hu : s.Undisturbed) (h : exec i s = .next t) :
    FrameKept s (storedRegs s.params i) (HoldsAsIn s.regs) t := by
  obtain ⟨hidle, hrun⟩ := exec_next h
  obtain ⟨-, hf⟩ := (idle_iff s).1 hidle
  rw [hu.1, runTurns_nil] at hrun
  cases hrun
  refine engineAlone_keeps_of_plantAlone (fun u hk => ?_) (fun _ hk => engineStep_frameKept hk) _
    ((accept_frameKept (P := HoldsAsIn s.regs) i fun _ => rfl).agenda [])
  cases hl : s.params.plantLive with
  | true =>
    exact plantAlone_keeps (fun q _ hw => plantStep_frameKept
      (fun n hn => plantStep_get_of_quiet hf hw.params (hu.2 hl) (hw.regs n hn) q) hw) hk
  | false =>
    rw [plantAlone_of_settled fun hlive => by rw [hk.params, hl] at hlive; cases hlive]
    exact hk

/-- A byte depends on the register it lies in alone (R51). -/
theorem RegFile.byteAt_congr {m : Regmap} {f g : RegFile} {a : Word}
    (h : ∀ n, regAddr m n = a &&& ~~~ 3 → g.get n = f.get n) : g.byteAt m a = f.byteAt m a := by
  unfold RegFile.byteAt
  cases hk : regAt m (a &&& ~~~ 3) with
  | none => rfl
  | some n => rw [Option.map_some, Option.map_some, h n (regAddr_of_regAt hk)]

/-- Settles O42: the registers by the frame of an undisturbed run, and so the bytes that lie in them. -/
theorem undisturbedCommandsKeepOtherBytes : Obligations.UndisturbedCommandsKeepOtherBytes := by
  intro i s t hu h
  have hregs := (exec_undisturbed_frame hu h).regs
  exact ⟨hregs, fun a ha => RegFile.byteAt_congr fun n hn => hregs n fun hmem => ha n hmem hn.symm⟩

end Sys2Proof.Machine

/-! SUPPORT. The encoding (R80 to R90): the operand words, the command word and their fields there and back, what the opcode
selects, and the requester's turn where it presents no command. -/

namespace Sys2Proof

open BitVec (extractLsb'_append_eq_of_le extractLsb'_append_eq_right extractLsb'_append_extractLsb'_eq_extractLsb'
  extractLsb'_eq_self)

/-! ## The words and their fields -/

/-- A PllWord is read back from the word that carries it (R84). -/
theorem pllWordOf_pllWordBits (c : PllWord) : pllWordOf (pllWordBits c) = c := by
  simp [pllWordOf, pllWordBits, extractLsb'_append_eq_of_le, extractLsb'_append_eq_right, -Nat.reduceAdd]

/-- A PowerWord is read back from the word that carries it (R85). -/
theorem powerWordOf_powerWordBits (c : PowerWord) : powerWordOf (powerWordBits c) = c := by
  simp [powerWordOf, powerWordBits, extractLsb'_append_eq_of_le, extractLsb'_append_eq_right, -Nat.reduceAdd]

/-- The six fields of a PllWord leave out no bit of its word: each starts where the one below it ends (R84). -/
theorem pllWordBits_pllWordOf (w : Word) : pllWordBits (pllWordOf w) = w := by
  unfold pllWordBits pllWordOf
  iterate 5 rw [extractLsb'_append_extractLsb'_eq_extractLsb' (by decide)]
  exact extractLsb'_eq_self

/-- The three fields of a PowerWord leave out no bit of its word (R85). -/
theorem powerWordBits_powerWordOf (w : Word) : powerWordBits (powerWordOf w) = w := by
  unfold powerWordBits powerWordOf
  iterate 2 rw [extractLsb'_append_extractLsb'_eq_extractLsb' (by decide)]
  exact extractLsb'_eq_self

/-- `op`, `a1` and `a0` leave out no bit of a command word (R80). -/
theorem commandWord_of_fields (cw : CommandWord) : commandWord (opOf cw) (a1Of cw) (a0Of cw) = cw := by
  unfold commandWord opOf a1Of a0Of
  iterate 2 rw [extractLsb'_append_extractLsb'_eq_extractLsb' (by decide)]
  exact extractLsb'_eq_self

/-! ## What the opcode selects -/

theorem decode_commandWord (op : Opcode) (a1 a0 : Word) :
    decode (commandWord op a1 a0) = decodeFields op a1 a0 := by
  rw [decode, opOf_commandWord, a1Of_commandWord, a0Of_commandWord]

/-- The fields of a command's word select that command, with its operands as they are. -/
theorem decodeFields_of_instr (i : Instr) : decodeFields (opcodeOf i) (word1Of i) (word0Of i) = .ok i := by
  cases i with
  | pllConfigure cfg a1 =>
    show Except.ok (Instr.pllConfigure (pllWordOf (pllWordBits cfg)) a1) = _
    rw [pllWordOf_pllWordBits]
  | seqRun cfg pw =>
    show Except.ok (Instr.seqRun (pllWordOf (pllWordBits cfg)) (powerWordOf (powerWordBits pw))) = _
    rw [pllWordOf_pllWordBits, powerWordOf_powerWordBits]
  | _ => rfl

/-- The fields a command is decoded from are the fields it is encoded with. -/
theorem fields_of_decodeFields {op : Opcode} {a1 a0 : Word} {i : Instr} (h : decodeFields op a1 a0 = .ok i) :
    opcodeOf i = op ∧ word1Of i = a1 ∧ word0Of i = a0 := by
  unfold decodeFields at h
  split at h <;> cases h
  case h_6.refl ho => exact ⟨BitVec.eq_of_toNat_eq ho.symm, rfl, pllWordBits_pllWordOf a0⟩
  case h_9.refl ho =>
    exact ⟨BitVec.eq_of_toNat_eq ho.symm, powerWordBits_powerWordOf a1, pllWordBits_pllWordOf a0⟩
  all_goals next ho => exact ⟨BitVec.eq_of_toNat_eq ho.symm, rfl, rfl⟩

/-- An opcode outside 0x01 to 0x0B is reserved (R88). -/
theorem decodeFields_reserved {op : Opcode} (h : op = 0x00 ∨ 0x0C ≤ op.toNat) (a1 a0 : Word) :
    decodeFields op a1 a0 = .error (.reservedOpcode op) := by
  have hout : op.toNat = 0x00 ∨ 0x0C ≤ op.toNat := h.imp_left (congrArg BitVec.toNat)
  unfold decodeFields
  split
  case h_12 => rfl
  all_goals omega

/-- Settles O1: the word's fields are the command's (R80), and they select it. -/
theorem decodeOfEncodeIsTheCommand : Obligations.DecodeOfEncodeIsTheCommand :=
  fun i => (decode_commandWord _ _ _).trans (decodeFields_of_instr i)

/-- Settles O2: the command carries the word's three fields, and they make up the word. -/
theorem encodeOfDecodeIsTheWord : Obligations.EncodeOfDecodeIsTheWord := by
  intro cw i h
  obtain ⟨hop, h1, h0⟩ := fields_of_decodeFields h
  rw [encode, hop, h1, h0, commandWord_of_fields]

/-- Settles O3: each row of the table by `decode_commandWord`, and the fields as quotients and remainders of the word. -/
theorem opcodeSelectsTheCommand : Obligations.OpcodeSelectsTheCommand := by
  refine ⟨fun op a1 a0 => ?_, fun w => ?_⟩
  · simp only [decode_commandWord]
    exact ⟨rfl, rfl, rfl, rfl, rfl, rfl, rfl, rfl, rfl, rfl, rfl, fun h => decodeFields_reserved h a1 a0⟩
  · simp [pllWordOf, powerWordOf, Nat.shiftRight_eq_div_pow]

/-- Settles O4: each word is the encoding of its command (R89). -/
theorem exampleWordsDecode : Obligations.ExampleWordsDecode :=
  ⟨decodeOfEncodeIsTheCommand (.getFreq 4 0), decodeOfEncodeIsTheCommand (.setLatency 2 0),
    decodeOfEncodeIsTheCommand (.seqRun Machine.bootTarget ⟨0, 1, 2⟩)⟩

/-- Settles O5: the assembler runs on the four lines (R89). -/
theorem exampleLinesAssemble : Obligations.ExampleLinesAssemble := ⟨rfl, rfl, rfl, rfl⟩

end Sys2Proof

namespace Sys2Proof.Machine

/-! ## The requester's turn where it presents no command -/

/-- A command held back by a response that was not `OK` is dropped (R90). -/
theorem present_dropped {s : State} {cw : CommandWord} {qs : List Request} (hq : s.requests = ⟨cw, true⟩ :: qs)
    (hst : s.st ≠ .ok) : present s = .other (.next { s with requests := qs }) := by
  simp [present, hq, hst]

/-- A word with a reserved opcode that is not held back is answered (R88). -/
theorem present_reserved {s : State} {cw : CommandWord} {qs : List Request} {e : DecodeRefusal}
    (hq : s.requests = ⟨cw, false⟩ :: qs) (hd : decode cw = .error e) :
    present s = .other (issueReserved cw { s with requests := qs }) := by
  simp [present, hq, hd]

/-- With nothing listed, the step of an idle block is the requester's turn. -/
theorem step_own_turn {s : State} {o : Host.Outcome State Fault Refusal} (h : s.idle = true) (ha : s.agenda = [])
    (hp : present s = .other o) : step s = o := by
  rw [step, choose_own_turn h (.inr ⟨ha, rfl⟩), ← ha, hp]

/-- A reserved word accepted in an undisturbed block is answered by its one micro-step, with no access (R88, R191). -/
theorem issueReserved_undisturbed {s : State} (h : s.idle = true) (hu : s.Undisturbed) (cw : CommandWord) :
    issueReserved cw s = .next (respond .invalidParameter 0
      (accept (opOf cw) (a1Of cw) (a0Of cw) [.raise .invalidParameter] s)) := by
  rw [issueReserved, issueWord_undisturbed h hu.1]
  exact congrArg _ (engineAlone_raise 0 (accept_running h _ _ _ _) (undisturbed_settled hu) rfl)

/-- Settles O6: `BRINGUP` expands as R90 says, and the requester drops what is held back. -/
theorem bringupStopsAtTheFirstError : Obligations.BringupStopsAtTheFirstError :=
  ⟨fun _ _ => rfl, fun _ _ _ h ha hq hst => step_own_turn h ha (present_dropped hq hst)⟩

/-- Settles O9: the word decodes to nothing, so it is answered as `issueReserved_undisturbed` says. -/
theorem reservedOpcodeIsAnswered : Obligations.ReservedOpcodeIsAnswered := by
  intro s cw qs h hu hq hop
  have hd : decode cw = .error (.reservedOpcode (opOf cw)) := decodeFields_reserved hop _ _
  have hb : s.busy = false := ((idle_iff s).1 h).1
  rw [step_own_turn h hu.1 (present_reserved hq hd),
    issueReserved_undisturbed (s := { s with requests := qs }) h hu, respond, accept, hb]

end Sys2Proof.Machine

/-! SUPPORT. The arithmetic of the clock tree (R102 to R108): the two prescaler lookups, the PLL walk, and that no frequency
exceeds the system clock it is derived from. -/

namespace Sys2Proof.Machine

/-! ## The prescalers -/

theorem ahbDiv_of_off {h : BitVec 4} (hoff : h.getLsbD 3 = false) : ahbDiv h = 1 := by
  rw [ahbDiv, hoff, if_neg Bool.false_ne_true]

theorem apbDiv_of_off {pp : BitVec 3} (hoff : pp.getLsbD 2 = false) : apbDiv pp = 1 := by
  rw [apbDiv, hoff, if_neg Bool.false_ne_true]

/-- Settles O20: off by `ahbDiv_of_off`, and the eight entries by evaluating the lookup. -/
theorem busPrescalerTable : Obligations.BusPrescalerTable :=
  ⟨fun _ => ahbDiv_of_off, rfl, rfl, rfl, rfl, rfl, rfl, rfl, rfl⟩

/-- Settles O21: off by `apbDiv_of_off`, the four entries by evaluating the lookup, and the two clocks as R105 nests them. -/
theorem peripheralPrescalerTable : Obligations.PeripheralPrescalerTable :=
  ⟨fun _ => apbDiv_of_off, rfl, rfl, rfl, rfl, fun _ _ _ => rfl, fun _ _ _ => rfl⟩

/-- Every entry of the peripheral table divides (R105). -/
theorem one_lt_apbTable (k : Fin 4) : 1 < apbTable k := by revert k; decide

/-- A peripheral prescaler divides exactly when its enable bit is set (R105). -/
theorem one_lt_apbDiv_iff (pp : BitVec 3) : 1 < apbDiv pp ↔ pp.getLsbD 2 = true := by
  cases hbit : pp.getLsbD 2 with
  | false => simp [apbDiv_of_off hbit]
  | true => simp only [apbDiv, hbit, if_true, one_lt_apbTable]

/-! ## The PLL walk -/

theorem pllOut_zero (n p : Nat) : pllOut 0 n p = .error .divideByZero := rfl

theorem pllOut_overflow {m n : Nat} (hm : m ≠ 0) (h : 2 ^ 32 ≤ 16000000 / m * n) (p : Nat) :
    pllOut m n p = .error .freqOverflow := (if_neg hm).trans (if_pos h)

theorem pllOut_ok {m n : Nat} (hm : m ≠ 0) (h : 16000000 / m * n < 2 ^ 32) (p : Nat) :
    pllOut m n p = .ok (16000000 / m * n / p) := (if_neg hm).trans (if_neg (Nat.not_le.2 h))

/-- The walk overflows exactly where the product does not fit 32 bits (R103). -/
theorem pllOut_overflow_iff {m n : Nat} (hm : m ≠ 0) (p : Nat) :
    pllOut m n p = .error .freqOverflow ↔ 2 ^ 32 ≤ 16000000 / m * n := by
  refine ⟨fun h => ?_, fun h => pllOut_overflow hm h p⟩
  by_contra hlt
  rw [pllOut_ok hm (Nat.not_le.1 hlt)] at h
  cases h

/-- A value of the walk is the quotient of a product that fits 32 bits (R103). -/
theorem pllOut_eq_ok {m n p f : Nat} (h : pllOut m n p = .ok f) :
    16000000 / m * n < 2 ^ 32 ∧ f = 16000000 / m * n / p := by
  unfold pllOut at h
  split at h
  · cases h
  · split at h
    · cases h
    · next hlt =>
      cases h
      exact ⟨Nat.not_le.1 hlt, rfl⟩

/-- Settles O18: the two faults and the value by the equations of `pllOut`; the value as the truncated quotient. -/
theorem pllWalkIsDivideMultiplyDivide : Obligations.PllWalkIsDivideMultiplyDivide := by
  intro map g m n p
  refine ⟨fun hm => ?_, fun hm h => pllOut_overflow hm h p, fun hm h => ⟨_, pllOut_ok hm h p, ?_, ?_⟩⟩
  · show pllOut m n p = _
    rw [hm, pllOut_zero]
  · exact Nat.mul_div_le _ _
  · exact Nat.lt_mul_div_succ _ (by omega : 0 < p)

/-- A first divisor of 2 or more leaves at most half of the oscillator (R108). -/
theorem fOsc_div_le {m : Nat} (hm : 2 ≤ m) : 16000000 / m ≤ 8000000 := Nat.div_le_div_left hm (by decide)

/-- Settles O19: the bounds by `fOsc_div_le`, the faults by the equations of `pllOut`. -/
theorem pllWalkBounds : Obligations.PllWalkBounds := by
  refine ⟨fun m n hm _ _ hn => ?bounds, fun m n p hm hn => ?inside, fun n p => ?one, pllOut_zero⟩
  case bounds => exact ⟨fOsc_div_le hm, Nat.mul_le_mul (fOsc_div_le hm) hn⟩
  case inside =>
    have hprod : 16000000 / m * n ≤ 8000000 * 511 := Nat.mul_le_mul (fOsc_div_le hm) hn
    exact pllOut_ok (by omega) (by omega) p
  case one =>
    rw [pllOut_overflow_iff Nat.one_ne_zero]
    omega

/-- Every value of the walk fits 32 bits (R107). -/
theorem pllFreq_lt {m : Regmap} {g : RegFile} {f : Nat} (h : pllFreq m g = .ok f) : f < 2 ^ 32 := by
  obtain ⟨hlt, rfl⟩ := pllOut_eq_ok h
  exact (Nat.div_le_self _ _).trans_lt hlt

/-! ## The frequencies of the domains -/

theorem periphFreq_le (core : Nat) (pp : BitVec 3) : periphFreq core pp ≤ core := Nat.div_le_self _ _

/-- The timer clock by the factor of R106. -/
theorem timerFreq_eq_mul (per pdiv : Nat) : timerFreq per pdiv = (if 1 < pdiv then 2 else 1) * per := by
  unfold timerFreq
  split <;> simp

/-- The doubling undoes no more than the prescaler has divided (R106, R107). -/
theorem timerFreq_le (core : Nat) (pp : BitVec 3) : timerFreq (periphFreq core pp) (apbDiv pp) ≤ core := by
  unfold timerFreq
  split
  · next hdiv => exact (Nat.mul_le_mul_right _ hdiv).trans (Nat.mul_div_le core (apbDiv pp))
  · exact periphFreq_le core pp

theorem domainFreq_le (m : Regmap) (d : ClockDomain) (sys : Nat) (c : Word) : domainFreq m d sys c ≤ sys := by
  have hcore : coreFreq m sys c ≤ sys := Nat.div_le_self _ _
  cases d with
  | system => exact Nat.le_refl sys
  | core => exact hcore
  | apb1Periph => exact (periphFreq_le _ _).trans hcore
  | apb2Periph => exact (periphFreq_le _ _).trans hcore
  | apb1Timer => exact (timerFreq_le _ _).trans hcore
  | apb2Timer => exact (timerFreq_le _ _).trans hcore

/-- Settles O24: `pllFreq_lt` and `domainFreq_le`. -/
theorem noFrequencyWraps : Obligations.NoFrequencyWraps := ⟨fun _ _ _ => pllFreq_lt, domainFreq_le⟩

end Sys2Proof.Machine

/-! SUPPORT. `GET_FREQ` in an undisturbed block (R101, R102): its reads one by one, and what it answers. -/

namespace Sys2Proof.Machine

/-! ## The two reads -/

section
variable {d : ClockDomain} {rest : List Micro} {u : State}

theorem freqClkStep_osc (h : swsOf u.params.regmap (memRead u .clkCfgr) = srcOsc) :
    freqClkStep d rest u
      = { u with val := BitVec.ofNat 32 (domainFreq u.params.regmap d fOsc (memRead u .clkCfgr)), ph := rest.tail } := by
  simp [freqClkStep, h, srcOsc, srcPll]

theorem freqClkStep_pll (h : swsOf u.params.regmap (memRead u .clkCfgr) = srcPll) :
    freqClkStep d rest u = { u with t := memRead u .clkCfgr, ph := rest } := by
  simp [freqClkStep, h]

/-- A source that is not wired (R22) has no frequency (R101). -/
theorem freqClkStep_unwired (h : swsOf u.params.regmap (memRead u .clkCfgr) = 0b01
      ∨ swsOf u.params.regmap (memRead u .clkCfgr) = 0b11) :
    freqClkStep d rest u = { u with ph := [.raise .notAvailable] } := by
  rcases h with h | h <;> simp [freqClkStep, h, srcOsc, srcPll]

theorem freqPllStep_ok {sys : Nat} (h : pllFreq u.params.regmap u.regs = .ok sys) :
    freqPllStep d rest u
      = { u with val := BitVec.ofNat 32 (domainFreq u.params.regmap d sys u.t), ph := rest } := by
  simp [freqPllStep, h]

theorem freqPllStep_error {f : Fault} (h : pllFreq u.params.regmap u.regs = .error f) :
    freqPllStep d rest u = recordFault f u := by
  simp [freqPllStep, h]

end

/-! ## The body of `GET_FREQ` with nobody else moving -/

/-- `GET_FREQ d` just accepted (R12, R101). -/
def State.inGetFreq (s : State) (d : ClockDomain) (domain a1 : Word) : State :=
  accept (opcodeOf (.getFreq domain a1)) (word1Of (.getFreq domain a1)) (word0Of (.getFreq domain a1)) (freqBody d) s

/-- `GET_FREQ d` between its two reads, with the PLL selected (R102). -/
def State.atPllRead (u : State) (d : ClockDomain) : State :=
  { u with t := memRead u .clkCfgr, ph := [.freqPll d, .done] }

section
variable {d : ClockDomain} {u : State}
variable (hr : u.running = true) (hs : u.params.plantLive = true → u.Settled) (hp : u.ph = freqBody d)
include hr hs hp

theorem engineAlone_freqBody_osc (h : swsOf u.params.regmap (memRead u .clkCfgr) = srcOsc) :
    engineAlone 3 u
      = respond .ok (BitVec.ofNat 32 (domainFreq u.params.regmap d fOsc (memRead u .clkCfgr))) u := by
  rw [engineAlone_cons hr hs hp, runMicro, freqClkStep_osc h]
  exact engineAlone_done 1 hr hs rfl

theorem engineAlone_freqBody_unwired (h : swsOf u.params.regmap (memRead u .clkCfgr) = 0b01
      ∨ swsOf u.params.regmap (memRead u .clkCfgr) = 0b11) :
    engineAlone 3 u = respond .notAvailable 0 u := by
  rw [engineAlone_cons hr hs hp, runMicro, freqClkStep_unwired h]
  exact engineAlone_raise 1 hr hs rfl

/-- With the PLL selected the walk is next, by the `CLK_CFGR` word just read (R102, R110). -/
theorem engineAlone_freqBody_pll (h : swsOf u.params.regmap (memRead u .clkCfgr) = srcPll) :
    engineAlone 3 u = engineAlone 1 (freqPllStep d [.done] (u.atPllRead d)) := by
  rw [engineAlone_cons hr hs hp, runMicro, freqClkStep_pll h]
  exact engineAlone_cons (s := u.atPllRead d) hr hs rfl 1

theorem engineAlone_freqBody_pll_ok (h : swsOf u.params.regmap (memRead u .clkCfgr) = srcPll) {sys : Nat}
    (hw : pllFreq u.params.regmap u.regs = .ok sys) :
    engineAlone 3 u
      = respond .ok (BitVec.ofNat 32 (domainFreq u.params.regmap d sys (memRead u .clkCfgr))) u := by
  rw [engineAlone_freqBody_pll hr hs hp h, freqPllStep_ok (u := u.atPllRead d) hw]
  exact engineAlone_done 0 hr hs rfl

theorem engineAlone_freqBody_pll_error (h : swsOf u.params.regmap (memRead u .clkCfgr) = srcPll) {f : Fault}
    (hw : pllFreq u.params.regmap u.regs = .error f) :
    engineAlone 3 u = recordFault f (u.atPllRead d) := by
  rw [engineAlone_freqBody_pll hr hs hp h, freqPllStep_error (u := u.atPllRead d) hw]
  exact engineAlone_of_not_running (running_of_fault rfl) 1

end

/-! ## The command -/

/-- A domain above 5 is none (R86). -/
theorem domainOf_of_gt {w : Word} (h : 5 < w.toNat) : domainOf w = none := by
  unfold domainOf
  split
  case h_7 => rfl
  all_goals omega

section
variable {s : State} (hi : s.idle = true) (hu : s.Undisturbed)
include hi hu

theorem exec_getFreq_of_no_domain {domain : Word} (hd : domainOf domain = none) (a1 : Word) :
    exec (.getFreq domain a1) s = .next (s.answered (.getFreq domain a1) .invalidParameter 0) := by
  rw [exec, execGetFreq, hd, issue_undisturbed _ _ hi hu]
  exact congrArg _ (engineAlone_raise 0 (accept_running hi _ _ _ _) (undisturbed_settled hu) rfl)

variable {domain : Word} {d : ClockDomain} (hd : domainOf domain = some d) (a1 : Word)
include hd

theorem exec_getFreq_of_domain :
    exec (.getFreq domain a1) s = .next (engineAlone 3 (s.inGetFreq d domain a1)) := by
  rw [exec, execGetFreq, hd, issue_undisturbed _ _ hi hu]
  rfl

theorem exec_getFreq_osc (h : swsOf s.params.regmap (memRead s .clkCfgr) = srcOsc) :
    exec (.getFreq domain a1) s = .next (s.answered (.getFreq domain a1) .ok
      (BitVec.ofNat 32 (domainFreq s.params.regmap d fOsc (memRead s .clkCfgr)))) := by
  rw [exec_getFreq_of_domain hi hu hd]
  exact congrArg _ (engineAlone_freqBody_osc (accept_running hi _ _ _ _) (undisturbed_settled hu) rfl h)

theorem exec_getFreq_pll (h : swsOf s.params.regmap (memRead s .clkCfgr) = srcPll) {sys : Nat}
    (hw : pllFreq s.params.regmap s.regs = .ok sys) :
    exec (.getFreq domain a1) s = .next (s.answered (.getFreq domain a1) .ok
      (BitVec.ofNat 32 (domainFreq s.params.regmap d sys (memRead s .clkCfgr)))) := by
  rw [exec_getFreq_of_domain hi hu hd]
  exact congrArg _ (engineAlone_freqBody_pll_ok (accept_running hi _ _ _ _) (undisturbed_settled hu) rfl h hw)

theorem exec_getFreq_pll_error (h : swsOf s.params.regmap (memRead s .clkCfgr) = srcPll) {f : Fault}
    (hw : pllFreq s.params.regmap s.regs = .error f) :
    exec (.getFreq domain a1) s = .next (recordFault f ((s.inGetFreq d domain a1).atPllRead d)) := by
  rw [exec_getFreq_of_domain hi hu hd]
  exact congrArg _ (engineAlone_freqBody_pll_error (accept_running hi _ _ _ _) (undisturbed_settled hu) rfl h hw)

theorem exec_getFreq_unwired (h : swsOf s.params.regmap (memRead s .clkCfgr) = 0b01
      ∨ swsOf s.params.regmap (memRead s .clkCfgr) = 0b11) :
    exec (.getFreq domain a1) s = .next (s.answered (.getFreq domain a1) .notAvailable 0) := by
  rw [exec_getFreq_of_domain hi hu hd]
  exact congrArg _ (engineAlone_freqBody_unwired (accept_running hi _ _ _ _) (undisturbed_settled hu) rfl h)

/-- With a known source the answer is the domain's frequency as a number: none wraps (R101, R107). -/
theorem exec_getFreq_known {sys : Nat}
    (h : (swsOf s.params.regmap (memRead s .clkCfgr) = 0b00 ∧ sys = 16000000)
      ∨ (swsOf s.params.regmap (memRead s .clkCfgr) = 0b10 ∧ pllFreq s.params.regmap s.regs = .ok sys)) :
    ∃ t, exec (.getFreq domain a1) s = .next t ∧ t.st = .ok
      ∧ t.rv.toNat = domainFreq s.params.regmap d sys (memRead s .clkCfgr) := by
  have hfits : ∀ {sys : Nat}, sys < 2 ^ 32 →
      domainFreq s.params.regmap d sys (memRead s .clkCfgr) % 2 ^ 32
        = domainFreq s.params.regmap d sys (memRead s .clkCfgr) :=
    fun hsys => Nat.mod_eq_of_lt ((domainFreq_le _ _ _ _).trans_lt hsys)
  rcases h with ⟨h, rfl⟩ | ⟨h, hw⟩
  · exact ⟨_, exec_getFreq_osc hi hu hd a1 h, rfl, hfits (by decide)⟩
  · exact ⟨_, exec_getFreq_pll hi hu hd a1 h hw, rfl, hfits (pllFreq_lt hw)⟩

end

/-- A query stopped by the walk is stopped before any response (R103, R196). -/
theorem getFreq_faultedIn (s : State) (d : ClockDomain) (domain a1 : Word) (f : Fault) :
    s.FaultedIn (.getFreq domain a1) f (recordFault f ((s.inGetFreq d domain a1).atPllRead d)) :=
  ⟨rfl, rfl, rfl, rfl, rfl, rfl, rfl, rfl, rfl, rfl⟩

/-- Settles O17: the domain check, then one equation of the command for each source and each outcome of the walk. -/
theorem getFreqAnswersTheLiveClock : Obligations.GetFreqAnswersTheLiveClock := by
  intro s domain a1 hi hu i m c
  refine ⟨fun h => exec_getFreq_of_no_domain hi hu (domainOf_of_gt h) a1, fun d hd => ⟨?osc, ?pll, ?walkFaults, ?unwired⟩⟩
  case osc => exact exec_getFreq_osc hi hu hd a1
  case pll => exact fun sys h hw => exec_getFreq_pll hi hu hd a1 h hw
  case walkFaults =>
    exact fun f h hw => ⟨_, exec_getFreq_pll_error hi hu hd a1 h hw, getFreq_faultedIn s d domain a1 f, rfl, rfl, rfl⟩
  case unwired => exact exec_getFreq_unwired hi hu hd a1

/-- The answers for a timer and for the peripheral clock it is made from, by the factor of R106. -/
theorem getFreq_timer_of_periph {s : State} (hi : s.idle = true) (hu : s.Undisturbed) {per timer : Word}
    {dper dtimer : ClockDomain} (hper : domainOf per = some dper) (htimer : domainOf timer = some dtimer) (a1 a1' : Word)
    {sys : Nat}
    (hsrc : (swsOf s.params.regmap (memRead s .clkCfgr) = 0b00 ∧ sys = 16000000)
      ∨ (swsOf s.params.regmap (memRead s .clkCfgr) = 0b10 ∧ pllFreq s.params.regmap s.regs = .ok sys))
    {pdiv : Nat} (hfreq : domainFreq s.params.regmap dtimer sys (memRead s .clkCfgr)
      = timerFreq (domainFreq s.params.regmap dper sys (memRead s .clkCfgr)) pdiv) :
    ∃ t u, exec (.getFreq per a1) s = .next t ∧ exec (.getFreq timer a1') s = .next u
      ∧ t.st = .ok ∧ u.st = .ok ∧ u.rv.toNat = (if 1 < pdiv then 2 else 1) * t.rv.toNat := by
  obtain ⟨t, ht, htst, htrv⟩ := exec_getFreq_known hi hu hper a1 hsrc
  obtain ⟨u, hux, hust, hurv⟩ := exec_getFreq_known hi hu htimer a1' hsrc
  exact ⟨t, u, ht, hux, htst, hust, by rw [hurv, htrv, hfreq, timerFreq_eq_mul]⟩

/-- Settles O22: `getFreq_timer_of_periph` on each bus. -/
theorem timerClockDoubles : Obligations.TimerClockDoubles := by
  refine ⟨?clocks, one_lt_apbDiv_iff⟩
  case clocks =>
    intro s a1 a1' sys hi hu m c hsrc
    exact ⟨getFreq_timer_of_periph hi hu (dper := .apb1Periph) (dtimer := .apb1Timer) rfl rfl a1 a1' hsrc rfl,
      getFreq_timer_of_periph hi hu (dper := .apb2Periph) (dtimer := .apb2Timer) rfl rfl a1 a1' hsrc rfl⟩

/-- Settles O23: both answers are frequencies that do not wrap, and the core's is the quotient of R104. -/
theorem coreClockIsSystemClockDivided : Obligations.CoreClockIsSystemClockDivided := by
  intro s a1 a1' sys hi hu m c hsrc
  obtain ⟨t, ht, htst, htrv⟩ := exec_getFreq_known hi hu (domain := 0) (d := .system) rfl a1 hsrc
  obtain ⟨u, hux, hust, hurv⟩ := exec_getFreq_known hi hu (domain := 1) (d := .core) rfl a1' hsrc
  exact ⟨t, u, ht, hux, htst, hust, htrv, by rw [hurv, htrv]; rfl⟩

end Sys2Proof.Machine

/-! SUPPORT. A command without a poll ends (R126, R127, R130, R132, R101): each micro-step of its program leads to a response or a
fault, or leaves fewer of them. -/

namespace Sys2Proof.Machine

/-! ## Programs that lead on -/

/-- A micro-step that always hands on to the next, unless it faults: no poll, no end, no read of a frequency query. -/
def Micro.handsOn : Micro → Bool
  | .load _ => true
  | .store _ _ _ => true
  | .barrier => true
  | .checkPllOff => true
  | .setSeq _ => true
  | _ => false

/-- A micro-step that may have to be taken again (R58). -/
def Micro.isPoll : Micro → Bool
  | .poll _ _ _ => true
  | _ => false

/-- A program that leads to a response or a fault and has no poll. -/
structure EndsUnaided (b : List Micro) : Prop where
  ok : bodyOk b = true
  noPoll : ∀ m ∈ b, m.isPoll = false

theorem endsUnaided_done : EndsUnaided [.done] := ⟨rfl, by simp [Micro.isPoll]⟩

theorem endsUnaided_raise (e : Status) : EndsUnaided [.raise e] := ⟨rfl, by simp [Micro.isPoll]⟩

theorem endsUnaided_freqBody (d : ClockDomain) : EndsUnaided (freqBody d) := ⟨rfl, by simp [freqBody, Micro.isPoll]⟩

theorem bodyOk_ne_nil {b : List Micro} (h : bodyOk b = true) : b ≠ [] := by
  rintro rfl
  cases h

/-- A frequency query's first read is followed by its second (R101, R102). -/
theorem bodyOk_freqClk {d : ClockDomain} {rest : List Micro} (h : bodyOk (.freqClk d :: rest) = true) :
    ∃ d' rest', rest = .freqPll d' :: rest' ∧ bodyOk rest' = true := by
  cases rest with
  | nil => cases h
  | cons m rest' =>
    cases m with
    | freqPll d' => exact ⟨d', rest', rfl, h⟩
    | _ => cases h

theorem EndsUnaided.cons {m : Micro} {b : List Micro} (hm : m.handsOn = true) (hb : EndsUnaided b) :
    EndsUnaided (m :: b) := by
  refine ⟨?ok, List.forall_mem_cons.2 ⟨?head, hb.noPoll⟩⟩
  case ok =>
    cases m with
    | load _ | store _ _ _ | barrier | checkPllOff | setSeq _ => exact hb.ok
    | _ => cases hm
  case head =>
    cases m with
    | poll _ _ _ => cases hm
    | _ => rfl

theorem EndsUnaided.tail {m : Micro} {b : List Micro} (h : EndsUnaided (m :: b)) (hb : bodyOk b = true) : EndsUnaided b :=
  ⟨hb, fun k hk => h.noPoll k (List.mem_cons_of_mem m hk)⟩

theorem EndsUnaided.append {a b : List Micro} (ha : ∀ m ∈ a, m.handsOn = true) (hb : EndsUnaided b) :
    EndsUnaided (a ++ b) := by
  induction a with
  | nil => exact hb
  | cons m a ih =>
    obtain ⟨hm, ha⟩ := List.forall_mem_cons.1 ha
    exact (ih ha).cons hm

theorem maskedWrite_handsOn (n : RegName) (mask v : Word) : ∀ m ∈ maskedWrite n mask v, m.handsOn = true := by
  simp [maskedWrite, Micro.handsOn]

theorem doPllConfigure_handsOn (map : Regmap) (w : PllWord) : ∀ m ∈ doPllConfigure map w, m.handsOn = true := by
  refine List.forall_mem_cons.2 ⟨rfl, fun m hm => ?_⟩
  obtain ⟨n, -, hn⟩ := List.mem_flatMap.1 hm
  exact maskedWrite_handsOn _ _ _ m hn

/-! ## The run of such a program -/

/-- A micro-step after which the command still runs leaves a program that ends unaided, and fewer micro-steps. -/
theorem runMicro_endsUnaided {m : Micro} {rest : List Micro} (h : EndsUnaided (m :: rest)) {u : State}
    (hr : (runMicro m rest u).running = true) :
    EndsUnaided (runMicro m rest u).ph ∧ (runMicro m rest u).ph.length ≤ rest.length := by
  have hrest : bodyOk rest = true → EndsUnaided rest ∧ rest.length ≤ rest.length :=
    fun hb => ⟨h.tail hb, Nat.le_refl _⟩
  cases m with
  | load n => exact hrest h.ok
  | store n mask v =>
    rw [show (runMicro (.store n mask v) rest u).ph = rest from memWrite_ph _ _ _ _]
    exact hrest h.ok
  | poll n mask v => exact absurd (h.noPoll _ List.mem_cons_self) (by simp [Micro.isPoll])
  | barrier => exact hrest h.ok
  | checkPllOff =>
    simp only [runMicro] at hr ⊢
    split
    · next hon => rw [if_pos hon, running_of_fault rfl] at hr; cases hr
    · exact hrest h.ok
  | setSeq q => exact hrest h.ok
  | freqClk d =>
    obtain ⟨d', rest', rfl, hb⟩ := bodyOk_freqClk h.ok
    simp only [runMicro, freqClkStep]
    split
    · exact hrest hb
    · split
      · exact ⟨(h.tail hb).tail hb, Nat.le_succ _⟩
      · exact ⟨endsUnaided_raise _, by simp⟩
  | freqPll d =>
    cases hw : pllFreq u.params.regmap u.regs with
    | ok sys =>
      rw [runMicro, freqPllStep_ok hw]
      exact hrest h.ok
    | error f =>
      rw [runMicro, freqPllStep_error hw, running_of_fault rfl] at hr
      cases hr
  | raise e => simp [runMicro, State.running] at hr
  | done => simp [runMicro, State.running] at hr
  | fail f => simp [runMicro, State.running] at hr

/-- While the command runs, what is left of its program ends unaided. -/
abbrev State.WillEnd (u : State) : Prop := u.running = true → EndsUnaided u.ph

theorem engineStep_endsUnaided {u : State} (h : u.WillEnd) (hr' : (engineStep u).running = true) :
    EndsUnaided (engineStep u).ph ∧ (engineStep u).ph.length < u.ph.length := by
  by_cases hr : u.running = true
  · have hb := h hr
    cases hp : u.ph with
    | nil => exact absurd hp (bodyOk_ne_nil hb.ok)
    | cons m rest =>
      rw [hp] at hb
      rw [engineStep_cons hr hp] at hr' ⊢
      obtain ⟨hends, hlen⟩ := runMicro_endsUnaided hb hr'
      exact ⟨hends, Nat.lt_succ_of_le hlen⟩
  · rw [engineStep_of_not_running (by simpa using hr)] at hr'
    exact absurd hr' hr

theorem engineStep_willEnd {u : State} (h : u.WillEnd) : (engineStep u).WillEnd :=
  fun hr => (engineStep_endsUnaided h hr).1

/-- The plant starts no command and clears no fault. -/
theorem running_of_plantStep {q : PlantStep} {u : State} (h : (plantStep q u).running = true) : u.running = true := by
  rcases plantStep_cases q u with ⟨-, e⟩ | ⟨-, -, -, e⟩ | ⟨-, -, e⟩ <;> rw [e] at h
  · exact h
  · rw [running_of_fault rfl] at h; cases h
  · exact h

theorem plantStep_willEnd (q : PlantStep) {u : State} (h : u.WillEnd) : (plantStep q u).WillEnd :=
  fun hr => plantStep_ph q u ▸ h (running_of_plantStep hr)

theorem plantAlone_willEnd {u : State} (h : u.WillEnd) : (plantAlone u).WillEnd :=
  plantAlone_keeps (P := State.WillEnd) (fun q _ => plantStep_willEnd q) h

/-- The engine alone ends such a program within as many rounds as it has micro-steps, whatever the plant does between. -/
theorem engineAlone_ends {n : Nat} {u : State} (h : u.WillEnd) (hn : u.ph.length ≤ n) :
    (engineAlone n u).running = false := by
  induction n generalizing u with
  | zero =>
    by_contra hr
    exact bodyOk_ne_nil (h (by simpa using hr)).ok (List.length_eq_zero_iff.1 (Nat.le_zero.1 hn))
  | succ n ih =>
    cases hr : u.running with
    | false => rwa [engineAlone_of_not_running hr]
    | true =>
      rw [engineAlone_succ hr]
      cases hr' : (engineStep (plantAlone u)).running with
      | false => rwa [engineAlone_of_not_running hr']
      | true =>
        obtain ⟨hends, hlen⟩ := engineStep_endsUnaided (plantAlone_willEnd h) hr'
        rw [plantAlone_ph] at hlen
        exact ih (fun _ => hends) (by omega)

/-- Where a run with nobody but the engine and the plant moving ends: the command is over, or the turns listed are used up
and the engine has gone on alone, from a state with every property the turns keep. -/
theorem runTurns_internal_end {P : State → Prop} (hagenda : ∀ s ts, P s → P { s with agenda := ts })
    (hplant : ∀ q s, P s → P (plantStep q s)) (hengine : ∀ s, P s → P (engineStep s))
    {ts : List Turn} (hi : ts.all Turn.internal = true) {s t : State} (hs : P s) (h : runTurns ts s = .next t) :
    t.running = false ∨ ∃ u, P u ∧ t = engineAlone u.ph.length u := by
  induction ts generalizing s with
  | nil =>
    cases h
    exact .inr ⟨_, hagenda s [] hs, rfl⟩
  | cons tn ts ih =>
    obtain ⟨htn, hts⟩ : tn.internal = true ∧ ts.all Turn.internal = true := by simpa using hi
    cases hr : s.running with
    | false =>
      rw [runTurns_of_not_running hr] at h
      cases h
      exact .inl hr
    | true =>
      have hs' := hagenda s ts hs
      have hturn : ∃ s', turnStep tn { s with agenda := ts } = .next s' ∧ P s' := by
        cases tn with
        | go => exact ⟨_, rfl, hengine _ hs'⟩
        | plant q => exact ⟨_, rfl, hplant q _ hs'⟩
        | _ => cases htn
      obtain ⟨s', hstep, hP⟩ := hturn
      rw [runTurns_cons hr ts hstep] at h
      exact ih hts hP h

/-- Settles O45: the five programs end unaided, along the turns listed and then with the engine alone. -/
theorem commandsWithoutPollEnd : Obligations.CommandsWithoutPollEnd := by
  intro i s t hplant hexec hi
  have hbody : EndsUnaided (programOf i s) := by
    rcases hi with ⟨d, a1, rfl⟩ | ⟨a0, a1, rfl⟩ | ⟨a0, a1, rfl⟩ | ⟨cfg, a1, rfl⟩ | ⟨a0, a1, rfl⟩
    case inl =>
      simp only [programOf]
      split
      · exact endsUnaided_raise _
      · exact endsUnaided_freqBody _
    case inr.inr.inr.inl =>
      simp only [programOf]
      split
      · exact endsUnaided_done.append (doPllConfigure_handsOn _ _)
      · exact endsUnaided_raise _
    all_goals exact endsUnaided_done.append (maskedWrite_handsOn _ _ _)
  obtain ⟨-, hrun⟩ := exec_next hexec
  rcases runTurns_internal_end (P := State.WillEnd) (fun _ _ h => h) (fun q _ => plantStep_willEnd q)
    (fun _ => engineStep_willEnd) hplant (fun _ => hbody) hrun with hended | ⟨u, hu, rfl⟩
  · exact hended
  · exact engineAlone_ends hu (Nat.le_refl _)

end Sys2Proof.Machine

/-! SUPPORT. A masked write by the engine (R53, R56): which bits a write takes, which writes meet no hazard, and what the register
then holds. -/

namespace Sys2Proof.Machine

/-! ## The bits a masked write may name -/

/-- A place apart from every place of a list has no bit of theirs. -/
theorem mask_and_placesMask {pl : Place} {ps : List Place} (h : ∀ pl' ∈ ps, pl.Apart pl') :
    pl.mask &&& placesMask ps pl.reg = 0 := by
  apply BitVec.eq_of_getLsbD_eq
  intro i _
  by_contra hc
  have ht : (pl.mask &&& placesMask ps pl.reg).getLsbD i = true := by simpa using hc
  rw [BitVec.getLsbD_and, Bool.and_eq_true, Place.mask, getLsbD_onesAt, getLsbD_placesMask] at ht
  obtain ⟨hbit, pl', hpl', hr, -, hlo, hhi⟩ := ht
  simp only [Bool.and_eq_true, decide_eq_true_eq] at hbit
  rcases h pl' hpl' with hne | hb | hb
  · exact hne hr.symm
  all_goals omega

/-- The bits of register `n` that `mask` names are all bits a write takes (R53). -/
abbrev Takes (p : Params) (on : Bool) (n : RegName) (mask : Word) : Prop :=
  mask &&& ~~~ takenMask p.regmap on n = 0

theorem takes_iff {p : Params} {on : Bool} {n : RegName} {mask : Word} :
    Takes p on n mask
      ↔ mask &&& roMask p.regmap n = 0 ∧ (on = true → mask &&& pllFieldsMask p.regmap n = 0) := by
  have hor : ∀ a b : Word, a ||| b = 0 ↔ a = 0 ∧ b = 0 := fun a b => BitVec.or_eq_zero_iff
  unfold Takes takenMask
  rw [BitVec.not_not, BitVec.and_or_distrib_left, hor]
  cases on <;> simp

/-- A field of the map that a write takes. -/
theorem takes_fixed {p : Params} (h : mapWf p) {k : FixedField} {on : Bool} (hk : k.taken on) :
    Takes p on (k.reg p.regmap) (k.mask p.regmap) := by
  have happart : ∀ l : List FixedField, k ∉ l →
      ∀ pl ∈ l.map (FixedField.place p.regmap), (k.place p.regmap).Apart pl := by
    intro l hkl pl hpl
    obtain ⟨g, hg, rfl⟩ := List.mem_map.1 hpl
    exact mapWf_apart h fun e => hkl (e ▸ hg)
  exact takes_iff.2 ⟨mask_and_placesMask (happart _ hk.1), fun hon => mask_and_placesMask (happart _ (hk.2 hon))⟩

/-- The five PLL fields are taken while the PLL is off (R53). -/
theorem takes_pllFields {p : Params} (h : mapWf p) (n : RegName) : Takes p false n (pllFieldsMask p.regmap n) := by
  refine takes_iff.2 ⟨?_, nofun⟩
  apply BitVec.eq_of_getLsbD_eq
  intro i h32
  by_contra hc
  have ht : (pllFieldsMask p.regmap n &&& roMask p.regmap n).getLsbD i = true := by simpa using hc
  rw [BitVec.getLsbD_and, Bool.and_eq_true, pllFieldsMask, getLsbD_placesMask] at ht
  obtain ⟨⟨pl, hpl, rfl, -, hlo, hhi⟩, hro⟩ := ht
  obtain ⟨k, hk, rfl⟩ := List.mem_map.1 hpl
  have hne : ∀ k ∈ pllFields, k ∉ [FixedField.oscRdy, .pllRdy, .sws] := by decide
  rw [show (k.place p.regmap).reg = k.reg p.regmap from rfl, mapWf_roMask h k h32 hlo hhi, decide_eq_true_iff] at hro
  exact hne k hk hro

/-- A field that does not settle has no settling bit. -/
theorem mask_and_rwsMask {p : Params} (h : mapWf p) {k : FixedField} (hk : k ∉ [FixedField.vos, .latency]) :
    k.mask p.regmap &&& rwsMask p (k.reg p.regmap) = 0 := by
  apply BitVec.eq_of_getLsbD_eq
  intro i h32
  rw [BitVec.getLsbD_and, k.getLsbD_mask]
  by_cases hbit : k.lo p.regmap ≤ i ∧ i < k.lo p.regmap + k.width
  · rw [mapWf_rwsMask h k h32 hbit.1 hbit.2]
    simp [hk]
  · rcases not_and_or.1 hbit with hc | hc <;> simp [hc]

/-- No bit that a write leaves alone settles. -/
theorem rwsMask_of_untaken {p : Params} (h : mapWf p) {on : Bool} {n : RegName} {i : Nat} (h32 : i < 32)
    (hi : (takenMask p.regmap on n).getLsbD i = false) : (rwsMask p n).getLsbD i = false := by
  have hfield : ∀ l : List FixedField, (∀ k ∈ l, k ∉ [FixedField.vos, .latency]) →
      (placesMask (l.map (FixedField.place p.regmap)) n).getLsbD i = true → (rwsMask p n).getLsbD i = false := by
    intro l hl hb
    obtain ⟨pl, hpl, rfl, -, hlo, hhi⟩ := (getLsbD_placesMask _ _ _).1 hb
    obtain ⟨k, hk, rfl⟩ := List.mem_map.1 hpl
    exact (mapWf_rwsMask h k h32 hlo hhi).trans (decide_eq_false (hl k hk))
  rw [getLsbD_takenMask _ _ _ h32, Bool.not_eq_false', Bool.or_eq_true, Bool.and_eq_true] at hi
  rcases hi with hro | ⟨-, hpll⟩
  · exact hfield [.oscRdy, .pllRdy, .sws] (by decide) hro
  · exact hfield pllFields (by decide) hpll

/-! ## The register after a masked write -/

/-- A masked write of bits a write takes leaves the register with the word written, its settling bits still to show (R30, R53):
the bits not taken are written back as they read. -/
theorem writtenReg_masked {p : Params} (h : mapWf p) {on : Bool} {n : RegName} {mask : Word} (hm : Takes p on n mask)
    {x : Reg} (hx : regWf p n x) (value : Word) :
    writtenReg p on n (merge mask value x.r) x
      = ⟨merge mask value x.r, merge (~~~ rwsMask p n) (merge mask value x.r) x.r⟩ := by
  have huntaken : ∀ i < 32, (takenMask p.regmap on n).getLsbD i = false →
      (merge mask value x.r).getLsbD i = x.r.getLsbD i ∧ x.w.getLsbD i = x.r.getLsbD i := by
    intro i h32 hi
    have hmi : (mask &&& ~~~ takenMask p.regmap on n).getLsbD i = false := by rw [hm]; simp
    rw [BitVec.getLsbD_and, BitVec.getLsbD_not, hi] at hmi
    rw [getLsbD_merge, if_neg (by simpa [h32] using hmi)]
    exact ⟨rfl, (regWf_iff p n x).1 hx i h32 (rwsMask_of_untaken h h32 hi)⟩
  unfold writtenReg
  congr 1
  · apply BitVec.eq_of_getLsbD_eq
    intro i h32
    rw [getLsbD_merge]
    split
    · rfl
    · next hi =>
      obtain ⟨hv, hw⟩ := huntaken i h32 (by simpa using hi)
      rw [hv, hw]
  · apply BitVec.eq_of_getLsbD_eq
    intro i h32
    rw [getLsbD_merge (takenMask p.regmap on n &&& _), getLsbD_merge (~~~ _), BitVec.getLsbD_and]
    cases ht : (takenMask p.regmap on n).getLsbD i with
    | true => rw [Bool.true_and]
    | false =>
      rw [(huntaken i h32 ht).1]
      simp

/-- A write that meets no hazard (R230, R231) and does not switch the PLL off. -/
structure Harmless (p : Params) (n : RegName) (v : Word) (f : RegFile) : Prop where
  hazard : writeHazard p n f (afterWrite p n v f) = none
  pllKept : clearsPll p.regmap f (afterWrite p n v f) = false

section
variable {p : Params} (h : mapWf p) {v : Word} {f : RegFile}
include h

theorem harmless_other {n : RegName} (h1 : n ≠ .clkCr) (h2 : n ≠ .clkCfgr) : Harmless p n v f where
  hazard := by
    rw [afterWrite_of_ne h1]
    exact writeHazard_of_ne h1 h2
  pllKept := by
    rw [← Bool.not_eq_true, clearsPll_afterWrite_iff h]
    exact fun hc => h1 hc.1

/-- A write of `CLK_CR` that writes `PLL_ON` back as it reads, or sets it. -/
theorem harmless_clkCr (hon : pllOnOf p.regmap f.clkCr.r = 1 → pllOnOf p.regmap v = 1) : Harmless p .clkCr v f where
  hazard := writeHazard_clkCr h v f fun hc => absurd ((hon hc.1).symm.trans hc.2.1) (by decide)
  pllKept := by
    rw [← Bool.not_eq_true, clearsPll_afterWrite_iff h]
    exact fun hc => absurd ((hon hc.2.1).symm.trans hc.2.2) (by decide)

/-- A write of `CLK_CFGR` that keeps the prescaler and names the source the mux shows. -/
theorem harmless_clkCfgr (hsw : swOf p.regmap v = swsOf p.regmap f.clkCfgr.r)
    (hhpre : hpreOf p.regmap v = hpreOf p.regmap f.clkCfgr.r) : Harmless p .clkCfgr v f where
  hazard := writeHazard_clkCfgr h v f (fun hc => absurd hsw hc) (fun hc => absurd hhpre hc)
  pllKept := by
    rw [← Bool.not_eq_true, clearsPll_afterWrite_iff h]
    exact fun hc => absurd hc.1 (by decide)

end

theorem afterWrite_of_harmless {p : Params} (h : mapWf p) {n : RegName} {v : Word} {f : RegFile}
    (hv : Harmless p n v f) : afterWrite p n v f = f.set n (writtenReg p (f.pllOn p.regmap) n v (f.get n)) := by
  have hc := hv.pllKept
  rw [clearsPll_afterWrite h] at hc
  unfold afterWrite
  simp [hc]

section
variable {s : State} (h : mapWf s.params) (hwf : s.regs.wf s.params) {n : RegName} {mask value : Word}
  (hm : Takes s.params (s.regs.pllOn s.params.regmap) n mask)
  (hv : s.params.binding = .production → Harmless s.params n (merge mask value (memRead s n)) s.regs)
include h hwf hm hv

/-- In the production binding a masked write stores its word, and shows the bits that do not settle (R53). -/
theorem memWrite_masked (hb : s.params.binding = .production) :
    memWrite .engine n (merge mask value (memRead s n)) s
      = s.stored n (merge mask value (memRead s n))
          ⟨merge mask value (memRead s n),
            merge (~~~ rwsMask s.params n) (merge mask value (memRead s n)) (memRead s n)⟩ := by
  rw [memWrite_of_ok hb (hv hb).hazard, afterWrite_of_harmless h (hv hb)]
  have hx := writtenReg_masked h hm (RegFile.wf_get hwf n) value
  unfold memRead
  rw [hx]
  rfl

/-- In either binding a masked write of bits that do not settle shows at once (R53, R68). -/
theorem memWrite_shown (hset : mask &&& rwsMask s.params n = 0) :
    memWrite .engine n (merge mask value (memRead s n)) s
      = s.stored n (merge mask value (memRead s n))
          ⟨merge mask value (memRead s n), merge mask value (memRead s n)⟩ := by
  cases hb : s.params.binding with
  | test => exact memWrite_of_test hb
  | production => rw [memWrite_masked h hwf hm hv hb, merge_not_of_disjoint hset]

/-- In the production binding a masked write of settling bits is pending after it (R30, R53). -/
theorem memWrite_pending (hset : mask &&& ~~~ rwsMask s.params n = 0) (hb : s.params.binding = .production) :
    memWrite .engine n (merge mask value (memRead s n)) s
      = s.stored n (merge mask value (memRead s n)) ⟨merge mask value (memRead s n), memRead s n⟩ := by
  rw [memWrite_masked h hwf hm hv hb, merge_not_of_subset hset]

end

end Sys2Proof.Machine

/-! SUPPORT. An undisturbed command micro-step by micro-step: the plant with nothing to do (R31), a masked write that shows at
once, and the two commands of `FLASH_ACR` that are one such write (R126, R127). -/

namespace Sys2Proof.Machine

/-! ## A plant with nothing to do -/

/-- No step of the plant is enabled on the register file, and the mux has followed its select (R30, R31). -/
structure RegFile.PlantQuiet (p : Params) (f : RegFile) : Prop where
  osc : oscRdyOf p.regmap f.clkCr.r = 1
  lock : pllOnOf p.regmap f.clkCr.r = 1 → pllRdyOf p.regmap f.clkCr.r = 1
  mux : swsOf p.regmap f.clkCfgr.r = swOf p.regmap f.clkCfgr.r
  settled : ∀ sf, plantCondition p f (.settle sf) = false

theorem bit_ne_zero_iff (b : BitVec 1) : b ≠ 0 ↔ b = 1 := by
  revert b
  decide

theorem bit_ne_one_iff (b : BitVec 1) : b ≠ 1 ↔ b = 0 := by
  revert b
  decide

theorem plantCondition_of_quiet {p : Params} {f : RegFile} (h : f.PlantQuiet p) (q : PlantStep) :
    plantCondition p f q = false := by
  cases q with
  | settle sf => exact h.settled sf
  | oscReady => simp [plantCondition, h.osc]
  | pllLock =>
    rw [← Bool.not_eq_true, plantCondition_pllLock]
    exact fun hc => (bit_ne_zero_iff _).2 (h.lock hc.1) hc.2
  | muxSwitch => simp [plantCondition, h.mux]

theorem settled_and_muxFollowed_iff {s : State} (hb : s.params.binding = .production) (hf : s.fault = none) :
    s.Settled ∧ s.MuxFollowed ↔ s.regs.PlantQuiet s.params := by
  constructor
  · rintro ⟨hs, hmux⟩
    have hoff := plantCondition_of_settled hs hb hf
    refine ⟨(bit_ne_zero_iff _).1 fun h0 => ?_, fun hon => (bit_ne_zero_iff _).1 fun h0 => ?_, hmux, fun sf => hoff _⟩
    · exact absurd ((plantCondition_oscReady _ _).2 h0) (by simp [hoff])
    · exact absurd ((plantCondition_pllLock _ _).2 ⟨hon, h0⟩) (by simp [hoff])
  · intro h
    refine ⟨(settled_iff s).2 fun q _ => ?_, h.mux⟩
    rw [plantEnabled_eq hb hf]
    exact plantCondition_of_quiet h q

/-- A register given one word, as written and as read, has nothing to settle. -/
theorem plantCondition_settle_set {p : Params} {f : RegFile} {sf : SettlingField}
    (h : plantCondition p f (.settle sf) = false) (n : RegName) (v : Word) :
    plantCondition p (f.set n ⟨v, v⟩) (.settle sf) = false := by
  cases hb : SettlingField.bits p sf with
  | none => simp [plantCondition, hb]
  | some nm =>
    obtain ⟨k, m⟩ := nm
    rw [plantCondition_settle hb] at h ⊢
    rw [RegFile.get_set]
    split
    · exact pending_same m v
    · exact h

/-- A register given one word leaves the plant with nothing to do where its status fields do. -/
theorem RegFile.PlantQuiet.set {p : Params} {f : RegFile} (h : f.PlantQuiet p) {n : RegName} {v : Word}
    (hcr : n = .clkCr → oscRdyOf p.regmap v = 1 ∧ (pllOnOf p.regmap v = 1 → pllRdyOf p.regmap v = 1))
    (hcfg : n = .clkCfgr → swsOf p.regmap v = swOf p.regmap v) : (f.set n ⟨v, v⟩).PlantQuiet p := by
  have hsettled : ∀ sf, plantCondition p (f.set n ⟨v, v⟩) (.settle sf) = false :=
    fun sf => plantCondition_settle_set (h.settled sf) n v
  by_cases h1 : n = .clkCr
  · subst h1
    exact ⟨(hcr rfl).1, (hcr rfl).2, h.mux, hsettled⟩
  · by_cases h2 : n = .clkCfgr
    · subst h2
      exact ⟨h.osc, h.lock, hcfg rfl, hsettled⟩
    · have ecr : (f.set n ⟨v, v⟩).clkCr = f.clkCr := RegFile.get_set_of_ne f _ (Ne.symm h1)
      have ecfg : (f.set n ⟨v, v⟩).clkCfgr = f.clkCfgr := RegFile.get_set_of_ne f _ (Ne.symm h2)
      exact ⟨ecr ▸ h.osc, ecr ▸ h.lock, ecfg ▸ h.mux, hsettled⟩

/-! ## In the middle of an undisturbed command -/

/-- A command runs, nobody but the engine moves of itself, the map is well-formed and the registers canonical. -/
structure State.InCommand (u : State) : Prop where
  running : u.running = true
  agenda : u.agenda = []
  quiet : u.params.plantLive = true → u.params.binding = .production → u.regs.PlantQuiet u.params
  map : mapWf u.params
  wf : u.regs.wf u.params

/-- `s` with command `i` just accepted (R12), its micro-steps to come. -/
abbrev State.accepted (s : State) (i : Instr) (body : List Micro) : State :=
  accept (opcodeOf i) (word1Of i) (word0Of i) body s

theorem accepted_inCommand {s : State} (hi : s.idle = true) (hu : s.Undisturbed) (h : mapWf s.params)
    (hwf : s.regs.wf s.params) (i : Instr) (body : List Micro) : (s.accepted i body).InCommand where
  running := accept_running hi _ _ _ _
  agenda := hu.1
  quiet := fun hl hb => (settled_and_muxFollowed_iff hb ((idle_iff s).1 hi).2).1 (hu.2 hl hb)
  map := h
  wf := hwf

theorem State.InCommand.no_fault {u : State} (hc : u.InCommand) : u.fault = none := ((running_iff u).1 hc.running).2

theorem State.InCommand.undisturbed {u : State} (hc : u.InCommand) : u.Undisturbed :=
  ⟨hc.agenda, fun hl hb => (settled_and_muxFollowed_iff hb hc.no_fault).2 (hc.quiet hl hb)⟩

theorem State.InCommand.settled {u : State} (hc : u.InCommand) : u.params.plantLive = true → u.Settled :=
  undisturbed_settled hc.undisturbed

/-- Where the plant first moves and is then quiet, the engine goes on from where it leaves off. -/
theorem engineAlone_after_plant {u u' : State} (hu : plantAlone u = u') (hr : u.running = true) (hc : u'.InCommand)
    (k : Nat) : engineAlone (k + 1) u = engineAlone (k + 1) u' := by
  rw [engineAlone_succ hr, hu, engineAlone_succ hc.running, plantAlone_of_settled hc.settled]

/-- `u` after the engine has read register `n` and written `v` to it, with `rest` to follow (R56). -/
def State.wrote (u : State) (n : RegName) (v : Word) (x : Reg) (rest : List Micro) : State :=
  { u.stored n v x with t := memRead u n, ph := rest }

theorem State.InCommand.wrote {u : State} (hc : u.InCommand) {n : RegName} (v : Word) {y : Word}
    (hq : u.params.plantLive = true → u.params.binding = .production → (u.regs.set n ⟨y, y⟩).PlantQuiet u.params)
    (rest : List Micro) :
    (u.wrote n v ⟨y, y⟩ rest).InCommand where
  running := hc.running
  agenda := hc.agenda
  quiet := hq
  map := hc.map
  wf := RegFile.wf_set hc.wf (regWf_settled _ _ _)

/-- A masked write that shows at once, in the middle of a command (R53, R56). -/
theorem engineAlone_shown {u : State} (hc : u.InCommand) {n : RegName} {mask value : Word} {rest : List Micro}
    (hp : u.ph = maskedWrite n mask value ++ rest) (hm : Takes u.params (u.regs.pllOn u.params.regmap) n mask)
    (hset : mask &&& rwsMask u.params n = 0)
    (hv : u.params.binding = .production → Harmless u.params n (merge mask value (memRead u n)) u.regs) (k : Nat) :
    engineAlone (k + 2) u
      = engineAlone k (u.wrote n (merge mask value (memRead u n))
          ⟨merge mask value (memRead u n), merge mask value (memRead u n)⟩ rest) := by
  rw [engineAlone_maskedWrite k hc.running hc.settled hp]
  exact congrArg _ (memWrite_shown (s := { u with t := memRead u n, ph := rest }) hc.map hc.wf hm hv hset)

/-- A poll whose condition holds hands on (R58). -/
theorem engineAlone_poll {u : State} {n : RegName} {mask v : Word} {rest : List Micro} (hr : u.running = true)
    (hs : u.params.plantLive = true → u.Settled) (hp : u.ph = .poll n mask v :: rest) (hv : memRead u n &&& mask = v)
    (k : Nat) : engineAlone (k + 1) u = engineAlone k { u with ph := rest } :=
  (engineAlone_cons hr hs hp k).trans (congrArg _ (if_pos hv))

/-- The answer of a command that wrote one register and computed nothing (R7). -/
theorem engineAlone_done_wrote {s : State} {i : Instr} {body : List Micro} {n : RegName} {v : Word} {x : Reg} (k : Nat)
    (hc : ((s.accepted i body).wrote n v x [.done]).InCommand) :
    engineAlone (k + 1) ((s.accepted i body).wrote n v x [.done]) = (s.stored n v x).answered i .ok 0 :=
  engineAlone_done k hc.running hc.settled rfl

/-! ## One bit or two, set in one write -/

/-- The mask of a field one bit wide is its bit. -/
theorem FixedField.mask_of_width_one (m : Regmap) {k : FixedField} (hk : k.width = 1) :
    k.mask m = ((1 <<< k.lo m : Nat) : Word) := by
  have hones : k.mask m = (1 : Word) <<< k.lo m := by simp [FixedField.mask, Place.mask, FixedField.place, hk, onesAt]
  exact hones

theorem or_and_eq_zero {a b k : Word} (ha : a &&& k = 0) (hb : b &&& k = 0) : (a ||| b) &&& k = 0 := by
  rw [BitVec.and_comm, BitVec.and_or_distrib_left, BitVec.and_comm k a, BitVec.and_comm k b, ha, hb]
  rfl

theorem takes_or {p : Params} {on : Bool} {n : RegName} {a b : Word} (ha : Takes p on n a) (hb : Takes p on n b) :
    Takes p on n (a ||| b) := or_and_eq_zero ha hb

/-- A command that sets bits of a register, neither settling nor of the clock tree, in one write and answers (R57). -/
theorem issue_orIn {s : State} (hi : s.idle = true) (hu : s.Undisturbed) (h : mapWf s.params) (hwf : s.regs.wf s.params)
    (i : Instr) {n : RegName} {mask v : Word} (h1 : n ≠ .clkCr) (h2 : n ≠ .clkCfgr)
    (hm : Takes s.params (s.regs.pllOn s.params.regmap) n mask) (hset : mask &&& rwsMask s.params n = 0)
    (hv : memRead s n ||| mask = v) :
    issue i (orIn n mask ++ [.done]) s = .next ((s.stored n v ⟨v, v⟩).answered i .ok 0) := by
  have hc := accepted_inCommand hi hu h hwf i (orIn n mask ++ [.done])
  have hrun := engineAlone_shown hc rfl hm hset (fun _ => harmless_other h h1 h2) 1
  rw [issue_undisturbed i _ hi hu]
  rw [merge_same, show memRead (s.accepted i _) n ||| mask = v from hv] at hrun
  exact congrArg _ (hrun.trans (engineAlone_done_wrote 0
    (hc.wrote v (fun hl hb => (hc.quiet hl hb).set (fun e => absurd e h1) (fun e => absurd e h2)) _)))

/-- The enables of `FLASH_ACR` are taken by every write and do not settle (R19). -/
theorem flashEnable_written {p : Params} (h : mapWf p) (on : Bool) {k : FixedField}
    (hk : k ∈ [FixedField.prften, .icen, .dcen]) :
    Takes p on .flashAcr (k.mask p.regmap) ∧ k.mask p.regmap &&& rwsMask p .flashAcr = 0 := by
  have hkind : k ∉ [FixedField.oscRdy, .pllRdy, .sws] ∧ k ∉ pllFields ∧ k ∉ [FixedField.vos, .latency] := by
    revert k
    decide
  have hreg : k.reg p.regmap = .flashAcr := by
    simp only [List.mem_cons, List.not_mem_nil, or_false] at hk
    rcases hk with rfl | rfl | rfl <;> rfl
  obtain ⟨hro, hpll, hset⟩ := hkind
  exact ⟨hreg ▸ takes_fixed h ⟨hro, fun _ => hpll⟩, hreg ▸ mask_and_rwsMask h hset⟩

/-- Settles O27: one write of `ICEN` and `DCEN` together. -/
theorem enableCacheSetsBothEnables : Obligations.EnableCacheSetsBothEnables := by
  intro s a0 a1 hi hu h hwf i m
  obtain ⟨hicen, hicen'⟩ := flashEnable_written h (s.regs.pllOn m) (k := .icen) (by decide)
  obtain ⟨hdcen, hdcen'⟩ := flashEnable_written h (s.regs.pllOn m) (k := .dcen) (by decide)
  refine issue_orIn hi hu h hwf i (by decide) (by decide) (takes_or hicen hdcen) (or_and_eq_zero hicen' hdcen') ?_
  rw [FixedField.mask_of_width_one m (k := .icen) rfl, FixedField.mask_of_width_one m (k := .dcen) rfl,
    ← BitVec.or_assoc]
  rfl

/-- Settles O28: one write of `PRFTEN`. -/
theorem enablePrefetchSetsItsBit : Obligations.EnablePrefetchSetsItsBit := by
  intro s a0 a1 hi hu h hwf i
  obtain ⟨htakes, hset⟩ := flashEnable_written h (s.regs.pllOn s.params.regmap) (k := .prften) (by decide)
  refine issue_orIn hi hu h hwf i (by decide) (by decide) htakes hset ?_
  rw [FixedField.mask_of_width_one s.params.regmap (k := .prften) rfl]
  rfl

end Sys2Proof.Machine

/-! SUPPORT. `PLL_ENABLE` and the lock that answers it (R31, R132); `PLL_WAIT_LOCK` with the flag set and with the
PLL off (R133). -/

namespace Sys2Proof.Machine

/-! ## A one-bit field set -/

@[simp] theorem RegFile.set_set_same (f : RegFile) (n : RegName) (x y : Reg) : (f.set n x).set n y = f.set n y := by
  cases n <;> rfl

/-- A one-bit field that is OR-ed in reads 1. -/
theorem FixedField.get_or_mask {p : Params} (h : mapWf p) {k : FixedField} (hk : k.width = 1) (x : Word) :
    k.get p.regmap (x ||| k.mask p.regmap) = (1 : Word).setWidth k.width := by
  have hput : k.mask p.regmap = k.put p.regmap 1 := k.mask_of_width_one _ hk
  rw [← merge_same]
  exact (congrArg (fun v => k.get p.regmap (merge (k.mask p.regmap) v x)) hput).trans
    (k.get_merge_put _ (mapWf_fits h k))

/-- The other fields of its register read as before. -/
theorem FixedField.get_or_mask_of_ne {p : Params} (h : mapWf p) {k g : FixedField} (hne : k ≠ g)
    (hr : k.reg p.regmap = g.reg p.regmap) (x : Word) : g.get p.regmap (x ||| k.mask p.regmap) = g.get p.regmap x := by
  rw [← merge_same]
  exact g.get_merge_of_disjoint _ (mapWf_masks h hne hr)

/-- A one-bit field that reads 1 already is not changed by OR-ing it in. -/
theorem FixedField.or_mask_of_set {p : Params} (h : mapWf p) {k : FixedField} (hk : k.width = 1) {x : Word}
    (hx : k.get p.regmap x = (1 : Word).setWidth k.width) : x ||| k.mask p.regmap = x := by
  have hput : k.put p.regmap 1 = k.mask p.regmap := (k.mask_of_width_one _ hk).symm
  have hbit : x &&& k.mask p.regmap = k.put p.regmap 1 :=
    (k.and_mask_eq_put_iff _ (mapWf_fits h k) (by rw [hk]; decide)).2 hx
  rw [hput] at hbit
  rw [← merge_same]
  exact merge_of_and_eq (by rw [hbit, BitVec.and_self])

/-- `pll_lock` where `CLK_CR` holds one word. -/
theorem plantEffect_pllLock_set (p : Params) (f : RegFile) (v : Word) :
    plantEffect p (f.set .clkCr ⟨v, v⟩) .pllLock
      = f.set .clkCr ⟨v ||| FixedField.pllRdy.mask p.regmap, v ||| FixedField.pllRdy.mask p.regmap⟩ := by
  have hx : Reg.force ⟨v, v⟩ (FixedField.pllRdy.mask p.regmap) (FixedField.pllRdy.put p.regmap 1)
      = ⟨v ||| FixedField.pllRdy.mask p.regmap, v ||| FixedField.pllRdy.mask p.regmap⟩ := by
    rw [Reg.force_one rfl, FixedField.mask_of_width_one _ rfl]
    rfl
  exact (congrArg (RegFile.set _ .clkCr) hx).trans (f.set_set_same _ _ _)

/-! ## `PLL_ENABLE` -/

/-- Of a quiet plant only `pll_lock` can become enabled by a write of `CLK_CR` that leaves the oscillator ready (R31). -/
theorem eq_pllLock_of_plantCondition {p : Params} {f : RegFile} (hf : f.PlantQuiet p) {v : Word}
    (hosc : oscRdyOf p.regmap v = 1) {q : PlantStep} (hq : plantCondition p (f.set .clkCr ⟨v, v⟩) q = true) :
    q = .pllLock := by
  cases q with
  | pllLock => rfl
  | settle sf => rw [plantCondition_settle_set (hf.settled sf)] at hq; cases hq
  | oscReady => exact absurd hosc ((bit_ne_one_iff _).2 ((plantCondition_oscReady _ _).1 hq))
  | muxSwitch => exact absurd hf.mux ((plantCondition_muxSwitch _ _).1 hq).1

/-- The word `DoPllEnable` writes: `PLL_ON` set, `OSC_RDY` as it read (R132). -/
theorem pllEnable_word {p : Params} (h : mapWf p) (x : Word) :
    oscRdyOf p.regmap (x ||| FixedField.pllOn.mask p.regmap) = oscRdyOf p.regmap x
      ∧ pllOnOf p.regmap (x ||| FixedField.pllOn.mask p.regmap) = 1 :=
  ⟨FixedField.get_or_mask_of_ne h (k := .pllOn) (g := .oscRdy) (by decide) rfl x,
    FixedField.get_or_mask h (k := .pllOn) rfl x⟩

/-- With the oscillator ready and the PLL locked in `CLK_CR` the plant has nothing more to do. -/
theorem RegFile.PlantQuiet.locked {p : Params} (h : mapWf p) {f : RegFile} (hf : f.PlantQuiet p) {v y : Word}
    (hosc : oscRdyOf p.regmap v = 1) (hy : v ||| FixedField.pllRdy.mask p.regmap = y) :
    (f.set .clkCr ⟨y, y⟩).PlantQuiet p := by
  subst hy
  have hosc' := FixedField.get_or_mask_of_ne h (k := .pllRdy) (g := .oscRdy) (by decide) rfl v
  exact hf.set (n := .clkCr) (fun _ => ⟨hosc'.trans hosc, fun _ => FixedField.get_or_mask h (k := .pllRdy) rfl v⟩) nofun

/-- After a write that sets `PLL_ON` a live plant locks the PLL, if it was not locked, and has no more to do (R31). -/
theorem plantAlone_locks {u : State} (hc : u.InCommand) (hl : u.params.plantLive = true)
    (hb : u.params.binding = .production) {v y : Word}
    (hv : memRead u .clkCr ||| FixedField.pllOn.mask u.params.regmap = v)
    (hy : v ||| FixedField.pllRdy.mask u.params.regmap = y) (rest : List Micro) :
    plantAlone (u.wrote .clkCr v ⟨v, v⟩ rest) = u.wrote .clkCr v ⟨y, y⟩ rest
      ∧ (u.wrote .clkCr v ⟨y, y⟩ rest).InCommand := by
  have hquiet := hc.quiet hl hb
  obtain ⟨hosc, hon⟩ := hv ▸ pllEnable_word hc.map (memRead u .clkCr)
  replace hosc := hosc.trans hquiet.osc
  have hlocked : (u.wrote .clkCr v ⟨y, y⟩ rest).InCommand := hc.wrote v (fun _ _ => hquiet.locked hc.map hosc hy) rest
  refine ⟨?_, hlocked⟩
  by_cases hrdy : pllRdyOf u.params.regmap v = 1
  case pos =>
    have hsame : y = v := hy.symm.trans (FixedField.or_mask_of_set hc.map (k := .pllRdy) rfl hrdy)
    rw [hsame] at hlocked ⊢
    exact plantAlone_of_settled hlocked.settled
  case neg =>
    have henabled : ∀ q, plantEnabled (u.wrote .clkCr v ⟨v, v⟩ rest) q
        = plantCondition u.params (u.regs.set .clkCr ⟨v, v⟩) q := plantEnabled_eq hb hc.no_fault
    have hlock : plantCondition u.params (u.regs.set .clkCr ⟨v, v⟩) .pllLock = true :=
      (plantCondition_pllLock _ _).2 ⟨hon, (bit_ne_one_iff _).1 hrdy⟩
    have heff : plantEffect u.params (u.regs.set .clkCr ⟨v, v⟩) .pllLock = u.regs.set .clkCr ⟨y, y⟩ :=
      hy ▸ plantEffect_pllLock_set u.params u.regs v
    refine plantAlone_of_common hl ⟨.pllLock, by simp [plantSteps], (henabled _).trans hlock⟩ (fun q _ he => ?_) rfl
      (hlocked.settled hl)
    have hq := eq_pllLock_of_plantCondition hquiet hosc ((henabled q).symm.trans he)
    subst hq
    exact (plantStep_of_enabled he nofun).trans (congrArg (fun f => { u.wrote .clkCr v ⟨v, v⟩ rest with regs := f }) heff)

/-- The two micro-steps of `DoPllEnable` (R132). -/
theorem engineAlone_pllEnable {u : State} (hc : u.InCommand) {rest : List Micro}
    (hp : u.ph = doPllEnable u.params.regmap ++ rest) {v : Word}
    (hv : memRead u .clkCr ||| FixedField.pllOn.mask u.params.regmap = v) (k : Nat) :
    engineAlone (k + 2) u = engineAlone k (u.wrote .clkCr v ⟨v, v⟩ rest) := by
  have hon : pllOnOf u.params.regmap v = 1 := hv ▸ (pllEnable_word hc.map (memRead u .clkCr)).2
  have hrun := engineAlone_shown hc hp (takes_fixed hc.map (k := .pllOn) ⟨by decide, fun _ => by decide⟩)
    (mask_and_rwsMask hc.map (k := .pllOn) (by decide))
    (fun _ => harmless_clkCr hc.map fun _ => by rw [merge_same, hv]; exact hon) k
  rwa [merge_same, hv] at hrun

/-- Settles O30: the write, and, where the plant is live, the lock before the response. -/
theorem pllEnableSetsPllOn : Obligations.PllEnableSetsPllOn := by
  intro s a0 a1 hi hu h hwf i m v x
  have hon : FixedField.pllOn.mask m = ((1 <<< m.pllOn : Nat) : Word) := FixedField.mask_of_width_one m rfl
  have hrdy : FixedField.pllRdy.mask m = ((1 <<< m.pllRdy : Nat) : Word) := FixedField.mask_of_width_one m rfl
  have hc := accepted_inCommand hi hu h hwf i (doPllEnable m ++ [.done])
  have hv : memRead s .clkCr ||| FixedField.pllOn.mask m = v := by rw [hon]
  have hrun := engineAlone_pllEnable hc rfl hv 1
  rw [show exec i s = issue i (doPllEnable m ++ [.done]) s from rfl, issue_undisturbed i _ hi hu]
  refine congrArg _ (hrun.trans ?_)
  by_cases hlive : s.params.plantLive = true ∧ s.params.binding = .production
  case pos =>
    have hx : v ||| FixedField.pllRdy.mask m = x := by rw [hrdy]; exact (if_pos hlive).symm
    obtain ⟨hplant, hlocked⟩ := plantAlone_locks hc hlive.1 hlive.2 hv hx [.done]
    exact (engineAlone_after_plant hplant hc.running hlocked 0).trans (engineAlone_done_wrote 0 hlocked)
  case neg =>
    have hx : x = v := if_neg hlive
    rw [hx]
    exact engineAlone_done_wrote 0 (hc.wrote v (fun hl hb => absurd ⟨hl, hb⟩ hlive) _)

/-! ## `PLL_WAIT_LOCK` -/

/-- Where the flag is set the poll hands on and the command answers (R58, R133). -/
theorem exec_pllWaitLock_locked {s : State} (hi : s.idle = true) (hu : s.Undisturbed) (h : mapWf s.params)
    (hrdy : pllRdyOf s.params.regmap (memRead s .clkCr) = 1) (a0 a1 : Word) :
    exec (.pllWaitLock a0 a1) s = .next (s.answered (.pllWaitLock a0 a1) .ok 0) := by
  have hpoll : memRead s .clkCr &&& FixedField.pllRdy.mask s.params.regmap = FixedField.pllRdy.put s.params.regmap 1 :=
    (FixedField.and_mask_eq_put_iff _ .pllRdy (mapWf_fits h .pllRdy) (by decide)).2 hrdy
  have hs := undisturbed_settled hu
  rw [exec, execPllWaitLock, issue_undisturbed _ _ hi hu]
  refine congrArg _ ((engineAlone_poll (accept_running hi _ _ _ _) hs rfl hpoll 1).trans ?_)
  exact engineAlone_done 0 (accept_running hi _ _ _ _) hs rfl

/-- `PLL_WAIT_LOCK`, accepted in `s`, stands at its poll with the PLL off and not locked, or a plant step has stopped it; nothing
has been written or answered. -/
structure WaitsWithPllOff (s u : State) : Prop where
  params : u.params = s.params
  st : u.st = s.st
  rv : u.rv = s.rv
  wlog : u.wlog = s.wlog
  busy : u.busy = true
  ph : u.ph = doWaitLock s.params.regmap ++ [.done]
  pllOff : u.regs.rd s.params.regmap .pllOn = 0
  unlocked : u.regs.rd s.params.regmap .pllRdy = 0
  fault : u.fault = none ∨ u.fault = some .flashTiming

section
variable {s u : State} (h : mapWf s.params) (hw : WaitsWithPllOff s u)
include h hw

theorem WaitsWithPllOff.polling : u.Polling ∨ u.fault = some .flashTiming := by
  refine hw.fault.imp_left fun hf => ⟨(running_iff u).2 ⟨hw.busy, hf⟩, ?_⟩
  rw [hw.ph]
  intro hpoll
  have hrdy := (FixedField.and_mask_eq_put_iff _ .pllRdy (mapWf_fits h .pllRdy) (by decide)).1 hpoll
  exact absurd (hw.unlocked.symm.trans hrdy) (show (0 : BitVec 1) ≠ 1 by decide)

theorem WaitsWithPllOff.after_engineStep : WaitsWithPllOff s (engineStep u) := by
  have hstays : engineStep u = u := by
    rcases hw.polling h with hpoll | hf
    · exact engineStep_of_polling hpoll
    · exact engineStep_of_not_running (running_of_fault hf)
  rw [hstays]
  exact hw

/-- A PLL that is off does not lock, whatever the plant does (R31). -/
theorem WaitsWithPllOff.after_plantStep (q : PlantStep) : WaitsWithPllOff s (plantStep q u) := by
  rcases plantStep_cases q u with ⟨-, e⟩ | ⟨-, -, -, e⟩ | ⟨he, -, e⟩ <;> rw [e]
  · exact hw
  · exact ⟨hw.params, hw.st, hw.rv, hw.wlog, hw.busy, hw.ph, hw.pllOff, hw.unlocked, .inr rfl⟩
  · have hlock : q ≠ .pllLock := by
      rintro rfl
      simp only [plantEnabled, Bool.and_eq_true, plantCondition_pllLock, hw.params] at he
      exact absurd (hw.pllOff.symm.trans he.2.1) (show (0 : BitVec 1) ≠ 1 by decide)
    have hfield : q.field ≠ .fixed .pllOn := by
      cases q with
      | settle sf => exact SettlingField.toField_ne (by decide)
      | _ => nofun
    refine ⟨hw.params, hw.st, hw.rv, hw.wlog, hw.busy, hw.ph, ?_, ?_, hw.fault⟩
    · exact hw.params ▸ (rd_plantEffect h hfield u.regs).trans hw.pllOff
    · exact hw.params ▸ (rd_plantEffect_pllRdy h q u.regs).trans ((if_neg hlock).trans hw.unlocked)

end

/-- Settles O31: with the flag set the poll hands on; with the PLL off every turn keeps the command waiting. -/
theorem waitLockWaitsForTheFlag : Obligations.WaitLockWaitsForTheFlag := by
  refine ⟨fun s a0 a1 hi hu h hrdy => exec_pllWaitLock_locked hi hu h hrdy a0 a1, ?off⟩
  case off =>
    intro s t a0 a1 hi hplant _ h hoff hunlocked hexec
    obtain ⟨-, hrun⟩ := exec_next hexec
    have hstart : WaitsWithPllOff s (s.accepted (.pllWaitLock a0 a1) (programOf (.pllWaitLock a0 a1) s)) :=
      ⟨rfl, rfl, rfl, rfl, rfl, rfl, hoff, hunlocked, .inl ((idle_iff s).1 hi).2⟩
    have hend : WaitsWithPllOff s t :=
      runTurns_keeps_internal
        (fun _ _ hw => ⟨hw.params, hw.st, hw.rv, hw.wlog, hw.busy, hw.ph, hw.pllOff, hw.unlocked, hw.fault⟩)
        (fun q _ hw => hw.after_plantStep h q) (fun _ hw => hw.after_engineStep h) hplant
        hstart hrun
    exact ⟨hend.polling h, hend.st, hend.rv, hend.wlog⟩

end Sys2Proof.Machine

/-! SUPPORT. A settling field written and waited for (R30, R56, R58): the write is pending until the plant answers, and the poll ends
when the field reads back. `SET_SCALING` and `SET_LATENCY` are made of it (R121, R124). -/

namespace Sys2Proof.Machine

/-! ## The settling places -/

/-- Two named fields lie at one place or share no bit; of USARTs of the table, several may be at one place (R23, R180). -/
theorem FieldName.place_same_or_apart {p : Params} (h : mapWf p) {q q' : FieldName} {pl pl' : Place}
    (hq : q.place p = some pl) (hq' : q'.place p = some pl') : pl' = pl ∨ pl'.Apart pl := by
  by_cases e : q' = q
  · subst e
    exact .inl (Option.some.inj (hq'.symm.trans hq))
  · cases q with
    | fixed k => cases hq; exact .inr (FieldName.place_apart h hq' e)
    | gpioen j =>
      cases hq
      cases q' with
      | fixed k => cases hq'; exact .inr (mapWf_apart_gpio h k j)
      | gpioen j' => cases hq'; exact .inr (mapWf_apart_gpios h fun hj => e (hj ▸ rfl))
      | usarten id =>
        obtain ⟨x, -, rfl⟩ := Option.map_eq_some_iff.1 hq'
        exact .inr (.inl (by cases hb : x.bus <;> simp [usartPlace, busReg, hb, gpioPlace]))
    | usarten id =>
      obtain ⟨x, hx, rfl⟩ := Option.map_eq_some_iff.1 hq
      cases q' with
      | fixed k =>
        cases hq'
        exact .inr (apart_symm (mapWf_apart_usart h (List.mem_of_find?_eq_some hx) k))
      | gpioen j =>
        cases hq'
        exact .inr (.inl (by cases hb : x.bus <;> simp [usartPlace, busReg, hb, gpioPlace]))
      | usarten id' =>
        obtain ⟨x', -, rfl⟩ := Option.map_eq_some_iff.1 hq'
        by_cases hreg : busReg x'.bus = busReg x.bus
        · by_cases hbit : x'.bit.val = x.bit.val
          · exact .inl (by simp [usartPlace, hreg, hbit])
          · exact .inr (.inr (by simp only [usartPlace]; omega))
        · exact .inr (.inl hreg)

section
variable {p : Params} (h : mapWf p) {sf : SettlingField} {n : RegName} {mask : Word}
  (hbits : SettlingField.bits p sf = some (n, mask))
include hbits

theorem SettlingField.place_of_bits : ∃ pl, sf.toField.place p = some pl ∧ pl.reg = n ∧ pl.mask = mask := by
  obtain ⟨pl, hpl, e⟩ := Option.map_eq_some_iff.1 hbits
  exact ⟨pl, hpl, congrArg Prod.fst e, congrArg Prod.snd e⟩

/-- The settling fields are in the registers of power, latency and gates (R18, R19, R23). -/
theorem SettlingField.reg_ne : n ≠ .clkCr ∧ n ≠ .clkCfgr := by
  obtain ⟨pl, hpl, rfl, -⟩ := SettlingField.place_of_bits hbits
  cases sf with
  | vos => cases hpl; exact ⟨nofun, nofun⟩
  | latency => cases hpl; exact ⟨nofun, nofun⟩
  | gpioen k => cases hpl; exact ⟨nofun, nofun⟩
  | usarten id =>
    obtain ⟨x, -, rfl⟩ := Option.map_eq_some_iff.1 hpl
    cases hb : x.bus <;> simp [usartPlace, busReg, hb]

/-- The bits of a settling field settle (R17). -/
theorem SettlingField.mask_settles : mask &&& ~~~ rwsMask p n = 0 := by
  obtain ⟨pl, hpl, rfl, rfl⟩ := SettlingField.place_of_bits hbits
  refine mask_and_not_placesMask ?_
  simp only [rwsPlaces, List.mem_append, List.mem_cons]
  cases sf with
  | vos => cases hpl; exact .inl (.inl rfl)
  | latency => cases hpl; exact .inl (.inr (.inl rfl))
  | gpioen k => cases hpl; exact .inl (.inr (.inr (List.mem_map_of_mem (List.mem_finRange k))))
  | usarten id =>
    obtain ⟨x, hx, rfl⟩ := Option.map_eq_some_iff.1 hpl
    exact .inr (List.mem_map_of_mem (List.mem_of_find?_eq_some hx))

include h

/-- A settling field is neither read-only nor one of the five PLL fields, so every write takes it (R53). -/
theorem SettlingField.takes (on : Bool) : Takes p on n mask := by
  obtain ⟨pl, hpl, rfl, rfl⟩ := SettlingField.place_of_bits hbits
  have hapart : ∀ l : List FixedField, (∀ k ∈ l, k ∉ [FixedField.vos, .latency]) →
      ∀ pl' ∈ l.map (FixedField.place p.regmap), pl.Apart pl' := by
    intro l hl pl' hpl'
    obtain ⟨k, hk, rfl⟩ := List.mem_map.1 hpl'
    exact FieldName.place_apart h hpl (SettlingField.toField_ne (hl k hk))
  exact takes_iff.2 ⟨mask_and_placesMask (hapart [.oscRdy, .pllRdy, .sws] (by decide)),
    fun _ => mask_and_placesMask (hapart pllFields (by decide))⟩

/-- Another settling field of the register has the same bits, or none of them. -/
theorem SettlingField.mask_same_or_apart {sf' : SettlingField} {mask' : Word}
    (hbits' : SettlingField.bits p sf' = some (n, mask')) : mask' = mask ∨ mask' &&& mask = 0 := by
  obtain ⟨pl, hpl, hr, rfl⟩ := SettlingField.place_of_bits hbits
  obtain ⟨pl', hpl', hr', rfl⟩ := SettlingField.place_of_bits hbits'
  rcases FieldName.place_same_or_apart h hpl hpl' with rfl | hapart
  · exact .inl rfl
  · exact .inr (mask_and_of_apart hapart (hr'.trans hr.symm))

end

/-- Safe is checked where a level or a count settles, and these are in `PWR_CR` and `FLASH_ACR` (R18, R19, R231). -/
theorem reg_of_plantChecked {p : Params} {sf : SettlingField} {n : RegName} {mask : Word}
    (hbits : SettlingField.bits p sf = some (n, mask)) (hc : plantChecked (.settle sf) = true) :
    n = .pwrCr ∨ n = .flashAcr := by
  obtain ⟨pl, hpl, rfl, -⟩ := SettlingField.place_of_bits hbits
  rcases plantChecked_settle hc with rfl | rfl
  · cases hpl; exact .inl rfl
  · cases hpl; exact .inr rfl

/-! ## The write, pending, and the plant's answer -/

/-- Merging in a word that is itself merged with the same mask changes nothing more. -/
theorem merge_merge_left (m v x : Word) : merge m (merge m v x) x = merge m v x := by
  apply BitVec.eq_of_getLsbD_eq
  intro i _
  simp only [getLsbD_merge]
  split <;> rfl

@[simp] theorem memRead_wrote_same (u : State) (n : RegName) (v : Word) (x : Reg) (rest : List Micro) :
    memRead (u.wrote n v x rest) n = x.r := congrArg Reg.r (u.regs.get_set_same n x)

section
variable {u : State} (hc : u.InCommand) {sf : SettlingField} {n : RegName} {mask value v : Word} {rest : List Micro}
  (hbits : SettlingField.bits u.params sf = some (n, mask)) (hv : merge mask value (memRead u n) = v)
include hc hbits hv

/-- In the production binding the field reads as before after the write (R53). -/
theorem engineAlone_pending (hb : u.params.binding = .production) (hp : u.ph = maskedWrite n mask value ++ rest) (k : Nat) :
    engineAlone (k + 2) u = engineAlone k (u.wrote n v ⟨v, memRead u n⟩ rest) := by
  obtain ⟨h1, h2⟩ := SettlingField.reg_ne hbits
  rw [engineAlone_maskedWrite k hc.running hc.settled hp, ← hv]
  exact congrArg _ (memWrite_pending (s := { u with t := memRead u n, ph := rest }) hc.map hc.wf
    (SettlingField.takes hc.map hbits _) (fun _ => harmless_other hc.map h1 h2) (SettlingField.mask_settles hbits) hb)

omit hbits in
/-- In the test binding it reads back at once (R68). -/
theorem engineAlone_stored (hb : u.params.binding = .test) (hp : u.ph = maskedWrite n mask value ++ rest) (k : Nat) :
    engineAlone (k + 2) u = engineAlone k (u.wrote n v ⟨v, v⟩ rest) := by
  rw [engineAlone_maskedWrite k hc.running hc.settled hp, ← hv]
  exact congrArg _ (memWrite_of_test (s := { u with t := memRead u n, ph := rest }) hb)

omit hv in
theorem wrote_inCommand (v : Word) (rest : List Micro) : (u.wrote n v ⟨v, v⟩ rest).InCommand := by
  obtain ⟨h1, h2⟩ := SettlingField.reg_ne hbits
  exact hc.wrote v (fun hl hb => (hc.quiet hl hb).set (fun e => absurd e h1) fun e => absurd e h2) rest

/-- A live plant lets the field settle (R30), where `Safe` allows it (R231). -/
theorem plantAlone_settles (hl : u.params.plantLive = true) (hb : u.params.binding = .production)
    (hsafe : n = .pwrCr ∨ n = .flashAcr → (u.regs.set n ⟨v, v⟩).safe u.params = true) :
    plantAlone (u.wrote n v ⟨v, memRead u n⟩ rest) = u.wrote n v ⟨v, v⟩ rest := by
  obtain ⟨h1, h2⟩ := SettlingField.reg_ne hbits
  have hsame : merge mask v (memRead u n) = v := by rw [← hv, merge_merge_left]
  refine (plantAlone_answers (s1 := u.wrote n v ⟨v, memRead u n⟩ rest) (hc.settled hl) hl rfl rfl h1 h2 rfl hb
    hc.no_fault (fun hne => ?pending) (fun sf' mask' hbits' hpend => ?settles)
    fun _ _ hbits' hck => hsafe (reg_of_plantChecked hbits' hck)).1
  case pending =>
    have hpend : pending mask ⟨v, memRead u n⟩ = true := by
      refine (pending_iff _ _).2 fun e => hne ?_
      rw [← hsame, merge_of_and_eq e]
    have hmem : sf ∈ settlingFields u.params := by
      have hcond : plantCondition u.params (u.regs.set n ⟨v, memRead u n⟩) (.settle sf) = true := by
        rw [plantCondition_settle hbits, RegFile.get_set_same]
        exact hpend
      simpa [plantSteps] using mem_plantSteps hcond
    exact ⟨sf, hmem, mask, hbits, hpend⟩
  case settles =>
    rcases SettlingField.mask_same_or_apart hc.map hbits hbits' with rfl | hapart
    · exact hsame
    · have hkept : v &&& mask' = memRead u n &&& mask' := by
        rw [← hv]
        exact merge_and_of_disjoint _ _ _ _ (by rw [BitVec.and_comm]; exact hapart)
      exact absurd hkept ((pending_iff _ _).1 hpend)

/-- Write and poll, where the plant answers or the field reads the value already: the field reads back and the poll hands on. -/
theorem engineAlone_settles (hval : value &&& mask = value)
    (hp : u.ph = maskedWrite n mask value ++ .poll n mask value :: rest)
    (hans : u.PlantAnswers ∨ memRead u n &&& mask = value)
    (hsafe : u.params.binding = .production → n = .pwrCr ∨ n = .flashAcr → (u.regs.set n ⟨v, v⟩).safe u.params = true)
    (k : Nat) :
    engineAlone (k + 3) u = engineAlone k (u.wrote n v ⟨v, v⟩ rest) ∧ (u.wrote n v ⟨v, v⟩ rest).InCommand := by
  have hshown := wrote_inCommand hc hbits v (.poll n mask value :: rest)
  have hreads : memRead (u.wrote n v ⟨v, v⟩ (.poll n mask value :: rest)) n &&& mask = value := by
    rw [memRead_wrote_same]
    exact (congrArg (· &&& mask) hv.symm).trans ((merge_and_mask _ _ _).trans hval)
  have hwrite : engineAlone (k + 3) u = engineAlone (k + 1) (u.wrote n v ⟨v, v⟩ (.poll n mask value :: rest)) := by
    cases hb : u.params.binding with
    | test => exact engineAlone_stored hc hv hb hp (k + 1)
    | production =>
      rw [engineAlone_pending hc hbits hv hb hp (k + 1)]
      by_cases hread : memRead u n &&& mask = value
      · have hsame : memRead u n = v := by rw [← hv, merge_of_and_eq (hval.trans hread.symm)]
        rw [hsame]
      · have hl : u.params.plantLive = true := (hans.resolve_right hread).resolve_right (by simp [hb])
        exact engineAlone_after_plant (plantAlone_settles hc hbits hv hl hb (hsafe hb)) hc.running hshown k
  exact ⟨hwrite.trans (engineAlone_poll hshown.running hshown.settled rfl hreads k),
    wrote_inCommand hc hbits v rest⟩

/-- Write and poll, where the plant never answers and the field reads another value: the engine stays at the poll (R58). -/
theorem engineAlone_waits (hp : u.ph = maskedWrite n mask value ++ .poll n mask value :: rest)
    (hans : ¬ u.PlantAnswers) (hread : memRead u n &&& mask ≠ value) (k : Nat) :
    engineAlone (k + 2) u = u.wrote n v ⟨v, memRead u n⟩ (.poll n mask value :: rest)
      ∧ (u.wrote n v ⟨v, memRead u n⟩ (.poll n mask value :: rest)).Polling := by
  have hb : u.params.binding = .production := by
    cases hb : u.params.binding with
    | test => exact absurd (.inr hb) hans
    | production => rfl
  have hstill := memRead_wrote_same u n v ⟨v, memRead u n⟩ (.poll n mask value :: rest)
  have hpoll : (u.wrote n v ⟨v, memRead u n⟩ (.poll n mask value :: rest)).Polling :=
    ⟨hc.running, fun e => hread ((congrArg (· &&& mask) hstill.symm).trans e)⟩
  refine ⟨?_, hpoll⟩
  rw [engineAlone_pending hc hbits hv hb hp]
  exact engineAlone_of_stuck (plantAlone_of_settled fun hl => absurd (.inl hl) hans) (engineStep_of_polling hpoll) k

end

/-! ## `SET_SCALING` and `SET_LATENCY` -/

/-- What a poll of a field compares with a value of its width (R58). -/
theorem FixedField.reads_iff {p : Params} (h : mapWf p) (f : FixedField) (b : BitVec f.width) (x : Word) :
    x &&& f.mask p.regmap = f.put p.regmap (b.setWidth 32) ↔ f.get p.regmap x = b := by
  have hfits := mapWf_fits h f
  have hw : f.width ≤ 32 := by omega
  have hlt : (b.setWidth 32).toNat < 2 ^ f.width := by
    rw [BitVec.toNat_setWidth_of_le hw]
    exact b.isLt
  rw [f.and_mask_eq_put_iff _ hfits hlt, BitVec.setWidth_setWidth_of_le b hw, BitVec.setWidth_eq]

/-- A level above 1 is none (R86). -/
theorem levelOf_of_gt {n : Nat} (h : 1 < n) : levelOf n = none := by
  unfold levelOf
  split
  case h_3 => rfl
  all_goals omega

section
variable {s : State} (hi : s.idle = true) (hu : s.Undisturbed)
include hi hu

theorem exec_setScaling_undefined {level : Word} (hlevel : levelOf level.toNat = none) (a1 : Word) :
    exec (.setScaling level a1) s
      = .next (recordFault .undefinedScalingLevel (s.accepted (.setScaling level a1) [.fail .undefinedScalingLevel])) := by
  rw [exec, execSetScaling, hlevel, issue_undisturbed _ _ hi hu]
  exact congrArg _ (engineAlone_fail 0 (accept_running hi _ _ _ _) (undisturbed_settled hu) rfl)

theorem exec_setScaling_level {level : Word} {l : Level} (hlevel : levelOf level.toNat = some l) (a1 : Word) :
    exec (.setScaling level a1) s
      = .next (engineAlone 4 (s.accepted (.setScaling level a1) (doScaling s.params l ++ [.done]))) := by
  rw [exec, execSetScaling, hlevel, issue_undisturbed _ _ hi hu]
  rfl

theorem exec_setLatency_tooLarge {ws : Word} (hws : 15 < ws.toNat) (a1 : Word) :
    exec (.setLatency ws a1) s = .next (s.answered (.setLatency ws a1) .invalidParameter 0) := by
  rw [exec, execSetLatency, if_pos hws, issue_undisturbed _ _ hi hu]
  exact congrArg _ (engineAlone_raise 0 (accept_running hi _ _ _ _) (undisturbed_settled hu) rfl)

theorem exec_setLatency_fits {ws : Word} (hws : ws.toNat ≤ 15) (a1 : Word) :
    exec (.setLatency ws a1) s
      = .next (engineAlone 5 (s.accepted (.setLatency ws a1) (doLatency s.params.regmap ws ++ [.done]))) := by
  rw [exec, execSetLatency, if_neg (by omega), issue_undisturbed _ _ hi hu]
  rfl

end

/-- Settles O25: the level's encoding, then the write and the poll of a settling field. -/
theorem setScalingRaisesVos : Obligations.SetScalingRaisesVos := by
  intro s level a1 hi hu h hwf i m r
  refine ⟨fun hgt => ?undefined, fun enc henc => ?level⟩
  case undefined =>
    exact ⟨_, exec_setScaling_undefined hi hu (levelOf_of_gt hgt) a1, ⟨rfl, rfl, rfl, rfl, rfl, rfl, rfl, rfl, rfl, rfl⟩,
      rfl, rfl, rfl⟩
  case level =>
    obtain ⟨l, hl, rfl⟩ : ∃ l, levelOf level.toNat = some l ∧ vosEnc s.params l = enc := by
      rcases henc with ⟨h0, rfl⟩ | ⟨h1, rfl⟩
      · exact ⟨.low, by rw [h0]; rfl, rfl⟩
      · exact ⟨.high, by rw [h1]; rfl, rfl⟩
    intro v
    have hc := accepted_inCommand hi hu h hwf i (doScaling s.params l ++ [.done])
    have hbits : SettlingField.bits s.params .vos = some (.pwrCr, FixedField.vos.mask m) := rfl
    have hv : merge (FixedField.vos.mask m) (FixedField.vos.put m ((vosEnc s.params l).setWidth 32)) r = v :=
      FixedField.merge_put m .vos (vosEnc s.params l) r
    have hval := FixedField.put_and_mask m .vos (vosEnc s.params l)
    have hreads := FixedField.reads_iff h .vos (vosEnc s.params l) r
    rw [exec_setScaling_level hi hu hl]
    refine ⟨fun hans hsafe => ?answers, fun hans hne => ?waits⟩
    case answers =>
      obtain ⟨hrun, hend⟩ := engineAlone_settles (rest := [.done]) hc hbits hv hval rfl (hans.imp_right hreads.2)
        (fun hb _ => hsafe hb) 1
      exact congrArg _ (hrun.trans (engineAlone_done_wrote 0 hend))
    case waits =>
      obtain ⟨hrun, hpoll⟩ := engineAlone_waits (rest := [.done]) hc hbits hv rfl hans (mt hreads.1 hne) 2
      exact ⟨_, congrArg _ hrun, hpoll, rfl, rfl, rfl, rfl, rfl⟩

/-- Settles O26: the operand as a number of four bits, then the write and the poll of a settling field, and the barrier. -/
theorem setLatencySetsWaitStates : Obligations.SetLatencySetsWaitStates := by
  intro s ws a1 hi hu h hwf i m r v
  refine ⟨fun hgt => exec_setLatency_tooLarge hi hu hgt a1, fun hle => ?fits⟩
  case fits =>
    obtain ⟨b, rfl⟩ : ∃ b : BitVec 4, ws = b.setWidth 32 := ⟨ws.setWidth 4, by bv_omega⟩
    have hb : (b.setWidth 32).toNat = b.toNat := BitVec.toNat_setWidth_of_le (by decide)
    have hc := accepted_inCommand hi hu h hwf i (doLatency m (b.setWidth 32) ++ [.done])
    have hbits : SettlingField.bits s.params .latency = some (.flashAcr, FixedField.latency.mask m) := rfl
    have hv : merge (FixedField.latency.mask m) (FixedField.latency.put m (b.setWidth 32)) r = v :=
      FixedField.merge_put m .latency b r
    have hval := FixedField.put_and_mask m .latency b
    have hreads : r &&& FixedField.latency.mask m = FixedField.latency.put m (b.setWidth 32)
        ↔ (latencyOf m r).toNat = (b.setWidth 32).toNat := by
      rw [hb, BitVec.toNat_inj]
      exact FixedField.reads_iff h .latency b r
    rw [exec_setLatency_fits hi hu hle]
    refine ⟨fun hans hsafe => ?answers, fun hans hne => ?waits⟩
    case answers =>
      obtain ⟨hrun, hend⟩ := engineAlone_settles (rest := [.barrier, .done]) hc hbits hv hval rfl
        (hans.imp_right hreads.2) (fun hb _ => hsafe hb) 2
      have hbarrier := engineAlone_cons (m := .barrier) (rest := [.done]) hend.running hend.settled rfl 1
      exact congrArg _ (hrun.trans (hbarrier.trans
        (engineAlone_done_wrote 0 (wrote_inCommand hc hbits v [.done]))))
    case waits =>
      obtain ⟨hrun, hpoll⟩ := engineAlone_waits (rest := [.barrier, .done]) hc hbits hv rfl hans (mt hreads.1 hne) 3
      exact ⟨_, congrArg _ hrun, hpoll, rfl, rfl, rfl, rfl, rfl, rfl⟩

end Sys2Proof.Machine

/-! SUPPORT. `PLL_CONFIGURE` (R84, R130): its checks in order, one masked write for each register that holds some of the five fields,
and what the registers then read. -/

namespace Sys2Proof.Machine

/-! ## The word of one register -/

/-- A field that is none of the five has no bit among theirs. -/
theorem pllFieldsMask_and_mask {p : Params} (h : mapWf p) {k : FixedField} (hk : k ∉ pllFields) :
    pllFieldsMask p.regmap (k.reg p.regmap) &&& k.mask p.regmap = 0 := by
  rw [BitVec.and_comm]
  refine mask_and_placesMask (pl := k.place p.regmap) fun pl hpl => ?_
  obtain ⟨g, hg, rfl⟩ := List.mem_map.1 hpl
  exact mapWf_apart h fun e => hk (e ▸ hg)

/-- The five PLL fields do not settle (R21). -/
theorem pllFieldsMask_and_rwsMask {p : Params} (h : mapWf p) (n : RegName) :
    pllFieldsMask p.regmap n &&& rwsMask p n = 0 := by
  apply BitVec.eq_of_getLsbD_eq
  intro i h32
  rw [BitVec.getLsbD_and]
  cases hb : (pllFieldsMask p.regmap n).getLsbD i with
  | false => simp
  | true =>
    have hun : (takenMask p.regmap true n).getLsbD i = false := by simp [getLsbD_takenMask _ _ _ h32, hb]
    simp [rwsMask_of_untaken h h32 hun]

/-- In the word `DoPllConfigure` writes every field but the five is as it read (R130). -/
theorem get_pllWordOver {p : Params} (h : mapWf p) (cfg : PllWord) (f : RegFile) {k : FixedField} (hk : k ∉ pllFields) :
    k.get p.regmap (pllWordOver p.regmap cfg f (k.reg p.regmap)) = f.rd p.regmap k :=
  k.get_merge_of_disjoint _ (pllFieldsMask_and_mask h hk)

theorem rd_set_pllWordOver {p : Params} (h : mapWf p) (cfg : PllWord) (f : RegFile) (n : RegName) {k : FixedField}
    (hk : k ∉ pllFields) :
    (f.set n ⟨pllWordOver p.regmap cfg f n, pllWordOver p.regmap cfg f n⟩).rd p.regmap k = f.rd p.regmap k := by
  rw [RegFile.rd_set]
  split
  · next hr => subst hr; exact get_pllWordOver h cfg f hk
  · rfl

section
variable {p : Params} (h : mapWf p) (cfg : PllWord) {f : RegFile} (n : RegName)
include h

/-- With the PLL off, and the mux at rest where `CLK_CFGR` is written, that write meets no hazard (R230). -/
theorem pllWordOver_harmless (hoff : f.pllOn p.regmap = false)
    (hmux : n = .clkCfgr → swsOf p.regmap f.clkCfgr.r = swOf p.regmap f.clkCfgr.r) :
    Harmless p n (pllWordOver p.regmap cfg f n) f := by
  by_cases h1 : n = .clkCr
  · subst h1
    exact harmless_clkCr h fun hon => by simp [RegFile.pllOn, hon] at hoff
  · by_cases h2 : n = .clkCfgr
    · subst h2
      exact harmless_clkCfgr h ((get_pllWordOver h cfg f (k := .sw) (by decide)).trans (hmux rfl).symm)
        (get_pllWordOver h cfg f (k := .hpre) (by decide))
    · exact harmless_other h h1 h2

/-- It leaves the plant with nothing to do. -/
theorem pllWordOver_quiet (hf : f.PlantQuiet p) :
    (f.set n ⟨pllWordOver p.regmap cfg f n, pllWordOver p.regmap cfg f n⟩).PlantQuiet p := by
  have hkept := fun k (hk : k ∉ pllFields) => get_pllWordOver h cfg f hk
  refine hf.set (fun e => ?clkCr) fun e => ?clkCfgr
  case clkCr =>
    subst e
    exact ⟨(hkept .oscRdy (by decide)).trans hf.osc,
      fun hon => (hkept .pllRdy (by decide)).trans (hf.lock ((hkept .pllOn (by decide)).symm.trans hon))⟩
  case clkCfgr =>
    subst e
    exact (hkept .sws (by decide)).trans (hf.mux.trans (hkept .sw (by decide)).symm)

end

/-! ## The writes, register by register -/

/-- The micro-steps of `DoPllConfigure` for some registers (R130). -/
def pllStores (m : Regmap) (cfg : PllWord) (l : List RegName) : List Micro :=
  l.flatMap fun n => maskedWrite n (pllFieldsMask m n) (pllImage m cfg n)

theorem doPllConfigure_eq (m : Regmap) (cfg : PllWord) :
    doPllConfigure m cfg = .checkPllOff :: pllStores m cfg (pllRegs m) := rfl

theorem length_pllStores (m : Regmap) (cfg : PllWord) (l : List RegName) : (pllStores m cfg l).length = 2 * l.length := by
  induction l with
  | nil => rfl
  | cons n l ih =>
    simp only [pllStores, List.flatMap_cons, List.length_append, List.length_cons] at ih ⊢
    rw [ih]
    simp only [maskedWrite, List.length_cons, List.length_nil]
    omega

/-- `u` after the registers `l` have been given the words that `cfg` makes of those of `f`, with `rest` to follow. -/
def State.configured (u : State) (cfg : PllWord) (f : RegFile) (l : List RegName) (t : Word) (rest : List Micro) : State :=
  { u with
    regs := l.foldl (fun g n => g.set n (.settled (pllWordOver u.params.regmap cfg f n))) u.regs
    wlog := u.wlog ++ l.map fun n => (regAddr u.params.regmap n, pllWordOver u.params.regmap cfg f n)
    t := t, ph := rest }

theorem configured_nil {u : State} {rest : List Micro} (hp : u.ph = rest) (cfg : PllWord) (f : RegFile) :
    u.configured cfg f [] u.t rest = u := by
  subst hp
  simp [State.configured]

theorem configured_wrote (u : State) (cfg : PllWord) (f : RegFile) (n : RegName) (l : List RegName) (t : Word)
    (rest rest' : List Micro) :
    let v := pllWordOver u.params.regmap cfg f n
    (u.wrote n v ⟨v, v⟩ rest').configured cfg f l t rest = u.configured cfg f (n :: l) t rest := by
  simp [State.configured, State.wrote, State.stored, Reg.settled]

/-- One write of `DoPllConfigure`: the PLL stays off, and a mux that has followed its select still has. -/
theorem engineAlone_pllStore {u : State} (hc : u.InCommand) {cfg : PllWord} {n : RegName} {v : Word} {rest : List Micro}
    (hv : pllWordOver u.params.regmap cfg u.regs n = v) (hoff : u.regs.pllOn u.params.regmap = false)
    (hmux : n = .clkCfgr → u.MuxFollowed)
    (hp : u.ph = maskedWrite n (pllFieldsMask u.params.regmap n) (pllImage u.params.regmap cfg n) ++ rest) (k : Nat) :
    engineAlone (k + 2) u = engineAlone k (u.wrote n v ⟨v, v⟩ rest)
      ∧ (u.wrote n v ⟨v, v⟩ rest).InCommand
      ∧ (u.wrote n v ⟨v, v⟩ rest).regs.pllOn u.params.regmap = false
      ∧ (u.MuxFollowed → (u.wrote n v ⟨v, v⟩ rest).MuxFollowed) := by
  subst hv
  have hkept := fun q (hq : q ∉ pllFields) => rd_set_pllWordOver hc.map cfg u.regs n hq
  refine ⟨?run, ?inCommand, ?off, fun hm => ?mux⟩
  case run =>
    exact engineAlone_shown hc hp (by rw [hoff]; exact takes_pllFields hc.map n) (pllFieldsMask_and_rwsMask hc.map n)
      (fun _ => pllWordOver_harmless hc.map cfg n hoff hmux) k
  case inCommand => exact hc.wrote _ (fun hl hb => pllWordOver_quiet hc.map cfg n (hc.quiet hl hb)) rest
  case off => exact (congrArg (· == 1) (hkept .pllOn (by decide))).trans hoff
  case mux => exact (hkept .sws (by decide)).trans (hm.trans (hkept .sw (by decide)).symm)

/-- The writes of `DoPllConfigure` to the registers `l`, each once (R130). -/
theorem engineAlone_pllStores (cfg : PllWord) (f : RegFile) (rest : List Micro) (k : Nat) {l : List RegName}
    (hl : l.Nodup) {u : State} (hc : u.InCommand) (hoff : u.regs.pllOn u.params.regmap = false)
    (hmux : .clkCfgr ∈ l → u.MuxFollowed) (hf : ∀ n ∈ l, u.regs.get n = f.get n)
    (hp : u.ph = pllStores u.params.regmap cfg l ++ rest) :
    ∃ t, engineAlone (2 * l.length + k) u = engineAlone k (u.configured cfg f l t rest)
      ∧ (u.configured cfg f l t rest).InCommand := by
  induction l generalizing u with
  | nil =>
    have hsame := configured_nil (u := u) (rest := rest) hp cfg f
    exact ⟨u.t, by rw [hsame, List.length_nil, Nat.mul_zero, Nat.zero_add], hsame.symm ▸ hc⟩
  | cons n l ih =>
    obtain ⟨hn, hl⟩ := List.nodup_cons.1 hl
    have hword : pllWordOver u.params.regmap cfg u.regs n = pllWordOver u.params.regmap cfg f n := by
      rw [pllWordOver, pllWordOver, hf n List.mem_cons_self]
    have hp' : u.ph = maskedWrite n (pllFieldsMask u.params.regmap n) (pllImage u.params.regmap cfg n)
        ++ (pllStores u.params.regmap cfg l ++ rest) := by
      rw [hp, pllStores, List.flatMap_cons, List.append_assoc]
      rfl
    obtain ⟨hrun, hnext, hoff', hmux'⟩ := engineAlone_pllStore hc hword hoff (fun e => hmux (e ▸ List.mem_cons_self)) hp'
      (2 * l.length + k)
    obtain ⟨t, hrun', hend⟩ := ih hl hnext hoff' (fun hmem => hmux' (hmux (List.mem_cons_of_mem n hmem)))
      (fun n' hn' => (RegFile.get_set_of_ne _ _ (ne_of_mem_of_not_mem hn' hn)).trans (hf n' (List.mem_cons_of_mem n hn'))) rfl
    rw [configured_wrote] at hrun' hend
    refine ⟨t, ?_, hend⟩
    rw [← hrun', ← hrun, List.length_cons]
    congr 1
    omega

/-! ## The command -/

/-- A PllWord is valid as R84 says; `M` fits its six bits. -/
theorem pllValid_iff (w : PllWord) :
    pllValid w = true ↔ w.rsv = 0 ∧ 2 ≤ w.m.toNat ∧ 50 ≤ w.n.toNat ∧ w.n.toNat ≤ 432
      ∧ (w.p = 2 ∨ w.p = 4 ∨ w.p = 6 ∨ w.p = 8) := by
  have hm : w.m.toNat ≤ 63 := Nat.le_of_lt_succ w.m.isLt
  simp [pllValid, hm, and_assoc, or_assoc]

section
variable {s : State} (hi : s.idle = true) (hu : s.Undisturbed) (cfg : PllWord) (a1 : Word)
include hi hu

theorem exec_pllConfigure_invalid (hcfg : ¬ pllValid cfg = true) :
    exec (.pllConfigure cfg a1) s = .next (s.answered (.pllConfigure cfg a1) .invalidParameter 0) := by
  rw [exec, execPllConfigure, if_neg hcfg, issue_undisturbed _ _ hi hu]
  exact congrArg _ (engineAlone_raise 0 (accept_running hi _ _ _ _) (undisturbed_settled hu) rfl)

theorem exec_pllConfigure_valid (hcfg : pllValid cfg = true) :
    exec (.pllConfigure cfg a1) s
      = .next (engineAlone (2 * (pllRegs s.params.regmap).length + 1 + 1)
          (s.accepted (.pllConfigure cfg a1) (doPllConfigure s.params.regmap cfg ++ [.done]))) := by
  rw [exec, execPllConfigure, if_pos hcfg, issue_undisturbed _ _ hi hu]
  simp [doPllConfigure_eq, length_pllStores]

/-- A running PLL is found by the first read (R130). -/
theorem exec_pllConfigure_running (hcfg : pllValid cfg = true) (hon : s.regs.pllOn s.params.regmap = true) :
    exec (.pllConfigure cfg a1) s = .next (recordFault .pllReconfigWhileRunning
      (s.accepted (.pllConfigure cfg a1) (doPllConfigure s.params.regmap cfg ++ [.done]))) := by
  rw [exec_pllConfigure_valid hi hu cfg a1 hcfg]
  refine congrArg _ ((engineAlone_cons (accept_running hi _ _ _ _) (undisturbed_settled hu) rfl _).trans ?_)
  refine (congrArg _ (if_pos hon)).trans ?_
  exact engineAlone_of_not_running (running_of_fault rfl) _

theorem exec_pllConfigure_off (h : mapWf s.params) (hwf : s.regs.wf s.params) (hcfg : pllValid cfg = true)
    (hoff : s.regs.pllOn s.params.regmap = false) (hmux : .clkCfgr ∈ pllRegs s.params.regmap → s.MuxFollowed) :
    exec (.pllConfigure cfg a1) s = .next ({ s with
      regs := s.regs.programmed s.params.regmap cfg
      wlog := s.wlog ++ pllWrites s.params.regmap cfg s.regs }.answered (.pllConfigure cfg a1) .ok 0) := by
  rw [exec_pllConfigure_valid hi hu cfg a1 hcfg]
  refine congrArg _ ((engineAlone_cons (accept_running hi _ _ _ _) (undisturbed_settled hu) rfl _).trans ?_)
  refine (congrArg _ (if_neg (ne_true_of_eq_false hoff))).trans ?_
  have hc := accepted_inCommand hi hu h hwf (.pllConfigure cfg a1)
    (pllStores s.params.regmap cfg (pllRegs s.params.regmap) ++ [.done])
  obtain ⟨t, hrun, hend⟩ := engineAlone_pllStores cfg s.regs [.done] 1 (pllRegs_nodup s.params.regmap) hc hoff hmux
    (fun _ _ => rfl) rfl
  exact hrun.trans (engineAlone_done 0 hend.running hend.settled rfl)

end

/-! ## What the registers then hold -/

theorem get_foldl_set (w : RegName → Reg) (l : List RegName) (g : RegFile) (n : RegName) :
    (l.foldl (fun g n => g.set n (w n)) g).get n = if n ∈ l then w n else g.get n := by
  induction l generalizing g with
  | nil => simp
  | cons k l ih =>
    rw [List.foldl_cons, ih, RegFile.get_set]
    by_cases hk : n = k
    · subst hk; simp
    · simp [hk]

theorem get_programmed (m : Regmap) (cfg : PllWord) (f : RegFile) (n : RegName) :
    (f.programmed m cfg).get n = if n ∈ pllRegs m then .settled (pllWordOver m cfg f n) else f.get n :=
  get_foldl_set (fun n => .settled (pllWordOver m cfg f n)) (pllRegs m) f n

/-- The value `DoPllConfigure` gives each of the five fields (R130). -/
def pllValueOf (w : PllWord) : FixedField → Word
  | .pllm => w.m.setWidth 32
  | .plln => w.n.setWidth 32
  | .pllp => pllpEnc w.p
  | .pllq => w.q.setWidth 32
  | .pllsrc => w.src.setWidth 32
  | _ => 0

theorem pllValues_eq (w : PllWord) : pllValues w = pllFields.map fun k => (k, pllValueOf w k) := rfl

/-- A bit of the image of a register is a bit of one of its fields' values (R130). -/
theorem getLsbD_pllImage (m : Regmap) (w : PllWord) (n : RegName) (i : Nat) :
    (pllImage m w n).getLsbD i = true ↔ ∃ k ∈ pllFields, k.reg m = n ∧ (k.put m (pllValueOf w k)).getLsbD i = true := by
  have hfold : ∀ l : List FixedField,
      ((l.map fun k => (k, pllValueOf w k)).foldr
        (fun fv acc => if fv.1.reg m = n then fv.1.put m fv.2 ||| acc else acc) (0 : Word)).getLsbD i = true
        ↔ ∃ k ∈ l, k.reg m = n ∧ (k.put m (pllValueOf w k)).getLsbD i = true := by
    intro l
    induction l with
    | nil => simp
    | cons k l ih =>
      simp only [List.map_cons, List.foldr_cons, List.mem_cons, exists_eq_or_imp]
      split
      · next hr => rw [BitVec.getLsbD_or, Bool.or_eq_true, ih]; simp [hr]
      · next hr => rw [ih]; simp [hr]
  exact hfold pllFields

/-- The values fit their fields where `P` is legal (R84). -/
theorem pllValueOf_lt {w : PllWord} (hp : w.p = 2 ∨ w.p = 4 ∨ w.p = 6 ∨ w.p = 8) {k : FixedField} (hk : k ∈ pllFields) :
    (pllValueOf w k).toNat < 2 ^ k.width := by
  simp only [pllFields, List.mem_cons, List.not_mem_nil, or_false] at hk
  rcases hk with rfl | rfl | rfl | rfl | rfl
  case inr.inr.inl =>
    simp only [pllValueOf]
    rcases hp with e | e | e | e <;> rw [e] <;> decide
  all_goals
    simp only [pllValueOf, FixedField.width]
    rw [BitVec.toNat_setWidth_of_le (by decide)]
    exact BitVec.isLt _

/-- A value that fits its field has no bit outside it. -/
theorem FixedField.lo_le_of_getLsbD_put (m : Regmap) (f : FixedField) {v : Word} {i : Nat} (hv : v.toNat < 2 ^ f.width)
    (hb : (f.put m v).getLsbD i = true) : f.lo m ≤ i ∧ i < f.lo m + f.width := by
  simp only [f.getLsbD_put, Bool.and_eq_true, Bool.not_eq_true', decide_eq_false_iff_not, decide_eq_true_eq] at hb
  obtain ⟨⟨-, hlo⟩, hbit⟩ := hb
  refine ⟨by omega, ?_⟩
  by_contra hhi
  have hz : v.getLsbD (i - f.lo m) = false :=
    Nat.testBit_lt_two_pow (hv.trans_le (Nat.pow_le_pow_right (by decide) (by omega)))
  rw [hz] at hbit
  cases hbit

/-- Each of the five fields reads its value (R130). -/
theorem rd_programmed {p : Params} (h : mapWf p) {cfg : PllWord} (hp : cfg.p = 2 ∨ cfg.p = 4 ∨ cfg.p = 6 ∨ cfg.p = 8)
    (f : RegFile) {k : FixedField} (hk : k ∈ pllFields) :
    (f.programmed p.regmap cfg).rd p.regmap k = (pllValueOf cfg k).setWidth k.width := by
  rw [RegFile.rd, get_programmed, if_pos ((mem_pllRegs _ _).2 ⟨k, hk, rfl⟩),
    ← k.get_merge_put p.regmap (x := 0) (mapWf_fits h k)]
  refine k.get_congr_bits _ fun i h32 hlo hhi => ?_
  simp only [Reg.settled, pllWordOver, getLsbD_merge, mapWf_pllFieldsMask h k h32 hlo hhi, hk, decide_true, if_true,
    k.getLsbD_mask, h32, hlo, hhi, Bool.and_true]
  rw [Bool.eq_iff_iff, getLsbD_pllImage]
  constructor
  · rintro ⟨g, hg, hr, hbit⟩
    obtain ⟨hglo, hghi⟩ := g.lo_le_of_getLsbD_put p.regmap (pllValueOf_lt hp hg) hbit
    by_cases e : g = k
    · exact e ▸ hbit
    · exfalso
      rcases mapWf_apart h e with h1 | h1 | h1
      · exact h1 hr
      all_goals simp only [FixedField.place] at h1; omega
  · exact fun hbit => ⟨k, hk, rfl, hbit⟩

/-- Settles O29: the three ends of the command, and then what `programmed` holds, field by field. -/
theorem pllConfigureWritesFiveFields : Obligations.PllConfigureWritesFiveFields := by
  refine ⟨fun s cfg a1 hi hu h hwf => ?command, fun p cfg f h hp => ?reads⟩
  case command =>
    intro i m valid
    have hvalid : pllValid cfg = true ↔ valid := pllValid_iff cfg
    refine ⟨fun hno => ?invalid, fun hyes hon => ?running, fun hyes hoff hmux => ?off⟩
    case invalid => exact exec_pllConfigure_invalid hi hu cfg a1 (mt hvalid.1 hno)
    case running =>
      exact ⟨_, exec_pllConfigure_running hi hu cfg a1 (hvalid.2 hyes) (beq_iff_eq.2 hon),
        ⟨rfl, rfl, rfl, rfl, rfl, rfl, rfl, rfl, rfl, rfl⟩, rfl, rfl, rfl⟩
    case off =>
      exact exec_pllConfigure_off hi hu cfg a1 h hwf (hvalid.2 hyes)
        (beq_eq_false_iff_ne.2 ((bit_ne_one_iff _).2 hoff)) (fun hmem => hmux.resolve_left (not_not_intro hmem))
  case reads =>
    intro m g
    have hrd := fun k (hk : k ∈ pllFields) => rd_programmed h hp f hk
    have hback : ∀ {w : Nat} (b : BitVec w), w ≤ 32 → (b.setWidth 32).setWidth w = b := fun b hw => by
      rw [BitVec.setWidth_setWidth_of_le b hw, BitVec.setWidth_eq]
    refine ⟨(hrd .pllm (by decide)).trans (hback _ (by decide)), (hrd .plln (by decide)).trans (hback _ (by decide)),
      (hrd .pllq (by decide)).trans (hback _ (by decide)), (hrd .pllsrc (by decide)).trans (hback _ (by decide)), ?pllp,
      fun n => ?others, fun n hn => ?untouched, rfl, ?writes, fun h1 h2 h3 h4 h5 => ?whole⟩
    case pllp =>
      rw [hrd .pllp (by decide)]
      rcases hp with e | e | e | e <;> simp only [pllValueOf, e] <;> decide
    case others =>
      rw [get_programmed]
      split
      · exact merge_and_not_mask _ _ _
      · rfl
    case untouched => rw [get_programmed, if_neg hn]
    case writes =>
      refine List.map_congr_left fun n hn => ?_
      rw [get_programmed, if_pos hn]
      rfl
    case whole =>
      simp only [pllRegs, pllFields, List.map_cons, List.map_nil, FixedField.reg, h1, h2, h3, h4, h5]
      decide

end Sys2Proof.Machine

/-! SUPPORT. `SEQ` along a run (R14, R159): what one micro-step can do to `SEQ`, `PH` and the response, which programs write `SEQ`, and
in what order. -/

namespace Sys2Proof.Machine

/-! ## What a micro-step does to `SEQ` -/

/-- A micro-step that leaves `SEQ` alone and, unless it faults or polls on, hands on to the next. -/
def Micro.passes : Micro → Bool
  | .load _ => true
  | .store _ _ _ => true
  | .poll _ _ _ => true
  | .barrier => true
  | .checkPllOff => true
  | .freqPll _ => true
  | _ => false

/-- Everything the engine's step from `u` to `v` can do to `SEQ`, to what is left of the command, and to the response. -/
inductive SeqMove (u v : State) : Prop
  | stays (hseq : v.seq = u.seq) (hph : v.ph = u.ph) (hbusy : v.busy = u.busy) (hst : v.st = u.st)
  | passes (m : Micro) (rest : List Micro) (hu : u.ph = m :: rest) (hm : m.passes = true) (hseq : v.seq = u.seq)
      (hph : v.ph = rest) (hbusy : v.busy = u.busy) (hst : v.st = u.st)
  | sets (q : SeqState) (rest : List Micro) (hu : u.ph = .setSeq q :: rest) (hseq : v.seq = q) (hph : v.ph = rest)
      (hbusy : v.busy = u.busy) (hst : v.st = u.st)
  | queries (d : ClockDomain) (rest : List Micro) (hu : u.ph = .freqClk d :: rest) (hseq : v.seq = u.seq)
      (hph : v.ph = rest ∨ v.ph = rest.tail ∨ v.ph = [.raise .notAvailable]) (hbusy : v.busy = u.busy)
  | answers (m : Micro) (rest : List Micro) (hu : u.ph = m :: rest) (hm : m = .raise v.st ∨ m = .done ∧ v.st = .ok)
      (hseq : v.seq = u.seq) (hph : v.ph = []) (hbusy : v.busy = false)

theorem runMicro_seqMove {u : State} {m : Micro} {rest : List Micro} (hu : u.ph = m :: rest) :
    SeqMove u (runMicro m rest u) := by
  cases m with
  | load n => exact .passes _ rest hu rfl rfl rfl rfl rfl
  | store n mask v =>
    exact .passes _ rest hu rfl (memWrite_seq _ _ _ _) (memWrite_ph _ _ _ _) (memWrite_busy _ _ _ _) (memWrite_st _ _ _ _)
  | poll n mask v =>
    simp only [runMicro]
    split
    · exact .passes _ rest hu rfl rfl rfl rfl rfl
    · exact .stays rfl rfl rfl rfl
  | barrier => exact .passes _ rest hu rfl rfl rfl rfl rfl
  | checkPllOff =>
    simp only [runMicro]
    split
    · exact .stays rfl rfl rfl rfl
    · exact .passes _ rest hu rfl rfl rfl rfl rfl
  | setSeq q => exact .sets q rest hu rfl rfl rfl rfl
  | freqClk d =>
    simp only [runMicro, freqClkStep]
    split
    · exact .queries d rest hu rfl (.inl rfl) rfl
    · split
      · exact .queries d rest hu rfl (.inr (.inl rfl)) rfl
      · exact .queries d rest hu rfl (.inr (.inr rfl)) rfl
  | freqPll d =>
    simp only [runMicro, freqPllStep]
    split
    · exact .passes _ rest hu rfl rfl rfl rfl rfl
    · exact .stays rfl rfl rfl rfl
  | raise e => exact .answers _ rest hu (.inl rfl) rfl rfl rfl
  | done => exact .answers _ rest hu (.inr ⟨rfl, rfl⟩) rfl rfl rfl
  | fail f => exact .stays rfl rfl rfl rfl

theorem engineStep_seqMove (u : State) : SeqMove u (engineStep u) := by
  cases hr : u.running with
  | false =>
    rw [engineStep_of_not_running hr]
    exact .stays rfl rfl rfl rfl
  | true =>
    cases hu : u.ph with
    | nil =>
      have hstays : engineStep u = u := by simp [engineStep, hu]
      rw [hstays]
      exact .stays rfl rfl rfl rfl
    | cons m rest =>
      rw [engineStep_cons hr hu]
      exact runMicro_seqMove hu

/-! ## Programs that leave `SEQ` alone -/

/-- No micro-step of the program writes `SEQ`. -/
abbrev SetsNoSeq (b : List Micro) : Prop := ∀ q, Micro.setSeq q ∉ b

theorem SetsNoSeq.tail {b : List Micro} (h : SetsNoSeq b) : SetsNoSeq b.tail := fun q hq => h q (List.mem_of_mem_tail hq)

theorem SetsNoSeq.append {a b : List Micro} (ha : ∀ m ∈ a, m.passes = true) (hb : SetsNoSeq b) : SetsNoSeq (a ++ b) := by
  intro q hq
  rcases List.mem_append.1 hq with hq | hq
  · exact absurd (ha _ hq) (by simp [Micro.passes])
  · exact hb q hq

theorem setsNoSeq_raise (e : Status) : SetsNoSeq [.raise e] := by simp [SetsNoSeq]

theorem setsNoSeq_done : SetsNoSeq [.done] := by simp [SetsNoSeq]

theorem maskedWrite_passes (n : RegName) (mask v : Word) : ∀ m ∈ maskedWrite n mask v, m.passes = true := by
  simp [maskedWrite, Micro.passes]

theorem doScaling_passes (p : Params) (l : Level) : ∀ m ∈ doScaling p l, m.passes = true := by
  simp [doScaling, maskedWrite, pollField, Micro.passes]

theorem doLatency_passes (m : Regmap) (ws : Word) : ∀ x ∈ doLatency m ws, x.passes = true := by
  simp [doLatency, maskedWrite, pollField, Micro.passes]

theorem doPllConfigure_passes (m : Regmap) (w : PllWord) : ∀ x ∈ doPllConfigure m w, x.passes = true := by
  refine List.forall_mem_cons.2 ⟨rfl, fun x hx => ?_⟩
  obtain ⟨n, -, hn⟩ := List.mem_flatMap.1 hx
  exact maskedWrite_passes _ _ _ x hn

/-- No program but that of `SEQ_RUN` writes `SEQ` (R120, R184). -/
theorem programOf_setsNoSeq {i : Instr} (hi : ∀ cfg pw, i ≠ .seqRun cfg pw) (s : State) : SetsNoSeq (programOf i s) := by
  cases i with
  | getFreq domain a1 =>
    simp only [programOf]
    split
    · exact setsNoSeq_raise _
    · simp [SetsNoSeq, freqBody]
  | setScaling level a1 =>
    simp only [programOf]
    split
    · simp [SetsNoSeq]
    · exact setsNoSeq_done.append (doScaling_passes _ _)
  | setLatency ws a1 =>
    simp only [programOf]
    split
    · exact setsNoSeq_raise _
    · exact setsNoSeq_done.append (doLatency_passes _ _)
  | enableCache a0 a1 => exact setsNoSeq_done.append (maskedWrite_passes _ _ _)
  | enablePrefetch a0 a1 => exact setsNoSeq_done.append (maskedWrite_passes _ _ _)
  | pllConfigure cfg a1 =>
    simp only [programOf]
    split
    · exact setsNoSeq_done.append (doPllConfigure_passes _ _)
    · exact setsNoSeq_raise _
  | pllEnable a0 a1 => exact setsNoSeq_done.append (maskedWrite_passes _ _ _)
  | pllWaitLock a0 a1 => simp [SetsNoSeq, programOf, doWaitLock, pollField]
  | seqRun cfg pw => exact absurd rfl (hi cfg pw)
  | gateGpio id a1 =>
    simp only [programOf]
    split
    · exact setsNoSeq_raise _
    · simp [SetsNoSeq, gateBody, orIn, maskedWrite]
  | gateUsart id a1 =>
    simp only [programOf]
    split
    · exact setsNoSeq_raise _
    · simp [SetsNoSeq, gateBody, orIn, maskedWrite]

/-- `SEQ` is `q`, and nothing left of the command in progress writes it. -/
structure State.KeepsSeq (q : SeqState) (u : State) : Prop where
  seq : u.seq = q
  ph : SetsNoSeq u.ph

theorem State.KeepsSeq.congr {q : SeqState} {u v : State} (h : u.KeepsSeq q) (hseq : v.seq = u.seq) (hph : v.ph = u.ph) :
    v.KeepsSeq q := ⟨hseq.trans h.seq, hph ▸ h.ph⟩

theorem engineStep_keepsSeq {q : SeqState} {u : State} (h : u.KeepsSeq q) : (engineStep u).KeepsSeq q := by
  have hleft := h.ph
  cases engineStep_seqMove u with
  | stays hseq hph => exact h.congr hseq hph
  | passes m rest hu _ hseq hph =>
    rw [hu] at hleft
    exact ⟨hseq.trans h.seq, hph ▸ hleft.tail⟩
  | sets q' rest hu => exact absurd (hu ▸ List.mem_cons_self) (hleft q')
  | queries d rest hu hseq hph =>
    rw [hu] at hleft
    refine ⟨hseq.trans h.seq, ?_⟩
    rcases hph with e | e | e <;> rw [e]
    · exact hleft.tail
    · exact hleft.tail.tail
    · exact setsNoSeq_raise _
  | answers m rest _ _ hseq hph => exact ⟨hseq.trans h.seq, hph ▸ nofun⟩

/-- Of the other agents' turns only a reset touches `SEQ` and the command in progress. -/
theorem turnStep_seq_ph {tn : Turn} (hgo : tn ≠ .go) (hreset : tn ≠ .reset) {s t : State} (h : turnStep tn s = .next t) :
    t.seq = s.seq ∧ t.ph = s.ph ∧ t.busy = s.busy := by
  cases tn with
  | go => exact absurd rfl hgo
  | plant p => cases h; exact ⟨plantStep_seq _ _, plantStep_ph _ _, plantStep_busy _ _⟩
  | port a =>
    obtain rfl | ⟨n, v, rfl⟩ := portStep_next h
    · exact ⟨rfl, rfl, rfl⟩
    · exact ⟨memWrite_seq _ _ _ _, memWrite_ph _ _ _ _, memWrite_busy _ _ _ _⟩
  | force f v =>
    simp only [turnStep, forceStep] at h
    (repeat' split at h) <;> cases h <;> exact ⟨rfl, rfl, rfl⟩
  | reset => exact absurd rfl hreset

/-- Settles O38: no micro-step of the program writes `SEQ`, and of the other agents' turns only a reset does. -/
theorem onlySeqRunWritesSeq : Obligations.OnlySeqRunWritesSeq := by
  intro i s t hi hreset hexec
  obtain ⟨-, hrun⟩ := exec_next hexec
  have hkept : t.KeepsSeq s.seq := by
    refine runTurns_keeps (P := State.KeepsSeq s.seq) (fun _ _ hu => hu.congr rfl rfl)
      (fun q u hu => hu.congr (plantStep_seq q u) (plantStep_ph q u)) (fun _ hu => engineStep_keepsSeq hu)
      (fun tn htn u v hu ht => ?_) (s := s.accepted i (programOf i s)) ⟨rfl, programOf_setsNoSeq hi s⟩ hrun
    by_cases hgo : tn = .go
    · subst hgo
      cases ht
      exact engineStep_keepsSeq hu
    · obtain ⟨hseq, hph, -⟩ := turnStep_seq_ph hgo (ne_of_mem_of_not_mem htn hreset) ht
      exact hu.congr hseq hph
  exact hkept.seq

/-! ## The states in order -/

theorem seqInOrder_cons {m : Micro} (hm : m.passes = true) (q : SeqState) (b : List Micro) :
    seqInOrder q (m :: b) = seqInOrder q b := by
  cases m with
  | load _ | store _ _ _ | poll _ _ _ | barrier | checkPllOff | freqPll _ => rfl
  | _ => cases hm

theorem seqInOrder_append {a : List Micro} (ha : ∀ m ∈ a, m.passes = true) (q : SeqState) (b : List Micro) :
    seqInOrder q (a ++ b) = seqInOrder q b := by
  induction a with
  | nil => rfl
  | cons m a ih =>
    obtain ⟨hm, ha⟩ := List.forall_mem_cons.1 ha
    rw [List.cons_append, seqInOrder_cons hm, ih ha]

/-- After a frequency query's first read no state is to come (R101). -/
theorem seqInOrder_freqClk (q : SeqState) (d : ClockDomain) (b : List Micro) :
    seqInOrder q (.freqClk d :: b) = true ↔ SetsNoSeq b := by
  simp only [seqInOrder, List.all_eq_true]
  constructor
  · exact fun h q hq => by simpa using h _ hq
  · intro h m hm
    cases m with
    | setSeq q => exact absurd hm (h q)
    | _ => rfl

theorem seqInOrder_of_setsNoSeq (q : SeqState) {b : List Micro} (h : SetsNoSeq b) : seqInOrder q b = true := by
  induction b with
  | nil => rfl
  | cons m b ih =>
    cases m with
    | setSeq q' => exact absurd List.mem_cons_self (h q')
    | freqClk d => exact (seqInOrder_freqClk q d b).2 h.tail
    | _ => exact ih h.tail

/-- The seven transitions, each with its register accesses before its state (R151). -/
theorem seqBody_eq (p : Params) (w : PllWord) (l : Level) (ws : Word) :
    seqBody p w l ws = seqT1 p.regmap ++ (seqT2 p l ++ (seqT3 p.regmap ws ++ (seqT4 p.regmap w
      ++ (seqT5 p.regmap ++ (seqT6 p.regmap ++ [.setSeq .complete, .done]))))) := by
  simp [seqBody, seqT7]

/-- The micro-steps of a transition to `q`: some that leave `SEQ` alone, and then its state (R150). -/
abbrev IsTransition (a : List Micro) (q : SeqState) : Prop :=
  ∃ accesses, (∀ m ∈ accesses, m.passes = true) ∧ a = accesses ++ [.setSeq q]

section
variable (p : Params) (m : Regmap)

theorem seqT1_isTransition : IsTransition (seqT1 m) .oscillatorReady :=
  ⟨_, by simp [pollField, Micro.passes], rfl⟩

theorem seqT2_isTransition (l : Level) : IsTransition (seqT2 p l) .scalingSet := ⟨_, doScaling_passes p l, rfl⟩

theorem seqT3_isTransition (ws : Word) : IsTransition (seqT3 m ws) .latencySet := ⟨_, doLatency_passes m ws, rfl⟩

theorem seqT4_isTransition (w : PllWord) : IsTransition (seqT4 m w) .pllProgrammed := ⟨_, doPllConfigure_passes m w, rfl⟩

theorem seqT5_isTransition : IsTransition (seqT5 m) .pllLocked :=
  ⟨_, by simp [doPllEnable, doWaitLock, orIn, maskedWrite, pollField, Micro.passes], rfl⟩

theorem seqT6_isTransition : IsTransition (seqT6 m) .switched :=
  ⟨_, by simp [maskedWrite, pollField, Micro.passes], rfl⟩

end

theorem seqInOrder_transition {a : List Micro} {q' : SeqState} (ha : IsTransition a q') (q : SeqState) (b : List Micro) :
    seqInOrder q (a ++ b) = (decide ((seqCode q').toNat = (seqCode q).toNat + 1) && seqInOrder q' b) := by
  obtain ⟨accesses, hpass, rfl⟩ := ha
  rw [List.append_assoc, seqInOrder_append hpass]
  rfl

/-- A whole run takes `SEQ` from its first state to its last, one at a time (R14, R151). -/
theorem seqBody_inOrder (p : Params) (w : PllWord) (l : Level) (ws : Word) :
    seqInOrder .uninitialized (seqBody p w l ws) = true := by
  rw [seqBody_eq, seqInOrder_transition (seqT1_isTransition _), seqInOrder_transition (seqT2_isTransition _ _),
    seqInOrder_transition (seqT3_isTransition _ _), seqInOrder_transition (seqT4_isTransition _ _),
    seqInOrder_transition (seqT5_isTransition _), seqInOrder_transition (seqT6_isTransition _)]
  rfl

theorem seqMidway_eq_false {q : SeqState} (h : seqMidway q = false) : q = .uninitialized ∨ q = .complete := by
  revert h
  cases q <;> decide

/-- Every program accepted takes `SEQ` through the states that follow in order (R159). -/
theorem programOf_inOrder {i : Instr} {s : State} (h : (∃ cfg pw, i = .seqRun cfg pw) → seqMidway s.seq = false) :
    seqInOrder s.seq (programOf i s) = true := by
  by_cases hi : ∃ cfg pw, i = .seqRun cfg pw
  · have hends := seqMidway_eq_false (h hi)
    obtain ⟨cfg, pw, rfl⟩ := hi
    simp only [programOf, seqProgram]
    split
    · rfl
    · next hnot =>
      rw [hends.resolve_right hnot]
      split
      · rfl
      · split
        · rfl
        · exact seqBody_inOrder _ _ _ _
  · exact seqInOrder_of_setsNoSeq _ (programOf_setsNoSeq (fun cfg pw e => hi ⟨cfg, pw, e⟩) s)

/-- A micro-step leaves `SEQ` alone or moves it to the next state (R159). -/
theorem engineStep_seq {u : State} (h : u.SeqOk) :
    (engineStep u).seq = u.seq ∨ (seqCode (engineStep u).seq).toNat = (seqCode u.seq).toNat + 1 := by
  cases hr : u.running with
  | false => exact .inl (by rw [engineStep_of_not_running hr])
  | true =>
    have hord := h ((running_iff u).1 hr).1
    cases engineStep_seqMove u with
    | sets q rest hu hseq =>
      rw [hu, seqInOrder, Bool.and_eq_true, decide_eq_true_iff] at hord
      exact .inr (hseq ▸ hord.1)
    | stays hseq => exact .inl hseq
    | passes _ _ _ _ hseq => exact .inl hseq
    | queries _ _ _ hseq => exact .inl hseq
    | answers _ _ _ _ hseq => exact .inl hseq

theorem State.SeqOk.congr {u v : State} (h : u.SeqOk) (hseq : v.seq = u.seq) (hph : v.ph = u.ph) (hbusy : v.busy = u.busy) :
    v.SeqOk := by
  rw [State.SeqOk, hseq, hph, hbusy]
  exact h

theorem engineStep_seqOk {u : State} (h : u.SeqOk) : (engineStep u).SeqOk := by
  cases engineStep_seqMove u with
  | stays hseq hph hbusy => exact h.congr hseq hph hbusy
  | passes m rest hu hm hseq hph hbusy =>
    intro hb
    have hord := h (hbusy ▸ hb)
    rw [hu, seqInOrder_cons hm] at hord
    rw [hseq, hph, hord]
  | sets q rest hu hseq hph hbusy =>
    intro hb
    have hord := h (hbusy ▸ hb)
    rw [hu, seqInOrder, Bool.and_eq_true] at hord
    rw [hseq, hph, hord.2]
  | queries d rest hu _ hph hbusy =>
    intro hb
    have hord := h (hbusy ▸ hb)
    rw [hu, seqInOrder_freqClk] at hord
    apply seqInOrder_of_setsNoSeq
    rcases hph with e | e | e <;> rw [e]
    · exact hord
    · exact hord.tail
    · exact setsNoSeq_raise _
  | answers _ _ _ _ _ _ hbusy =>
    intro hb
    rw [hbusy] at hb
    cases hb

theorem turnStep_seqOk {tn : Turn} {s t : State} (h : s.SeqOk) (ht : turnStep tn s = .next t) : t.SeqOk := by
  by_cases hgo : tn = .go
  · subst hgo
    cases ht
    exact engineStep_seqOk h
  · by_cases hreset : tn = .reset
    · subst hreset
      cases ht
      exact nofun
    · obtain ⟨hseq, hph, hbusy⟩ := turnStep_seq_ph hgo hreset ht
      exact h.congr hseq hph hbusy

/-- Settles O39: one micro-step by its cases, and the induction over a step with one lemma for the moves of each agent. -/
theorem sequencerMovesOneStateAtATime : Obligations.SequencerMovesOneStateAtATime :=
  ⟨fun _ h => engineStep_seq h, fun _ _ hs h =>
    step_keeps (P := State.SeqOk) (fun _ _ hu => hu) (fun _ _ hu => hu)
      (fun q u hu => hu.congr (plantStep_seq q u) (plantStep_ph q u) (plantStep_busy q u))
      (fun _ hu => engineStep_seqOk hu) (fun _ _ _ hu ht => turnStep_seqOk hu ht)
      (fun _ _ _ _ hmid _ => programOf_inOrder hmid) (fun _ _ _ _ _ _ _ => rfl) hs h⟩

end Sys2Proof.Machine

/-! SUPPORT. `SEQ_RUN` before its first transition and after its last: it answers `OK` only at the end of a whole run (R160), and its
checks in order (R151, R193). -/

namespace Sys2Proof.Machine

/-! ## The one-shot -/

/-- From state `q` on, the program answers `OK` only with `SEQ` at its last state (R160). -/
def spentWhenDone (q : SeqState) : List Micro → Bool
  | [] => true
  | .done :: _ => decide (q = .complete)
  | .raise e :: _ => decide (e ≠ .ok)
  | .setSeq q' :: rest => spentWhenDone q' rest
  | .freqClk _ :: _ => false
  | .load _ :: rest => spentWhenDone q rest
  | .store _ _ _ :: rest => spentWhenDone q rest
  | .poll _ _ _ :: rest => spentWhenDone q rest
  | .barrier :: rest => spentWhenDone q rest
  | .checkPllOff :: rest => spentWhenDone q rest
  | .freqPll _ :: rest => spentWhenDone q rest
  | .fail _ :: _ => true

theorem spentWhenDone_cons {m : Micro} (hm : m.passes = true) (q : SeqState) (b : List Micro) :
    spentWhenDone q (m :: b) = spentWhenDone q b := by
  cases m with
  | load _ | store _ _ _ | poll _ _ _ | barrier | checkPllOff | freqPll _ => rfl
  | _ => cases hm

theorem spentWhenDone_transition {a : List Micro} {q' : SeqState} (ha : IsTransition a q') (q : SeqState)
    (b : List Micro) : spentWhenDone q (a ++ b) = spentWhenDone q' b := by
  obtain ⟨accesses, hpass, rfl⟩ := ha
  induction accesses with
  | nil => rfl
  | cons m accesses ih =>
    obtain ⟨hm, hpass⟩ := List.forall_mem_cons.1 hpass
    exact (spentWhenDone_cons hm q _).trans (ih hpass)

/-- Whatever `SEQ_RUN` finds, its program answers `OK` only at the end of a whole run (R151, R158). -/
theorem seqProgram_spentWhenDone (cfg : PllWord) (pw : PowerWord) (s : State) :
    spentWhenDone s.seq (seqProgram cfg pw s) = true := by
  unfold seqProgram
  split
  · rfl
  · split
    · rfl
    · split
      · rfl
      · rw [seqBody_eq, spentWhenDone_transition (seqT1_isTransition _), spentWhenDone_transition (seqT2_isTransition _ _),
          spentWhenDone_transition (seqT3_isTransition _ _), spentWhenDone_transition (seqT4_isTransition _ _),
          spentWhenDone_transition (seqT5_isTransition _), spentWhenDone_transition (seqT6_isTransition _)]
        rfl

/-- A `SEQ_RUN` in progress will answer `OK` with the Sequencer spent only, and one that is over has. -/
structure State.SpendsSeq (u : State) : Prop where
  inProgress : u.busy = true → spentWhenDone u.seq u.ph = true
  answered : u.busy = false → u.st = .ok → u.seq = .complete

theorem State.SpendsSeq.congr {u v : State} (h : u.SpendsSeq) (hseq : v.seq = u.seq) (hph : v.ph = u.ph)
    (hbusy : v.busy = u.busy) (hst : v.st = u.st) : v.SpendsSeq := by
  constructor
  · rw [hseq, hph, hbusy]; exact h.inProgress
  · rw [hseq, hbusy, hst]; exact h.answered

theorem engineStep_spendsSeq {u : State} (h : u.SpendsSeq) : (engineStep u).SpendsSeq := by
  cases hr : u.running with
  | false => rwa [engineStep_of_not_running hr]
  | true =>
    have hb := ((running_iff u).1 hr).1
    have hleft := h.inProgress hb
    cases engineStep_seqMove u with
    | stays hseq hph hbusy hst => exact h.congr hseq hph hbusy hst
    | passes m rest hu hm hseq hph hbusy =>
      rw [hu, spentWhenDone_cons hm] at hleft
      exact ⟨fun _ => by rw [hseq, hph, hleft], fun hn => absurd ((hbusy.trans hb).symm.trans hn) (by decide)⟩
    | sets q rest hu hseq hph hbusy =>
      rw [hu] at hleft
      exact ⟨fun _ => by rw [hseq, hph]; exact hleft, fun hn => absurd ((hbusy.trans hb).symm.trans hn) (by decide)⟩
    | queries d rest hu => rw [hu] at hleft; cases hleft
    | answers m rest hu hm hseq hph hbusy =>
      refine ⟨fun hy => absurd (hbusy.symm.trans hy) (by decide), fun _ hok => ?_⟩
      rw [hu] at hleft
      rcases hm with rfl | ⟨rfl, -⟩
      · exact absurd hok (of_decide_eq_true hleft)
      · exact hseq.trans (of_decide_eq_true hleft)

/-- A `SEQ_RUN` that answers `OK` with nobody but the plant beside it has spent the Sequencer (R160). -/
theorem seqRun_ok_spends {s t : State} {cfg : PllWord} {pw : PowerWord} (hplant : s.PlantOnly)
    (h : exec (.seqRun cfg pw) s = .next t) : t.SpendsSeq := by
  obtain ⟨-, hrun⟩ := exec_next h
  exact runTurns_keeps_internal (P := State.SpendsSeq) (fun _ _ hu => hu.congr rfl rfl rfl rfl)
    (fun q u hu => hu.congr (plantStep_seq q u) (plantStep_ph q u) (plantStep_busy q u) (plantStep_st q u))
    (fun _ hu => engineStep_spendsSeq hu) hplant
    (s := s.accepted (.seqRun cfg pw) (seqProgram cfg pw s)) ⟨fun _ => seqProgram_spentWhenDone cfg pw s, nofun⟩ hrun

/-! ## The checks before the first transition -/

theorem powerValid_iff (w : PowerWord) : powerValid w = true ↔ w.rsv = 0 ∧ w.ws.toNat ≤ 15 := by
  simp [powerValid]

/-- Outside its middle states the Sequencer accepts `SEQ_RUN` and runs what its checks leave. -/
theorem exec_seqRun {s : State} (hi : s.idle = true) (ha : s.agenda = []) (cfg : PllWord) (pw : PowerWord)
    {body : List Micro} (hmid : seqMidway s.seq = false) (hbody : seqProgram cfg pw s = body) :
    exec (.seqRun cfg pw) s = .next (engineAlone body.length (s.accepted (.seqRun cfg pw) body)) := by
  subst hbody
  rw [exec_eq_issue _ _ fun _ _ => hmid]
  exact issueWord_undisturbed hi ha _ _ _ _

section
variable {s : State} (hi : s.idle = true) (hu : s.Undisturbed) (cfg : PllWord) (pw : PowerWord)
include hi hu

theorem exec_seqRun_raises {e : Status} (hmid : seqMidway s.seq = false) (hbody : seqProgram cfg pw s = [.raise e]) :
    exec (.seqRun cfg pw) s = .next (s.answered (.seqRun cfg pw) e 0) := by
  rw [exec_seqRun hi hu.1 cfg pw hmid hbody]
  exact congrArg _ (engineAlone_raise 0 (accept_running hi _ _ _ _) (undisturbed_settled hu) rfl)

/-- A spent Sequencer looks at no operand (R151, R160). -/
theorem exec_seqRun_spent (hseq : s.seq = .complete) :
    exec (.seqRun cfg pw) s = .next (s.answered (.seqRun cfg pw) .alreadyInitialized 0) :=
  exec_seqRun_raises hi hu cfg pw (by rw [hseq]; rfl) (if_pos hseq)

theorem exec_seqRun_invalid (hseq : s.seq = .uninitialized) (hno : ¬ (pllValid cfg ∧ powerValid pw)) :
    exec (.seqRun cfg pw) s = .next (s.answered (.seqRun cfg pw) .invalidParameter 0) :=
  exec_seqRun_raises hi hu cfg pw (by rw [hseq]; rfl) (by rw [seqProgram, if_neg (by simp [hseq]), if_pos hno])

theorem exec_seqRun_undefined (hseq : s.seq = .uninitialized) (hyes : pllValid cfg ∧ powerValid pw)
    (hlevel : levelOf pw.level.toNat = none) :
    exec (.seqRun cfg pw) s
      = .next (recordFault .undefinedScalingLevel (s.accepted (.seqRun cfg pw) [.fail .undefinedScalingLevel])) := by
  have hbody : seqProgram cfg pw s = [.fail .undefinedScalingLevel] := by
    rw [seqProgram, if_neg (by simp [hseq]), if_neg (not_not_intro hyes), hlevel]
  rw [exec_seqRun hi hu.1 cfg pw (by rw [hseq]; rfl) hbody]
  exact congrArg _ (engineAlone_fail 0 (accept_running hi _ _ _ _) (undisturbed_settled hu) rfl)

end

/-- Settles O34: the checks in order, each a program of one micro-step. -/
theorem seqRunChecksInOrder : Obligations.SeqRunChecksInOrder := by
  intro s cfg pw hi hu i valid
  have hvalid : (pllValid cfg ∧ powerValid pw) ↔ valid := and_congr (pllValid_iff cfg) (powerValid_iff pw)
  refine ⟨exec_seqRun_spent hi hu cfg pw, fun hseq hno => exec_seqRun_invalid hi hu cfg pw hseq (mt hvalid.1 hno),
    fun hseq hyes hlevel => ?undefined, fun h0 h7 => ?midway⟩
  case undefined =>
    exact ⟨_, exec_seqRun_undefined hi hu cfg pw hseq (hvalid.2 hyes) (levelOf_of_gt hlevel),
      ⟨rfl, rfl, rfl, rfl, rfl, rfl, rfl, rfl, rfl, rfl⟩, rfl, rfl, rfl⟩
  case midway =>
    have hmid : seqMidway s.seq = true := by simp [seqMidway, h0, h7]
    exact if_pos (by rw [hi, hmid]; rfl)

/-- Settles O35: what is left of the command answers `OK` at its last state only, and at that state it is rejected. -/
theorem sequencerIsOneShot : Obligations.SequencerIsOneShot :=
  ⟨fun _ _ _ _ hplant hexec hbusy _ hok => (seqRun_ok_spends hplant hexec).answered hbusy hok,
    fun _ cfg pw hi hu hseq => exec_seqRun_spent hi hu cfg pw hseq⟩

end Sys2Proof.Machine

/-! SUPPORT. An undisturbed command followed from point to point (R56, R58, R60): where it stands, and what each of the
Sequencer's accesses and transitions leads to (R152 to R158). -/

namespace Sys2Proof.Machine

/-! ## Where a command stands -/

/-- `s` in the middle of command `i`: `SEQ` is `q`, the registers are `f`, `WLOG` is `log`, the word read last is `t`, and `ph` is
left to do. -/
def State.during (s : State) (i : Instr) (q : SeqState) (f : RegFile) (log : List (Word × Word)) (t : Word)
    (ph : List Micro) : State :=
  { s.accepted i ph with seq := q, regs := f, wlog := log, t := t }

/-- Command `i`, accepted in `s` with nobody else moving but a live plant in answer, comes to a point where `SEQ` is `q`, the
registers are `f`, `WLOG` is `log` and `ph` is left to do; and it ends where the engine ends from there. -/
def State.Reaches (s : State) (i : Instr) (q : SeqState) (f : RegFile) (log : List (Word × Word)) (ph : List Micro) : Prop :=
  ∃ t, (s.during i q f log t ph).InCommand
    ∧ exec i s = .next (engineAlone ph.length (s.during i q f log t ph))

/-- `SEQ_RUN` stands before its first transition once it is accepted (R151). -/
theorem reaches_start {s : State} (hi : s.idle = true) (hu : s.Undisturbed) (h : mapWf s.params) (hwf : s.regs.wf s.params)
    {cfg : PllWord} {pw : PowerWord} {body : List Micro} (hmid : seqMidway s.seq = false)
    (hbody : seqProgram cfg pw s = body) : s.Reaches (.seqRun cfg pw) s.seq s.regs s.wlog body :=
  ⟨0, accepted_inCommand hi hu h hwf (.seqRun cfg pw) body, exec_seqRun hi hu.1 cfg pw hmid hbody⟩

section
variable {s : State} {i : Instr} {q : SeqState} {f : RegFile} {log : List (Word × Word)} {rest : List Micro}

/-- A point from which the engine goes on to another, in the middle of the command too. -/
theorem State.Reaches.step {ph ph' : List Micro} {q' : SeqState} {f' : RegFile} {log' : List (Word × Word)}
    (h : s.Reaches i q f log ph)
    (hstep : ∀ t, (s.during i q f log t ph).InCommand → ∃ t', (s.during i q' f' log' t' ph').InCommand
      ∧ engineAlone ph.length (s.during i q f log t ph) = engineAlone ph'.length (s.during i q' f' log' t' ph')) :
    s.Reaches i q' f' log' ph' := by
  obtain ⟨t, hc, hrun⟩ := h
  obtain ⟨t', hc', hgo⟩ := hstep t hc
  exact ⟨t', hc', hrun.trans (congrArg _ hgo)⟩

/-- What is left to do may be replaced while the registers are untouched. -/
theorem during_inCommand {ph ph' : List Micro} {t t' : Word} {q' : SeqState} {log' : List (Word × Word)}
    (hc : (s.during i q f log t ph).InCommand) : (s.during i q' f log' t' ph').InCommand :=
  ⟨hc.running, hc.agenda, hc.quiet, hc.map, hc.wf⟩

theorem State.Reaches.poll {n : RegName} {mask v : Word} (h : s.Reaches i q f log (.poll n mask v :: rest))
    (hv : (f.get n).r &&& mask = v) : s.Reaches i q f log rest :=
  h.step fun t hc => ⟨t, during_inCommand hc, engineAlone_poll hc.running hc.settled rfl hv _⟩

theorem State.Reaches.barrier (h : s.Reaches i q f log (.barrier :: rest)) : s.Reaches i q f log rest :=
  h.step fun t hc => ⟨t, during_inCommand hc, engineAlone_cons hc.running hc.settled rfl _⟩

theorem State.Reaches.setSeq {q' : SeqState} (h : s.Reaches i q f log (.setSeq q' :: rest)) : s.Reaches i q' f log rest :=
  h.step fun t hc => ⟨t, during_inCommand hc, engineAlone_cons hc.running hc.settled rfl _⟩

/-- The command answers with what it has come to (R7). -/
theorem State.Reaches.done (h : s.Reaches i q f log [.done]) :
    exec i s = .next ({ s with regs := f, seq := q, wlog := log }.answered i .ok 0) := by
  obtain ⟨t, hc, hrun⟩ := h
  exact hrun.trans (congrArg _ (engineAlone_done 0 hc.running hc.settled rfl))

/-- A running PLL is found by the read that opens `DoPllConfigure` (R130, R155). -/
theorem State.Reaches.checkPllOff_running (h : s.Reaches i q f log (.checkPllOff :: rest))
    (hon : f.pllOn s.params.regmap = true) :
    ∃ t, exec i s = .next (recordFault .pllReconfigWhileRunning (s.during i q f log t (.checkPllOff :: rest))) := by
  obtain ⟨t, hc, hrun⟩ := h
  refine ⟨t, hrun.trans (congrArg _ ((engineAlone_cons hc.running hc.settled rfl _).trans ?_))⟩
  exact (congrArg _ (if_pos hon)).trans (engineAlone_of_not_running (running_of_fault rfl) _)

theorem State.Reaches.checkPllOff (h : s.Reaches i q f log (.checkPllOff :: rest))
    (hoff : f.pllOn s.params.regmap = false) : s.Reaches i q f log rest :=
  h.step fun t hc => ⟨t, during_inCommand hc, (engineAlone_cons hc.running hc.settled rfl _).trans
    (congrArg _ (if_neg (ne_true_of_eq_false hoff)))⟩

/-- A settling field written and waited for, where the plant answers (R30, R56, R58). -/
theorem State.Reaches.settles {sf : SettlingField} {n : RegName} {mask value v : Word}
    (h : s.Reaches i q f log (maskedWrite n mask value ++ .poll n mask value :: rest))
    (hbits : SettlingField.bits s.params sf = some (n, mask)) (hval : value &&& mask = value)
    (hv : merge mask value (f.get n).r = v) (hans : s.PlantAnswers)
    (hsafe : s.params.binding = .production → (f.set n ⟨v, v⟩).safe s.params = true) :
    s.Reaches i q (f.set n ⟨v, v⟩) (log ++ [(regAddr s.params.regmap n, v)]) rest := by
  refine h.step fun t hc => ?_
  obtain ⟨hrun, hend⟩ := engineAlone_settles hc hbits hv hval rfl (.inl hans) (fun hb _ => hsafe hb) rest.length
  exact ⟨_, hend, hrun⟩

end

/-! ## The transitions up to the PLL -/

section
variable {s : State} {i : Instr} {q : SeqState} {f : RegFile} {log : List (Word × Word)} {rest : List Micro}

/-- T1: the oscillator is ready (R152). -/
theorem State.Reaches.oscillatorReady (h : s.Reaches i q f log (seqT1 s.params.regmap ++ rest)) (hmap : mapWf s.params)
    (hosc : oscRdyOf s.params.regmap f.clkCr.r = 1) : s.Reaches i .oscillatorReady f log rest :=
  (h.poll ((FixedField.reads_iff hmap .oscRdy 1 _).2 hosc)).setSeq

/-- T2: the level is written and shown (R153). -/
theorem State.Reaches.scalingSet {l : Level} {v : Word} (h : s.Reaches i q f log (seqT2 s.params l ++ rest))
    (hv : merge (FixedField.vos.mask s.params.regmap)
      (FixedField.vos.put s.params.regmap ((vosEnc s.params l).setWidth 32)) f.pwrCr.r = v)
    (hans : s.PlantAnswers) (hsafe : s.params.binding = .production → (f.set .pwrCr ⟨v, v⟩).safe s.params = true) :
    s.Reaches i .scalingSet (f.set .pwrCr ⟨v, v⟩) (log ++ [(s.params.regmap.pwrCrAddr, v)]) rest :=
  (State.Reaches.settles (sf := .vos) (rest := .setSeq .scalingSet :: rest) h rfl
    (FixedField.put_and_mask _ .vos _) hv hans hsafe).setSeq

/-- T3: the count is written and shown, and the barrier passed (R154). -/
theorem State.Reaches.latencySet {b : BitVec 4} {v : Word}
    (h : s.Reaches i q f log (seqT3 s.params.regmap (b.setWidth 32) ++ rest))
    (hv : merge (FixedField.latency.mask s.params.regmap)
      (FixedField.latency.put s.params.regmap (b.setWidth 32)) f.flashAcr.r = v)
    (hans : s.PlantAnswers) (hsafe : s.params.binding = .production → (f.set .flashAcr ⟨v, v⟩).safe s.params = true) :
    s.Reaches i .latencySet (f.set .flashAcr ⟨v, v⟩) (log ++ [(s.params.regmap.flashAcrAddr, v)]) rest :=
  (State.Reaches.settles (sf := .latency) (rest := .barrier :: .setSeq .latencySet :: rest) h rfl
    (FixedField.put_and_mask _ .latency _) hv hans hsafe).barrier.setSeq

end

end Sys2Proof.Machine

/-! SUPPORT. The PLL programmed, locked and selected in the middle of a command (R31, R155 to R157). -/

namespace Sys2Proof.Machine

/-! ## The mux -/

/-- A write of `CLK_CFGR` that keeps the prescaler and selects a locked PLL meets no hazard (R230). -/
theorem harmless_selectPll {p : Params} (h : mapWf p) {v : Word} {f : RegFile} (hsw : swOf p.regmap v = srcPll)
    (hrdy : pllRdyOf p.regmap f.clkCr.r = 1) (hhpre : hpreOf p.regmap v = hpreOf p.regmap f.clkCfgr.r) :
    Harmless p .clkCfgr v f where
  hazard := writeHazard_clkCfgr h v f (fun _ => (selectable_iff _ _ _).2 (.inr ⟨hsw, hrdy⟩)) (fun hc => absurd hhpre hc)
  pllKept := by
    rw [← Bool.not_eq_true, clearsPll_afterWrite_iff h]
    exact fun hc => absurd hc.1 (by decide)

/-- `SW` with the PLL named in a word of `CLK_CFGR`: it reads so, and the prescaler reads as before (R157). -/
theorem selectPll_word {p : Params} (h : mapWf p) {x v : Word}
    (hv : merge (FixedField.sw.mask p.regmap) (FixedField.sw.put p.regmap (srcPll.setWidth 32)) x = v) :
    swOf p.regmap v = srcPll ∧ hpreOf p.regmap v = hpreOf p.regmap x := by
  subst hv
  exact ⟨FixedField.sw.get_merge_put _ (mapWf_fits h .sw),
    FixedField.hpre.get_merge_of_disjoint _ (mapWf_masks h (f := .sw) (g := .hpre) (by decide) rfl)⟩

/-- `SWS` shown as the PLL in a word of `CLK_CFGR`: it reads so, and the select reads as before (R31). -/
theorem confirmPll_word {p : Params} (h : mapWf p) {v y : Word}
    (hy : merge (FixedField.sws.mask p.regmap) (FixedField.sws.put p.regmap (srcPll.setWidth 32)) v = y) :
    swsOf p.regmap y = srcPll ∧ swOf p.regmap y = swOf p.regmap v := by
  subst hy
  exact ⟨FixedField.sws.get_merge_put _ (mapWf_fits h .sws),
    FixedField.sw.get_merge_of_disjoint _ (mapWf_masks h (f := .sws) (g := .sw) (by decide) rfl)⟩

/-- `mux_switch` where `CLK_CFGR` holds one word that selects the PLL (R31). -/
theorem plantEffect_muxSwitch_set {p : Params} (f : RegFile) {v y : Word} (hsw : swOf p.regmap v = srcPll)
    (hy : merge (FixedField.sws.mask p.regmap) (FixedField.sws.put p.regmap (srcPll.setWidth 32)) v = y) :
    plantEffect p (f.set .clkCfgr ⟨v, v⟩) .muxSwitch = f.set .clkCfgr ⟨y, y⟩ := by
  subst hy
  rw [← hsw]
  exact f.set_set_same .clkCfgr _ _

/-- Of a quiet plant only `mux_switch` can become enabled by a write of `CLK_CFGR` (R31). -/
theorem eq_muxSwitch_of_plantCondition {p : Params} {f : RegFile} (hf : f.PlantQuiet p) {v : Word} {q : PlantStep}
    (hq : plantCondition p (f.set .clkCfgr ⟨v, v⟩) q = true) : q = .muxSwitch := by
  cases q with
  | muxSwitch => rfl
  | settle sf => rw [plantCondition_settle_set (hf.settled sf)] at hq; cases hq
  | oscReady => exact absurd hf.osc ((bit_ne_one_iff _).2 ((plantCondition_oscReady _ _).1 hq))
  | pllLock =>
    obtain ⟨hon, hrdy⟩ := (plantCondition_pllLock _ _).1 hq
    exact absurd (hf.lock hon) ((bit_ne_one_iff _).2 hrdy)

/-- After a write that selects the locked PLL a live plant switches the mux, if it showed another source, and has no more to do
(R31), where `Safe` allows it (R231). -/
theorem plantAlone_switches {u : State} (hc : u.InCommand) (hl : u.params.plantLive = true)
    (hb : u.params.binding = .production) (hrdy : pllRdyOf u.params.regmap u.regs.clkCr.r = 1) {v y : Word}
    (hsw : swOf u.params.regmap v = srcPll)
    (hy : merge (FixedField.sws.mask u.params.regmap) (FixedField.sws.put u.params.regmap (srcPll.setWidth 32)) v = y)
    (hsafe : (u.regs.set .clkCfgr ⟨y, y⟩).safe u.params = true) (rest : List Micro) :
    plantAlone (u.wrote .clkCfgr v ⟨v, v⟩ rest) = u.wrote .clkCfgr v ⟨y, y⟩ rest
      ∧ (u.wrote .clkCfgr v ⟨y, y⟩ rest).InCommand := by
  have hquiet := hc.quiet hl hb
  obtain ⟨hsws, hkept⟩ := confirmPll_word hc.map hy
  have hswitched : (u.wrote .clkCfgr v ⟨y, y⟩ rest).InCommand :=
    hc.wrote v (fun _ _ => hquiet.set (n := .clkCfgr) nofun fun _ => hsws.trans (hkept.trans hsw).symm) rest
  refine ⟨?_, hswitched⟩
  by_cases hshown : swsOf u.params.regmap v = srcPll
  case pos =>
    have hbits := (FixedField.reads_iff hc.map .sws srcPll v).2 hshown
    have hput := FixedField.put_and_mask u.params.regmap .sws srcPll
    have hsame : y = v := hy.symm.trans (merge_of_and_eq (hput.trans hbits.symm))
    rw [hsame] at hswitched ⊢
    exact plantAlone_of_settled hswitched.settled
  case neg =>
    have henabled : ∀ q, plantEnabled (u.wrote .clkCfgr v ⟨v, v⟩ rest) q
        = plantCondition u.params (u.regs.set .clkCfgr ⟨v, v⟩) q := plantEnabled_eq hb hc.no_fault
    have hswitch : plantCondition u.params (u.regs.set .clkCfgr ⟨v, v⟩) .muxSwitch = true :=
      (plantCondition_muxSwitch _ _).2 ⟨fun e => hshown (e.trans hsw), (selectable_iff _ _ _).2 (.inr ⟨hsw, hrdy⟩)⟩
    have heff := plantEffect_muxSwitch_set u.regs hsw hy
    refine plantAlone_of_common hl ⟨.muxSwitch, by simp [plantSteps], (henabled _).trans hswitch⟩ (fun q _ he => ?_) rfl
      (hswitched.settled hl)
    have hq := eq_muxSwitch_of_plantCondition hquiet ((henabled q).symm.trans he)
    subst hq
    exact (plantStep_of_enabled he fun _ => (congrArg (RegFile.safe u.params) heff).trans hsafe).trans
      (congrArg (fun f => { u.wrote .clkCfgr v ⟨v, v⟩ rest with regs := f }) heff)

/-- The two micro-steps that select the PLL (R157). -/
theorem engineAlone_selectPll {u : State} (hc : u.InCommand) {rest : List Micro}
    (hp : u.ph = maskedWrite .clkCfgr (FixedField.sw.mask u.params.regmap)
      (FixedField.sw.put u.params.regmap (srcPll.setWidth 32)) ++ rest)
    (hrdy : pllRdyOf u.params.regmap u.regs.clkCr.r = 1) {v : Word}
    (hv : merge (FixedField.sw.mask u.params.regmap) (FixedField.sw.put u.params.regmap (srcPll.setWidth 32))
      (memRead u .clkCfgr) = v) (k : Nat) :
    engineAlone (k + 2) u = engineAlone k (u.wrote .clkCfgr v ⟨v, v⟩ rest) := by
  obtain ⟨hsw, hhpre⟩ := selectPll_word hc.map hv
  subst hv
  exact engineAlone_shown hc hp (takes_fixed hc.map (k := .sw) ⟨by decide, fun _ => by decide⟩)
    (mask_and_rwsMask hc.map (k := .sw) (by decide)) (fun _ => harmless_selectPll hc.map hsw hrdy hhpre) k

/-! ## The transitions from the PLL on -/

section
variable {s : State} {i : Instr} {q : SeqState} {f : RegFile} {log : List (Word × Word)} {rest : List Micro}

/-- A live plant has nothing to do where the command stands. -/
theorem State.Reaches.quiet {ph : List Micro} (h : s.Reaches i q f log ph) (hl : s.params.plantLive = true)
    (hb : s.params.binding = .production) : f.PlantQuiet s.params := by
  obtain ⟨t, hc, -⟩ := h
  exact hc.quiet hl hb

theorem State.Reaches.map {ph : List Micro} (h : s.Reaches i q f log ph) : mapWf s.params := by
  obtain ⟨t, hc, -⟩ := h
  exact hc.map

/-- T4: the PLL is off, and its five fields are written (R155). -/
theorem State.Reaches.pllProgrammed {cfg : PllWord} (h : s.Reaches i q f log (seqT4 s.params.regmap cfg ++ rest))
    (hoff : f.pllOn s.params.regmap = false)
    (hmux : swsOf s.params.regmap f.clkCfgr.r = swOf s.params.regmap f.clkCfgr.r) :
    s.Reaches i .pllProgrammed (f.programmed s.params.regmap cfg) (log ++ pllWrites s.params.regmap cfg f) rest := by
  rw [seqT4, doPllConfigure_eq, List.append_assoc] at h
  have hwrites : s.Reaches i q (f.programmed s.params.regmap cfg) (log ++ pllWrites s.params.regmap cfg f)
      (.setSeq .pllProgrammed :: rest) := by
    refine State.Reaches.step (h.checkPllOff hoff) fun t hc => ?_
    obtain ⟨t', hrun, hend⟩ := engineAlone_pllStores cfg f (.setSeq .pllProgrammed :: rest) (rest.length + 1)
      (pllRegs_nodup s.params.regmap) hc hoff (fun _ => hmux) (fun _ _ => rfl) rfl
    refine ⟨t', hend, Eq.trans (congrArg (engineAlone · _) ?_) hrun⟩
    exact List.length_append.trans (congrArg (· + (rest.length + 1)) (length_pllStores _ _ _))
  exact hwrites.setSeq

/-- T5: `PLL_ON` is written, the PLL locks, and the poll finds it locked (R156). -/
theorem State.Reaches.pllLocked (h : s.Reaches i q f log (seqT5 s.params.regmap ++ rest))
    (hl : s.params.plantLive = true) (hb : s.params.binding = .production) {v y : Word}
    (hv : f.clkCr.r ||| FixedField.pllOn.mask s.params.regmap = v)
    (hy : v ||| FixedField.pllRdy.mask s.params.regmap = y) :
    s.Reaches i .pllLocked (f.set .clkCr ⟨y, y⟩) (log ++ [(s.params.regmap.clkCrAddr, v)]) rest := by
  have hrdy : pllRdyOf s.params.regmap y = 1 := hy ▸ FixedField.get_or_mask h.map (k := .pllRdy) rfl v
  have hlocks : s.Reaches i q (f.set .clkCr ⟨y, y⟩) (log ++ [(s.params.regmap.clkCrAddr, v)])
      (doWaitLock s.params.regmap ++ .setSeq .pllLocked :: rest) := by
    refine h.step fun t hc => ?_
    have hrun := engineAlone_pllEnable hc rfl hv (rest.length + 2)
    obtain ⟨hplant, hlocked⟩ := plantAlone_locks hc hl hb hv hy (doWaitLock s.params.regmap ++ .setSeq .pllLocked :: rest)
    exact ⟨_, hlocked, hrun.trans (engineAlone_after_plant hplant hc.running hlocked _)⟩
  exact (hlocks.poll ((FixedField.reads_iff h.map .pllRdy 1 y).2 hrdy)).setSeq

/-- T6: the PLL is selected, the mux switches, and the poll finds the PLL in use (R157). -/
theorem State.Reaches.switched (h : s.Reaches i q f log (seqT6 s.params.regmap ++ rest))
    (hl : s.params.plantLive = true) (hb : s.params.binding = .production) {v y : Word}
    (hrdy : pllRdyOf s.params.regmap f.clkCr.r = 1)
    (hv : merge (FixedField.sw.mask s.params.regmap) (FixedField.sw.put s.params.regmap (srcPll.setWidth 32))
      f.clkCfgr.r = v)
    (hy : merge (FixedField.sws.mask s.params.regmap) (FixedField.sws.put s.params.regmap (srcPll.setWidth 32)) v = y)
    (hsafe : (f.set .clkCfgr ⟨y, y⟩).safe s.params = true) :
    s.Reaches i .switched (f.set .clkCfgr ⟨y, y⟩) (log ++ [(s.params.regmap.clkCfgrAddr, v)]) rest := by
  have hsws : swsOf s.params.regmap y = srcPll := (confirmPll_word h.map hy).1
  have hswitches : s.Reaches i q (f.set .clkCfgr ⟨y, y⟩) (log ++ [(s.params.regmap.clkCfgrAddr, v)])
      (pollField s.params.regmap .sws (srcPll.setWidth 32) ++ .setSeq .switched :: rest) := by
    refine h.step fun t hc => ?_
    have hrun := engineAlone_selectPll hc rfl hrdy hv (rest.length + 2)
    obtain ⟨hplant, hswitched⟩ := plantAlone_switches hc hl hb hrdy (selectPll_word hc.map hv).1 hy hsafe
      (pollField s.params.regmap .sws (srcPll.setWidth 32) ++ .setSeq .switched :: rest)
    exact ⟨_, hswitched, hrun.trans (engineAlone_after_plant hplant hc.running hswitched _)⟩
  exact (hswitches.poll ((FixedField.reads_iff h.map .sws srcPll y).2 hsws)).setSeq

end

end Sys2Proof.Machine

/-! SUPPORT. `SEQ_RUN` from its accept on (R151): up to the PLL, on a running PLL, to its end, and with the oscillator not ready. -/

namespace Sys2Proof.Machine

/-! ## Up to the PLL -/

/-- The operand of a legal level names the encoding written (R86, R121). -/
theorem exists_level {p : Params} {n : Nat} {enc : BitVec 2} (h : (n = 0 ∧ enc = p.vosLow) ∨ (n = 1 ∧ enc = p.vosHigh)) :
    ∃ l, levelOf n = some l ∧ vosEnc p l = enc := by
  rcases h with ⟨rfl, rfl⟩ | ⟨rfl, rfl⟩
  · exact ⟨.low, rfl, rfl⟩
  · exact ⟨.high, rfl, rfl⟩

theorem levelOf_of_le {n : Nat} (h : n ≤ 1) : ∃ l, levelOf n = some l := by
  rcases Nat.le_one_iff_eq_zero_or_eq_one.1 h with rfl | rfl
  · exact ⟨.low, rfl⟩
  · exact ⟨.high, rfl⟩

/-- A first `SEQ_RUN` with valid operands has the whole run before it (R151). -/
theorem seqProgram_valid {s : State} {cfg : PllWord} {pw : PowerWord} {l : Level} (hseq : s.seq = .uninitialized)
    (hyes : pllValid cfg ∧ powerValid pw) (hlevel : levelOf pw.level.toNat = some l) :
    seqProgram cfg pw s = seqBody s.params cfg l (pw.ws.setWidth 32) := by
  rw [seqProgram, if_neg (by simp [hseq]), if_neg (not_not_intro hyes), hlevel]

/-- What is left of a run after its first three transitions (R155 to R158). -/
abbrev seqFromPll (m : Regmap) (cfg : PllWord) : List Micro :=
  seqT4 m cfg ++ (seqT5 m ++ (seqT6 m ++ [.setSeq .complete, .done]))

/-- With the oscillator ready and a plant that answers, the level and the count are written and shown (R152 to R154). -/
theorem seqRun_reaches_latencySet {s : State} (hi : s.idle = true) (hu : s.Undisturbed) (h : mapWf s.params)
    (hwf : s.regs.wf s.params) (hans : s.PlantAnswers) (hseq : s.seq = .uninitialized) {cfg : PllWord} {pw : PowerWord}
    {enc : BitVec 2} (hcfg : pllValid cfg = true) (hpw : powerValid pw = true)
    (henc : (pw.level = 0 ∧ enc = s.params.vosLow) ∨ (pw.level = 1 ∧ enc = s.params.vosHigh))
    (hosc : oscRdyOf s.params.regmap (memRead s .clkCr) = 1) {pwr flash : Word}
    (hpwr : (memRead s .pwrCr &&& ~~~ ((0b11 : Word) <<< s.params.regmap.vos)) ||| (enc.setWidth 32 <<< s.params.regmap.vos)
      = pwr)
    (hflash : (memRead s .flashAcr &&& ~~~ ((0xF : Word) <<< s.params.regmap.latency))
      ||| (pw.ws.setWidth 32 <<< s.params.regmap.latency) = flash)
    (hsafe : s.params.binding = .production → (s.regs.set .pwrCr ⟨pwr, pwr⟩).safe s.params = true
      ∧ ((s.regs.set .pwrCr ⟨pwr, pwr⟩).set .flashAcr ⟨flash, flash⟩).safe s.params = true) :
    s.Reaches (.seqRun cfg pw) .latencySet ((s.regs.set .pwrCr ⟨pwr, pwr⟩).set .flashAcr ⟨flash, flash⟩)
      (s.wlog ++ [(s.params.regmap.pwrCrAddr, pwr), (s.params.regmap.flashAcrAddr, flash)])
      (seqFromPll s.params.regmap cfg) := by
  obtain ⟨l, hlevel, rfl⟩ : ∃ l, levelOf pw.level.toNat = some l ∧ vosEnc s.params l = enc :=
    exists_level (henc.imp (And.imp_left (congrArg BitVec.toNat)) (And.imp_left (congrArg BitVec.toNat)))
  obtain ⟨b, hb⟩ : ∃ b : BitVec 4, pw.ws.setWidth 32 = b.setWidth 32 := by
    have hws := ((powerValid_iff pw).1 hpw).2
    exact ⟨pw.ws.setWidth 4, by bv_omega⟩
  have hbody : seqProgram cfg pw s = seqT1 s.params.regmap ++ (seqT2 s.params l
      ++ (seqT3 s.params.regmap (b.setWidth 32) ++ seqFromPll s.params.regmap cfg)) := by
    rw [seqProgram_valid hseq ⟨hcfg, hpw⟩ hlevel, seqBody_eq, hb]
  rw [hb] at hflash
  have hstart := reaches_start hi hu h hwf (by rw [hseq]; rfl) hbody
  have hscaled := (hstart.oscillatorReady h hosc).scalingSet ((FixedField.merge_put _ .vos _ _).trans hpwr) hans
    fun hprod => (hsafe hprod).1
  have hslowed := hscaled.latencySet ((FixedField.merge_put _ .latency _ _).trans hflash) hans fun hprod => (hsafe hprod).2
  rwa [List.append_assoc] at hslowed

/-- Settles O37: the first three transitions, and then the read of `CLK_CR` that opens the fourth. -/
theorem seqRunFaultsOnARunningPll : Obligations.SeqRunFaultsOnARunningPll := by
  intro s cfg pw enc hi hu h hwf hans hseq hcfg hpw henc m pwr flash scaled slowed hosc hon hsafe
  have hreached := seqRun_reaches_latencySet hi hu h hwf hans hseq ((pllValid_iff cfg).2 hcfg) ((powerValid_iff pw).2 hpw)
    henc hosc rfl rfl hsafe
  obtain ⟨t, hexec⟩ := State.Reaches.checkPllOff_running hreached (beq_iff_eq.2 hon)
  exact ⟨_, hexec, ⟨rfl, rfl, rfl, rfl, rfl, rfl, rfl, rfl, rfl, rfl⟩, rfl, rfl, rfl⟩

/-! ## To the end -/

/-- A whole run under a live plant, from a ready oscillator and with the PLL off (R151 to R158). -/
theorem seqRun_completes {s : State} {cfg : PllWord} {pw : PowerWord} {f : RegFile} {log : List (Word × Word)}
    (h : s.Reaches (.seqRun cfg pw) .latencySet f log (seqFromPll s.params.regmap cfg))
    (hl : s.params.plantLive = true) (hb : s.params.binding = .production) (hoff : f.pllOn s.params.regmap = false)
    {g : RegFile} {cr y cfgr z : Word} (hg : f.programmed s.params.regmap cfg = g)
    (hcr : g.clkCr.r ||| FixedField.pllOn.mask s.params.regmap = cr)
    (hy : cr ||| FixedField.pllRdy.mask s.params.regmap = y)
    (hcfgr : merge (FixedField.sw.mask s.params.regmap) (FixedField.sw.put s.params.regmap (srcPll.setWidth 32))
      g.clkCfgr.r = cfgr)
    (hz : merge (FixedField.sws.mask s.params.regmap) (FixedField.sws.put s.params.regmap (srcPll.setWidth 32)) cfgr = z)
    (hsafe : ((g.set .clkCr ⟨y, y⟩).set .clkCfgr ⟨z, z⟩).safe s.params = true) :
    exec (.seqRun cfg pw) s = .next ({ s with
      regs := (g.set .clkCr ⟨y, y⟩).set .clkCfgr ⟨z, z⟩, seq := .complete
      wlog := log ++ pllWrites s.params.regmap cfg f
        ++ [(s.params.regmap.clkCrAddr, cr), (s.params.regmap.clkCfgrAddr, cfgr)] }.answered (.seqRun cfg pw) .ok 0) := by
  subst hg
  have hrdy : pllRdyOf s.params.regmap y = 1 := hy ▸ FixedField.get_or_mask h.map (k := .pllRdy) rfl cr
  have hprogrammed := h.pllProgrammed hoff (h.quiet hl hb).mux
  have hlocked := hprogrammed.pllLocked hl hb hcr hy
  have hswitched := hlocked.switched hl hb hrdy hcfgr hz hsafe
  rw [List.append_assoc (log ++ _)] at hswitched
  exact hswitched.setSeq.done

/-! ## The oscillator not ready -/

/-- Where `osc_ready` leaves the plant nothing more to do, the plant's moving is that step (R31). -/
theorem plantAlone_oscReady {u v : State} (hl : u.params.plantLive = true) (hv : plantStep .oscReady u = v)
    (hdone : v.Settled) : plantAlone u = v := by
  have hp : v.params = u.params := hv ▸ plantStep_params _ _
  have hstays : plantStep .oscReady v = v := by
    have hoff := (settled_iff v).1 hdone .oscReady (by simp [plantSteps])
    simp [plantStep, hoff]
  have hrest := plantAlone_of_settled (s := v) fun _ => hdone
  obtain ⟨later, hsteps⟩ : ∃ later, plantSteps u.params = .oscReady :: later := ⟨_, rfl⟩
  have hall : ∀ w : State, w.params = u.params → plantStep .oscReady w = v →
      plantAlone w = later.foldl (fun s q => plantStep q s) v := by
    intro w hw hwv
    rw [plantAlone, hw, if_pos hl, plantAll, hw, hsteps, List.foldl_cons, hwv]
  exact (hall u rfl hv).trans ((hall v hp hstays).symm.trans hrest)

/-- `osc_ready` sets the flag, and nothing else (R31). -/
theorem plantStep_oscReady {u : State} (hb : u.params.binding = .production) (hf : u.fault = none)
    (hosc : oscRdyOf u.params.regmap u.regs.clkCr.r = 0) :
    let bit := (1 : Word) <<< u.params.regmap.oscRdy
    plantStep .oscReady u
      = { u with regs := u.regs.set .clkCr ⟨u.regs.clkCr.w ||| bit, u.regs.clkCr.r ||| bit⟩ } := by
  intro bit
  have he : plantEnabled u .oscReady = true := (plantEnabled_eq hb hf _).trans ((plantCondition_oscReady _ _).2 hosc)
  exact (plantStep_of_enabled he nofun).trans
    (congrArg (fun x => { u with regs := u.regs.set .clkCr x }) (Reg.force_one (k := .oscRdy) rfl _))

theorem engineAlone_after_oscReady {u v : State} (hr : u.running = true) (hr' : v.running = true)
    (hl : u.params.plantLive = true) (hv : plantStep .oscReady u = v) (hdone : v.Settled) (k : Nat) :
    engineAlone (k + 1) u = engineAlone (k + 1) v := by
  rw [engineAlone_succ hr, plantAlone_oscReady hl hv hdone, engineAlone_succ hr', plantAlone_of_settled fun _ => hdone]

/-- T1 with the oscillator not ready stands at its poll (R58, R152). -/
theorem seqT1_polling {s : State} (hi : s.idle = true) (h : mapWf s.params)
    (hosc : oscRdyOf s.params.regmap (memRead s .clkCr) = 0) (i : Instr) (rest : List Micro) :
    (s.accepted i (seqT1 s.params.regmap ++ rest)).Polling := by
  refine ⟨accept_running hi _ _ _ _, fun hpoll => ?_⟩
  have hrdy := (FixedField.reads_iff h .oscRdy 1 (memRead s .clkCr)).1 hpoll
  exact absurd (hosc.symm.trans hrdy) (show (0 : BitVec 1) ≠ 1 by decide)

/-- The poll of T3, its barrier and its state follow one another (R62, R154). -/
theorem seqBody_latency (p : Params) (w : PllWord) (l : Level) (ws : Word) :
    ∃ pre post, seqBody p w l ws = pre ++ .poll .flashAcr ((0xF : Word) <<< p.regmap.latency) (ws <<< p.regmap.latency)
      :: .barrier :: .setSeq .latencySet :: post := by
  refine ⟨seqT1 p.regmap ++ (seqT2 p l
    ++ maskedWrite .flashAcr (FixedField.latency.mask p.regmap) (FixedField.latency.put p.regmap ws)),
    seqFromPll p.regmap w, ?_⟩
  rw [seqBody_eq, List.append_assoc, List.append_assoc]
  rfl

/-- Settles O36: the seven transitions one after the other; with the oscillator not ready, the plant's first move or the poll of
T1. -/
theorem seqRunCompletes : Obligations.SeqRunCompletes := by
  refine ⟨?completes, ?notReady⟩
  case completes =>
    intro s cfg pw enc hi hu h hl hb hwf hseq hcfg hpw henc m r pwr scaled flash slowed programmed cr locked cfgr confirmed
      switched hosc hoff _ hscaled hslowed hswitched
    have hreached := seqRun_reaches_latencySet hi hu h hwf (.inl hl) hseq ((pllValid_iff cfg).2 hcfg)
      ((powerValid_iff pw).2 hpw) henc hosc rfl rfl fun _ => ⟨hscaled, hslowed⟩
    have hcr : programmed.clkCr.r ||| FixedField.pllOn.mask m = cr :=
      congrArg (programmed.clkCr.r ||| ·) (FixedField.mask_of_width_one m rfl)
    have hy : cr ||| FixedField.pllRdy.mask m = cr ||| ((1 <<< m.pllRdy : Nat) : Word) :=
      congrArg (cr ||| ·) (FixedField.mask_of_width_one m rfl)
    have hcfgr : merge (FixedField.sw.mask m) (FixedField.sw.put m (srcPll.setWidth 32)) programmed.clkCfgr.r = cfgr :=
      FixedField.merge_put m .sw srcPll _
    have hz : merge (FixedField.sws.mask m) (FixedField.sws.put m (srcPll.setWidth 32)) cfgr = confirmed :=
      FixedField.merge_put m .sws srcPll _
    exact seqRun_completes hreached hl hb (beq_eq_false_iff_ne.2 ((bit_ne_one_iff _).2 hoff)) rfl hcr hy hcfgr hz hswitched
  case notReady =>
    intro s cfg pw hi ha h hseq hcfg hpw hlevel m x ready hosc
    obtain ⟨l, hl⟩ := levelOf_of_le hlevel
    have hmid : seqMidway s.seq = false := by rw [hseq]; rfl
    have hbody : seqProgram cfg pw s = seqBody s.params cfg l (pw.ws.setWidth 32) :=
      seqProgram_valid hseq ⟨(pllValid_iff cfg).2 hcfg, (powerValid_iff pw).2 hpw⟩ hl
    refine ⟨fun hlive hprod hready => ?live, fun hstill => ?waits⟩
    case live =>
      have hi' : ready.idle = true := hi
      rw [exec_seqRun hi ha cfg pw hmid hbody, exec_seqRun (s := ready) hi' ha cfg pw hmid hbody, seqBody_eq]
      exact congrArg _ (engineAlone_after_oscReady (accept_running hi _ _ _ _) (accept_running hi' _ _ _ _) hlive
        (plantStep_oscReady hprod ((idle_iff s).1 hi).2 hosc) (undisturbed_settled hready hlive) _)
    case waits =>
      have hu : s.Undisturbed := by
        refine ⟨ha, fun hlive hprod => ?_⟩
        rcases hstill with hno | htest
        · exact absurd (hlive.symm.trans hno) (by decide)
        · exact absurd (hprod.symm.trans htest) (by decide)
      have hpoll : (s.accepted (.seqRun cfg pw) (seqBody s.params cfg l (pw.ws.setWidth 32))).Polling := by
        rw [seqBody_eq]
        exact seqT1_polling hi h hosc _ _
      have hplant := plantAlone_of_settled (s := s.accepted (.seqRun cfg pw) (seqBody s.params cfg l (pw.ws.setWidth 32)))
        (undisturbed_settled hu)
      rw [exec_seqRun hi ha cfg pw hmid hbody, engineAlone_of_stuck hplant (engineStep_of_polling hpoll)]
      exact ⟨_, rfl, hpoll, rfl, rfl, hseq, rfl, rfl, seqBody_latency _ _ _ _⟩

end Sys2Proof.Machine

/-! SUPPORT. The two commands of the Peripheral Clock Gate Controller (R180 to R182): a rejected id, and a gate bit OR-ed in and
waited for. -/

namespace Sys2Proof.Machine

/-! ## The bit of a gate -/

theorem onesAt_one (b : Nat) : onesAt b 1 = BitVec.twoPow 32 b := by
  simp [onesAt, BitVec.twoPow]

/-- One bit OR-ed in (R57). -/
theorem or_onesAt_one (x : Word) (b : Nat) : x ||| onesAt b 1 = x ||| ((1 <<< b : Nat) : Word) := by
  rw [onesAt_one]
  rfl

/-- What a poll of one bit compares (R58). -/
theorem and_onesAt_one_iff {b : Nat} (hb : b < 32) (x : Word) : x &&& onesAt b 1 = onesAt b 1 ↔ x.getLsbD b = true := by
  have hbit : (BitVec.twoPow 32 b).getLsbD b = true := by simp [hb]
  rw [onesAt_one, BitVec.and_twoPow]
  refine ⟨fun e => ?_, fun hx => if_pos hx⟩
  by_contra hx
  rw [if_neg hx] at e
  simp [← e] at hbit

theorem SettlingField.bits_gpioen (p : Params) (k : Fin 8) :
    SettlingField.bits p (.gpioen k) = some (.gateAhb1, onesAt (p.regmap.gpioen.get k) 1) := rfl

theorem SettlingField.bits_usarten {p : Params} {id : Word} {e : UsartEntry} (he : usartEntry p id = some e) :
    SettlingField.bits p (.usarten id) = some (busReg e.bus, onesAt e.bit 1) := by
  simp [SettlingField.bits, SettlingField.toField, FieldName.place, he, usartPlace, Place.mask]

/-! ## A rejected command, and the body of a gate -/

/-- A command that is rejected before any access changes the latches and the response only (R191, R193). -/
theorem issue_raise {s : State} (hi : s.idle = true) (hu : s.Undisturbed) (i : Instr) (e : Status) :
    issue i [.raise e] s = .next (s.answered i e 0) := by
  rw [issue_undisturbed i _ hi hu]
  exact congrArg _ (engineAlone_raise 0 (accept_running hi _ _ _ _) (undisturbed_settled hu) rfl)

section
variable {s : State} (hi : s.idle = true) (hu : s.Undisturbed) (h : mapWf s.params) (hwf : s.regs.wf s.params) (i : Instr)
  {sf : SettlingField} {n : RegName} {b : Nat} (hbits : SettlingField.bits s.params sf = some (n, onesAt b 1)) (hb : b < 32)
  {v : Word} (hv : memRead s n ||| onesAt b 1 = v)
include hi hu h hwf hbits hb hv

/-- Where the plant answers, or the bit reads 1 already, the bit reads back and the command answers (R57, R58). No gate bears on
`Safe` (R231). -/
theorem issue_gateBody_answers (hgate : ¬ (n = .pwrCr ∨ n = .flashAcr))
    (hans : s.PlantAnswers ∨ (memRead s n).getLsbD b = true) :
    issue i (gateBody n (onesAt b 1)) s = .next ((s.stored n v ⟨v, v⟩).answered i .ok 0) := by
  have hc := accepted_inCommand hi hu h hwf i (gateBody n (onesAt b 1))
  obtain ⟨hrun, hend⟩ := engineAlone_settles (rest := [.done]) hc hbits ((merge_same _ _).trans hv) (BitVec.and_self ..) rfl
    (hans.imp_right (and_onesAt_one_iff hb _).2) (fun _ hn => absurd hn hgate) 1
  rw [issue_undisturbed i _ hi hu]
  exact congrArg _ (hrun.trans (engineAlone_done_wrote 0 hend))

/-- Where the plant never answers and the bit reads 0, the engine stays at the poll, the write pending (R58). -/
theorem issue_gateBody_waits (hans : ¬ s.PlantAnswers) (hread : (memRead s n).getLsbD b = false) :
    ∃ t, issue i (gateBody n (onesAt b 1)) s = .next t ∧ t.Polling ∧ t.st = s.st ∧ t.rv = s.rv ∧ t.seq = s.seq
      ∧ t.regs = s.regs.set n ⟨v, memRead s n⟩
      ∧ t.wlog = s.wlog ++ [(regAddr s.params.regmap n, v)] := by
  have hc := accepted_inCommand hi hu h hwf i (gateBody n (onesAt b 1))
  have hclear : memRead s n &&& onesAt b 1 ≠ onesAt b 1 := mt (and_onesAt_one_iff hb _).1 (by simp [hread])
  obtain ⟨hrun, hpoll⟩ := engineAlone_waits (rest := [.done]) hc hbits ((merge_same _ _).trans hv) rfl hans hclear 2
  rw [issue_undisturbed i _ hi hu]
  exact ⟨_, congrArg _ hrun, hpoll, rfl, rfl, rfl, rfl, rfl⟩

end

/-! ## `GATE_GPIO` and `GATE_USART` -/

/-- An id above 7 is no bank (R86). -/
theorem gpioBankOf_of_gt {id : Word} (hid : 7 < id.toNat) : gpioBankOf id = none := dif_neg (by omega)

theorem gpioBankOf_eq {id : Word} {k : Fin 8} (hid : id.toNat = k.val) : gpioBankOf id = some k :=
  (dif_pos (by omega)).trans (congrArg some (Fin.ext hid))

theorem exec_gateGpio_bank {id : Word} {k : Fin 8} (hk : gpioBankOf id = some k) (a1 : Word) (s : State) :
    exec (.gateGpio id a1) s
      = issue (.gateGpio id a1) (gateBody .gateAhb1 (onesAt (s.params.regmap.gpioen.get k) 1)) s := by
  rw [exec, execGateGpio, hk]
  rfl

theorem exec_gateUsart_entry {s : State} {id : Word} {e : UsartEntry} (he : usartEntry s.params id = some e) (a1 : Word) :
    exec (.gateUsart id a1) s = issue (.gateUsart id a1) (gateBody (busReg e.bus) (onesAt e.bit 1)) s := by
  rw [exec, execGateUsart, he]
  rfl

/-- Settles O32: the check of the id, then the write and the poll of a bit of `GATE_AHB1`. -/
theorem gateGpioEnablesTheBank : Obligations.GateGpioEnablesTheBank := by
  intro s id a1 hi hu h hwf i m r
  refine ⟨fun hgt => ?unknown, fun k hk => ?bank⟩
  case unknown =>
    rw [exec, execGateGpio, gpioBankOf_of_gt hgt]
    exact issue_raise hi hu i .invalidParameter
  case bank =>
    have hbits := SettlingField.bits_gpioen s.params k
    have hb := mapWf_fits_gpio h k
    intro b v
    have hv : r ||| onesAt b 1 = v := or_onesAt_one r b
    rw [exec_gateGpio_bank (gpioBankOf_eq hk)]
    exact ⟨issue_gateBody_answers hi hu h hwf i hbits hb hv (by decide), issue_gateBody_waits hi hu h hwf i hbits hb hv⟩

/-- Settles O33: the entry of the table, then the write and the poll of a bit of its bus's register. -/
theorem gateUsartEnablesTheInstance : Obligations.GateUsartEnablesTheInstance := by
  intro s id a1 hi hu h hwf i m
  refine ⟨fun hno => ?unknown, fun pre post e n addr htable hpre hid hbus => ?entry⟩
  case unknown =>
    rw [exec, execGateUsart, usartEntry_none hno]
    exact issue_raise hi hu i .invalidParameter
  case entry =>
    subst hid
    have he := usartEntry_first htable hpre
    obtain ⟨rfl, rfl⟩ : n = busReg e.bus ∧ addr = regAddr m n := by
      rcases hbus with ⟨hb, rfl, rfl⟩ | ⟨hb, rfl, rfl⟩ <;> exact ⟨by rw [hb]; rfl, rfl⟩
    have hbits := SettlingField.bits_usarten he
    have hgate : ¬ (busReg e.bus = .pwrCr ∨ busReg e.bus = .flashAcr) := by cases e.bus <;> decide
    intro r v
    have hv : r ||| onesAt e.bit 1 = v := or_onesAt_one r e.bit
    rw [exec_gateUsart_entry he]
    exact ⟨issue_gateBody_answers hi hu h hwf i hbits e.bit.isLt hv hgate,
      issue_gateBody_waits hi hu h hwf i hbits e.bit.isLt hv⟩

end Sys2Proof.Machine

/-! SUPPORT. The engine's position while a command runs (R12, R15, R198), and the codes of the two outputs (R14, R190). -/

namespace Sys2Proof.Machine

/-! ## A program that leads on -/

theorem bodyOk_cons {m : Micro} (hm : m.passes = true) (b : List Micro) : bodyOk (m :: b) = bodyOk b := by
  cases m with
  | load _ | store _ _ _ | poll _ _ _ | barrier | checkPllOff | freqPll _ => rfl
  | _ => cases hm

theorem bodyOk_append {a : List Micro} (ha : ∀ m ∈ a, m.passes = true) (b : List Micro) : bodyOk (a ++ b) = bodyOk b := by
  induction a with
  | nil => rfl
  | cons m a ih =>
    obtain ⟨hm, ha⟩ := List.forall_mem_cons.1 ha
    exact (bodyOk_cons hm _).trans (ih ha)

theorem bodyOk_transition {a : List Micro} {q : SeqState} (ha : IsTransition a q) (b : List Micro) :
    bodyOk (a ++ b) = bodyOk b := by
  obtain ⟨accesses, hpass, rfl⟩ := ha
  rw [List.append_assoc]
  exact bodyOk_append hpass _

theorem seqBody_bodyOk (p : Params) (w : PllWord) (l : Level) (ws : Word) : bodyOk (seqBody p w l ws) = true := by
  rw [seqBody_eq, bodyOk_transition (seqT1_isTransition _), bodyOk_transition (seqT2_isTransition _ _),
    bodyOk_transition (seqT3_isTransition _ _), bodyOk_transition (seqT4_isTransition _ _),
    bodyOk_transition (seqT5_isTransition _), bodyOk_transition (seqT6_isTransition _)]
  rfl

/-- Every program leads to a response or a fault (R7, R8). -/
theorem programOf_bodyOk (i : Instr) (s : State) : bodyOk (programOf i s) = true := by
  cases i with
  | getFreq domain a1 => simp only [programOf]; split <;> rfl
  | setScaling level a1 =>
    simp only [programOf]
    split
    · rfl
    · exact bodyOk_append (doScaling_passes _ _) _
  | setLatency ws a1 =>
    simp only [programOf]
    split
    · rfl
    · exact bodyOk_append (doLatency_passes _ _) _
  | enableCache a0 a1 => rfl
  | enablePrefetch a0 a1 => rfl
  | pllConfigure cfg a1 =>
    simp only [programOf]
    split
    · exact bodyOk_append (doPllConfigure_passes _ _) _
    · rfl
  | pllEnable a0 a1 => rfl
  | pllWaitLock a0 a1 => rfl
  | seqRun cfg pw =>
    simp only [programOf, seqProgram]
    split
    · rfl
    · split
      · rfl
      · split
        · rfl
        · exact seqBody_bodyOk _ _ _ _
  | gateGpio id a1 => simp only [programOf]; split <;> rfl
  | gateUsart id a1 => simp only [programOf]; split <;> rfl

/-! ## The engine agent by agent -/

theorem State.EngineOk.congr {u v : State} (h : u.EngineOk) (hph : v.ph = u.ph) (hbusy : v.busy = u.busy) : v.EngineOk := by
  unfold State.EngineOk
  rw [hph, hbusy]
  exact h

/-- Where something is left to do, a command runs and what is left leads on. -/
theorem State.EngineOk.of_ne_nil {u : State} (h : u.EngineOk) (hne : u.ph ≠ []) : u.busy = true ∧ bodyOk u.ph = true := by
  cases hb : u.busy with
  | true => exact ⟨rfl, h.1 hb⟩
  | false => exact absurd (h.2 hb) hne

/-- The engine goes on with a program that leads on. -/
theorem engineOk_of_busy {v : State} (hbusy : v.busy = true) (hbody : bodyOk v.ph = true) : v.EngineOk :=
  ⟨fun _ => hbody, fun hn => absurd (hbusy.symm.trans hn) (by decide)⟩

theorem engineStep_engineOk {u : State} (h : u.EngineOk) : (engineStep u).EngineOk := by
  have hleft := fun {m rest} (hu : u.ph = m :: rest) => h.of_ne_nil (by rw [hu]; exact List.cons_ne_nil m rest)
  cases engineStep_seqMove u with
  | stays _ hph hbusy => exact h.congr hph hbusy
  | passes m rest hu hm _ hph hbusy =>
    obtain ⟨hb, hbody⟩ := hleft hu
    rw [hu, bodyOk_cons hm] at hbody
    exact engineOk_of_busy (hbusy.trans hb) (by rw [hph, hbody])
  | sets q rest hu _ hph hbusy =>
    obtain ⟨hb, hbody⟩ := hleft hu
    rw [hu] at hbody
    exact engineOk_of_busy (hbusy.trans hb) (by rw [hph]; exact hbody)
  | queries d rest hu _ hph hbusy =>
    obtain ⟨hb, hbody⟩ := hleft hu
    rw [hu] at hbody
    obtain ⟨d', rest', rfl, hbody'⟩ := bodyOk_freqClk hbody
    refine engineOk_of_busy (hbusy.trans hb) ?_
    rcases hph with e | e | e <;> rw [e]
    · exact hbody'
    · exact hbody'
    · rfl
  | answers _ _ _ _ _ hph hbusy => exact ⟨fun hy => absurd (hbusy.symm.trans hy) (by decide), fun _ => hph⟩

theorem turnStep_engineOk {tn : Turn} {s t : State} (h : s.EngineOk) (ht : turnStep tn s = .next t) : t.EngineOk := by
  by_cases hgo : tn = .go
  · subst hgo
    cases ht
    exact engineStep_engineOk h
  · by_cases hreset : tn = .reset
    · subst hreset
      cases ht
      exact ⟨nofun, fun _ => rfl⟩
    · obtain ⟨-, hph, hbusy⟩ := turnStep_seq_ph hgo hreset ht
      exact h.congr hph hbusy

/-- Settles O58: the induction over a step: every accepted program leads on, and no agent's move leaves less than that. -/
theorem everyStepKeepsTheEngineSound : Obligations.EveryStepKeepsTheEngineSound :=
  fun _ _ hs h =>
    step_keeps (P := State.EngineOk) (fun _ _ hu => hu) (fun _ _ hu => hu)
      (fun q u hu => hu.congr (plantStep_ph q u) (plantStep_busy q u)) (fun _ hu => engineStep_engineOk hu)
      (fun _ _ _ hu ht => turnStep_engineOk hu ht) (fun s i _ _ _ => engineOk_of_busy rfl (programOf_bodyOk i s))
      (fun _ _ _ _ _ _ => engineOk_of_busy rfl rfl) hs h

/-- Settles O16: each code is the entry of its table. -/
theorem outputsShowTheNumberedCodes : Obligations.OutputsShowTheNumberedCodes := by
  intro s
  have hresponse : ∀ e, s.st = e → s.response = (statusCode e, s.rv) := fun e he => by rw [State.response, he]
  have hstate : ∀ q, s.seq = q → s.seqState = seqCode q := fun q hq => congrArg seqCode hq
  exact ⟨hresponse .ok, hresponse .invalidParameter, hresponse .alreadyInitialized, hresponse .notAvailable,
    hstate .uninitialized, hstate .oscillatorReady, hstate .scalingSet, hstate .latencySet, hstate .pllProgrammed,
    hstate .pllLocked, hstate .switched, hstate .complete⟩

end Sys2Proof.Machine

/-! SUPPORT. Error responses (R191): a command raises one before it has done anything, or its program raises none. -/

namespace Sys2Proof.Machine

/-! ## A program that raises no error -/

/-- A micro-step that raises no error, whatever it reads (R101, R191). -/
def Micro.raisesNone : Micro → Bool
  | .raise _ => false
  | .freqClk _ => false
  | _ => true

/-- No micro-step of the program raises an error. -/
abbrev RaisesNone (b : List Micro) : Prop := b.all Micro.raisesNone = true

theorem Micro.raisesNone_of_passes {m : Micro} (hm : m.passes = true) : m.raisesNone = true := by
  cases m with
  | raise _ | freqClk _ => cases hm
  | _ => rfl

theorem RaisesNone.append {a b : List Micro} (hb : RaisesNone b) (ha : ∀ m ∈ a, m.passes = true) : RaisesNone (a ++ b) := by
  rw [RaisesNone, List.all_append, hb, Bool.and_true, List.all_eq_true]
  exact fun m hm => Micro.raisesNone_of_passes (ha m hm)

theorem RaisesNone.transition {a b : List Micro} {q : SeqState} (ha : IsTransition a q) (hb : RaisesNone b) :
    RaisesNone (a ++ b) := by
  obtain ⟨accesses, hpass, rfl⟩ := ha
  rw [List.append_assoc]
  exact RaisesNone.append hb hpass

theorem raisesNone_done : RaisesNone [.done] := rfl

theorem seqBody_raisesNone (p : Params) (w : PllWord) (l : Level) (ws : Word) : RaisesNone (seqBody p w l ws) := by
  rw [seqBody_eq]
  exact .transition (seqT1_isTransition _) <| .transition (seqT2_isTransition _ _) <|
    .transition (seqT3_isTransition _ _) <| .transition (seqT4_isTransition _ _) <|
    .transition (seqT5_isTransition _) <| .transition (seqT6_isTransition _) rfl

/-- A command is rejected at once, or it is a frequency query, or its program raises no error (R193). -/
theorem programOf_raises (i : Instr) (s : State) :
    (∃ e, e ≠ .ok ∧ programOf i s = [.raise e]) ∨ (∃ d, programOf i s = freqBody d) ∨ RaisesNone (programOf i s) := by
  have rejected : ∀ {e : Status}, e ≠ .ok → ∃ e', e' ≠ .ok ∧ ([.raise e] : List Micro) = [.raise e'] := fun he => ⟨_, he, rfl⟩
  cases i with
  | getFreq domain a1 =>
    simp only [programOf]
    split
    · exact .inl (rejected (by decide))
    · exact .inr (.inl ⟨_, rfl⟩)
  | setScaling level a1 =>
    simp only [programOf]
    split
    · exact .inr (.inr rfl)
    · exact .inr (.inr (raisesNone_done.append (doScaling_passes _ _)))
  | setLatency ws a1 =>
    simp only [programOf]
    split
    · exact .inl (rejected (by decide))
    · exact .inr (.inr (raisesNone_done.append (doLatency_passes _ _)))
  | enableCache a0 a1 => exact .inr (.inr rfl)
  | enablePrefetch a0 a1 => exact .inr (.inr rfl)
  | pllConfigure cfg a1 =>
    simp only [programOf]
    split
    · exact .inr (.inr (raisesNone_done.append (doPllConfigure_passes _ _)))
    · exact .inl (rejected (by decide))
  | pllEnable a0 a1 => exact .inr (.inr rfl)
  | pllWaitLock a0 a1 => exact .inr (.inr rfl)
  | seqRun cfg pw =>
    simp only [programOf, seqProgram]
    split
    · exact .inl (rejected (by decide))
    · split
      · exact .inl (rejected (by decide))
      · split
        · exact .inr (.inr rfl)
        · exact .inr (.inr (seqBody_raisesNone _ _ _ _))
  | gateGpio id a1 =>
    simp only [programOf]
    split
    · exact .inl (rejected (by decide))
    · exact .inr (.inr rfl)
  | gateUsart id a1 =>
    simp only [programOf]
    split
    · exact .inl (rejected (by decide))
    · exact .inr (.inr rfl)

/-! ## Its run -/

/-- A command in progress whose program raises no error, or one that has answered `OK`. -/
structure State.AnswersOk (u : State) : Prop where
  inProgress : u.busy = true → RaisesNone u.ph
  answered : u.busy = false → u.st = .ok

theorem State.AnswersOk.congr {u v : State} (h : u.AnswersOk) (hph : v.ph = u.ph) (hbusy : v.busy = u.busy)
    (hst : v.st = u.st) : v.AnswersOk := by
  constructor
  · rw [hph, hbusy]; exact h.inProgress
  · rw [hst, hbusy]; exact h.answered

theorem engineStep_answersOk {u : State} (h : u.AnswersOk) : (engineStep u).AnswersOk := by
  cases hr : u.running with
  | false => rwa [engineStep_of_not_running hr]
  | true =>
    have hb := ((running_iff u).1 hr).1
    have hleft {m rest} (hu : u.ph = m :: rest) : m.raisesNone = true ∧ RaisesNone rest := by
      have hall := h.inProgress hb
      rwa [hu, RaisesNone, List.all_cons, Bool.and_eq_true] at hall
    have goesOn {v : State} (hbusy : v.busy = u.busy) (hph : RaisesNone v.ph) : v.AnswersOk :=
      ⟨fun _ => hph, fun hn => absurd ((hbusy.trans hb).symm.trans hn) (by decide)⟩
    cases engineStep_seqMove u with
    | stays _ hph hbusy hst => exact h.congr hph hbusy hst
    | passes m rest hu _ _ hph hbusy => exact goesOn hbusy (hph ▸ (hleft hu).2)
    | sets q rest hu _ hph hbusy => exact goesOn hbusy (hph ▸ (hleft hu).2)
    | queries d rest hu => cases (hleft hu).1
    | answers m rest hu hm _ _ hbusy =>
      refine ⟨fun hy => absurd (hbusy.symm.trans hy) (by decide), fun _ => ?_⟩
      rcases hm with rfl | ⟨-, hok⟩
      · cases (hleft hu).1
      · exact hok

/-- The four values of `SWS`: two sources, and two that are not wired (R22). -/
theorem sws_cases (b : BitVec 2) : b = srcOsc ∨ b = srcPll ∨ b = 0b01 ∨ b = 0b11 := by
  revert b
  decide

/-- A frequency query ends in `OK`, in a fault, or in `NOT_AVAILABLE` with nothing but the response changed (R101). -/
theorem engineAlone_freqBody_ends {d : ClockDomain} {u : State} (hr : u.running = true)
    (hs : u.params.plantLive = true → u.Settled) (hp : u.ph = freqBody d) :
    (engineAlone 3 u).st = .ok ∨ (engineAlone 3 u).fault ≠ none ∨ engineAlone 3 u = respond .notAvailable 0 u := by
  rcases sws_cases (swsOf u.params.regmap (memRead u .clkCfgr)) with hosc | hpll | hno
  · exact .inl (by rw [engineAlone_freqBody_osc hr hs hp hosc, respond_st])
  · cases hw : pllFreq u.params.regmap u.regs with
    | ok sys => exact .inl (by rw [engineAlone_freqBody_pll_ok hr hs hp hpll hw, respond_st])
    | error f => exact .inr (.inl (by rw [engineAlone_freqBody_pll_error hr hs hp hpll hw, recordFault_fault]; nofun))
  · exact .inr (.inr (engineAlone_freqBody_unwired hr hs hp hno))

/-- Settles O44: a rejection and a frequency query change the response alone, and any other program that ends, ends in `OK`. -/
theorem errorResponseChangesNothingElse : Obligations.ErrorResponseChangesNothingElse := by
  intro i s t hu h hbusy hf hst
  obtain ⟨hi, hrun⟩ := exec_next h
  have hissue : issue i (programOf i s) s = .next t := by
    rcases exec_cases i s with e | e
    · exact e.symm.trans h
    · rw [e] at h; cases h
  rcases programOf_raises i s with ⟨e, he, hbody⟩ | ⟨d, hbody⟩ | hnone
  case inl =>
    rw [hbody, issue_raise hi hu] at hissue
    cases hissue
    exact ⟨e, he, rfl⟩
  case inr.inl =>
    rw [hbody, issue_undisturbed _ _ hi hu] at hissue
    cases hissue
    have hends := engineAlone_freqBody_ends (u := s.accepted i (freqBody d)) (accept_running hi _ _ _ _)
      (undisturbed_settled hu) rfl
    exact ⟨.notAvailable, by decide, (hends.resolve_left hst).resolve_left fun hn => hn hf⟩
  case inr.inr =>
    have hok : t.AnswersOk :=
      runTurns_keeps (P := State.AnswersOk) (fun _ _ hu => hu.congr rfl rfl rfl)
        (fun q u hu => hu.congr (plantStep_ph q u) (plantStep_busy q u) (plantStep_st q u))
        (fun _ hu => engineStep_answersOk hu) (hu.1 ▸ nofun) (s := s.accepted i (programOf i s))
        ⟨fun _ => hnone, nofun⟩ hrun
    exact absurd (hok.answered hbusy) hst

end Sys2Proof.Machine

/-! SUPPORT. What a live plant does for a poll (R30, R31, R198): the plant step that makes its condition true, and that the plant moving
alone takes it. -/

namespace Sys2Proof.Machine

/-! ## The poll and the plant step it awaits -/

/-- The poll's condition holds of the register file (R58). -/
abbrev RegFile.Meets (f : RegFile) (n : RegName) (mask v : Word) : Prop := (f.get n).r &&& mask = v

/-- Plant step `q` will make the poll's condition true, if it does not hold already: a pending value that settles, the oscillator, the
lock of a running PLL, and the mux that follows its select of the PLL (R30, R31). -/
inductive RegFile.Awaits (p : Params) (f : RegFile) : PlantStep → RegName → Word → Word → Prop
  | settle {sf : SettlingField} {n : RegName} {mask v : Word} (hbits : SettlingField.bits p sf = some (n, mask))
      (hw : (f.get n).w &&& mask = v) : f.Awaits p (.settle sf) n mask v
  | oscReady : f.Awaits p .oscReady .clkCr (FixedField.oscRdy.mask p.regmap) (FixedField.oscRdy.put p.regmap 1)
  | pllLock (hon : f.pllOn p.regmap = true) :
      f.Awaits p .pllLock .clkCr (FixedField.pllRdy.mask p.regmap) (FixedField.pllRdy.put p.regmap 1)
  | muxSwitch (hsw : f.rd p.regmap .sw = srcPll) (hsrc : f.rd p.regmap .sws = srcPll ∨ f.rd p.regmap .pllRdy = 1) :
      f.Awaits p .muxSwitch .clkCfgr (FixedField.sws.mask p.regmap) (FixedField.sws.put p.regmap (srcPll.setWidth 32))

/-- A register with no status field: a plant step can only let bits of it settle (R30). -/
theorem plantEffect_get_settling {p : Params} {n : RegName} (h1 : n ≠ .clkCr) (h2 : n ≠ .clkCfgr) (f : RegFile)
    (q : PlantStep) : ∃ k, (plantEffect p f q).get n = ⟨(f.get n).w, merge k (f.get n).w (f.get n).r⟩ := by
  have hother : (plantEffect p f q).get n = f.get n → ∃ k, (plantEffect p f q).get n
      = ⟨(f.get n).w, merge k (f.get n).w (f.get n).r⟩ := fun e => ⟨0, by rw [e, merge_zero]⟩
  cases q with
  | settle sf =>
    cases hb : SettlingField.bits p sf with
    | none => exact hother (by simp [plantEffect, hb])
    | some nm =>
      obtain ⟨k, mask⟩ := nm
      rw [plantEffect_settle hb] at hother ⊢
      by_cases hn : n = k
      · subst hn
        exact ⟨mask, RegFile.get_set_same _ _ _⟩
      · exact hother (RegFile.get_set_of_ne _ _ hn)
  | oscReady => exact hother (RegFile.get_set_of_ne _ _ h1)
  | pllLock => exact hother (RegFile.get_set_of_ne _ _ h1)
  | muxSwitch => exact hother (RegFile.get_set_of_ne _ _ h2)

section
variable {p : Params} (h : mapWf p) {f : RegFile} {q : PlantStep} {n : RegName} {mask v : Word} (hw : f.Awaits p q n mask v)
include h hw

/-- What a poll awaits it still awaits after any plant step. -/
theorem RegFile.Awaits.after_plantEffect (k : PlantStep) : (plantEffect p f k).Awaits p q n mask v := by
  cases hw with
  | settle hbits hw =>
    obtain ⟨h1, h2⟩ := SettlingField.reg_ne hbits
    obtain ⟨m, e⟩ := plantEffect_get_settling h1 h2 f k
    exact .settle hbits (by rw [e]; exact hw)
  | oscReady => exact .oscReady
  | pllLock hon => exact .pllLock ((plantEffect_pllOn h k f).trans hon)
  | muxSwitch hsw hsrc =>
    have hfield : k.field ≠ .fixed .sw := by
      cases k with
      | settle sf => exact SettlingField.toField_ne (by decide)
      | _ => nofun
    refine .muxSwitch ((rd_plantEffect h hfield f).trans hsw) (hsrc.imp (fun hs => ?_) fun hr => ?_)
    · refine (swsOf_plantEffect h k f).trans ?_
      split
      · exact hsw
      · exact hs
    · rw [rd_plantEffect_pllRdy h, hr, ite_self]

/-- A condition that holds is not undone by the plant. -/
theorem RegFile.Awaits.meets_after_plantEffect (hm : f.Meets n mask v) (k : PlantStep) : (plantEffect p f k).Meets n mask v := by
  cases hw with
  | settle hbits hw =>
    obtain ⟨h1, h2⟩ := SettlingField.reg_ne hbits
    obtain ⟨m, e⟩ := plantEffect_get_settling h1 h2 f k
    unfold RegFile.Meets
    rw [e, merge_and_of_agree m (hw.trans hm.symm), hm]
  | oscReady =>
    refine (FixedField.reads_iff h .oscRdy 1 _).2 ((rd_plantEffect_oscRdy h k f).trans ?_)
    rw [show f.rd p.regmap .oscRdy = 1 from (FixedField.reads_iff h .oscRdy 1 _).1 hm, ite_self]
  | pllLock =>
    refine (FixedField.reads_iff h .pllRdy 1 _).2 ((rd_plantEffect_pllRdy h k f).trans ?_)
    rw [show f.rd p.regmap .pllRdy = 1 from (FixedField.reads_iff h .pllRdy 1 _).1 hm, ite_self]
  | muxSwitch hsw =>
    refine (FixedField.reads_iff h .sws srcPll _).2 ((swsOf_plantEffect h k f).trans ?_)
    split
    · exact hsw
    · exact (FixedField.reads_iff h .sws srcPll _).1 hm

/-- The step awaited makes the condition true. -/
theorem RegFile.Awaits.meets_of_effect : (plantEffect p f q).Meets n mask v := by
  cases hw with
  | settle hbits hw =>
    rw [RegFile.Meets, plantEffect_settle hbits, RegFile.get_set_same]
    exact (merge_and_mask _ _ _).trans hw
  | oscReady =>
    exact (FixedField.reads_iff h .oscRdy 1 _).2 ((rd_plantEffect_oscRdy h _ f).trans (if_pos rfl))
  | pllLock =>
    exact (FixedField.reads_iff h .pllRdy 1 _).2 ((rd_plantEffect_pllRdy h _ f).trans (if_pos rfl))
  | muxSwitch hsw =>
    exact (FixedField.reads_iff h .sws srcPll _).2 ((swsOf_plantEffect h _ f).trans ((if_pos rfl).trans hsw))

/-- While the condition is false the step awaited can be taken. -/
theorem RegFile.Awaits.plantCondition_of_not_meets (hm : ¬ f.Meets n mask v) : plantCondition p f q = true := by
  cases hw with
  | settle hbits hw =>
    rw [plantCondition_settle hbits, pending_iff, hw]
    exact Ne.symm hm
  | oscReady =>
    refine (plantCondition_oscReady p f).2 ((bit_ne_one_iff _).1 fun h1 => hm ?_)
    exact (FixedField.reads_iff h .oscRdy 1 _).2 h1
  | pllLock hon =>
    refine (plantCondition_pllLock p f).2 ⟨by simpa [RegFile.pllOn] using hon, (bit_ne_one_iff _).1 fun h1 => hm ?_⟩
    exact (FixedField.reads_iff h .pllRdy 1 _).2 h1
  | muxSwitch hsw hsrc =>
    have hne : f.rd p.regmap .sws ≠ srcPll := fun hs => hm ((FixedField.reads_iff h .sws srcPll _).2 hs)
    exact (plantCondition_muxSwitch p f).2 ⟨fun e => hne (e.trans hsw),
      (selectable_iff _ _ _).2 (.inr ⟨hsw, hsrc.resolve_left hne⟩)⟩

end

/-! ## The plant moving alone -/

/-- A plant step whose effect brings `R` about, where every plant step keeps `P` and `R`, brings it about wherever it stands in the
list. -/
theorem foldl_plantStep_reaches {P R : State → Prop} {q : PlantStep} (hP : ∀ k s, P s → P (plantStep k s))
    (hR : ∀ k s, P s → R s → R (plantStep k s)) (hq : ∀ s, P s → R (plantStep q s)) {l : List PlantStep} (hmem : q ∈ l)
    {s : State} (hs : P s) : R (l.foldl (fun s k => plantStep k s) s) := by
  have keeps : ∀ (l : List PlantStep) (s : State), P s → R s → R (l.foldl (fun s k => plantStep k s) s) := by
    intro l
    induction l with
    | nil => exact fun _ _ hr => hr
    | cons k l ih => exact fun s hs hr => ih _ (hP k s hs) (hR k s hs hr)
  induction l generalizing s with
  | nil => cases hmem
  | cons k l ih =>
    rcases List.mem_cons.1 hmem with rfl | hmem
    · exact keeps l _ (hP _ _ hs) (hq _ hs)
    · exact ih hmem (hP k s hs)

/-- In the production binding with parameters `p` the poll awaits plant step `q`. -/
structure State.Awaits (p : Params) (q : PlantStep) (n : RegName) (mask v : Word) (u : State) : Prop where
  params : u.params = p
  production : p.binding = .production
  regs : u.regs.Awaits p q n mask v

/-- The poll's condition holds, unless the command has been stopped. -/
abbrev State.PollMet (n : RegName) (mask v : Word) (u : State) : Prop := u.running = true → u.regs.Meets n mask v

section
variable {p : Params} (h : mapWf p) {q : PlantStep} {n : RegName} {mask v : Word} {u : State}
include h

theorem State.Awaits.after_plantStep (hw : u.Awaits p q n mask v) (k : PlantStep) : (plantStep k u).Awaits p q n mask v where
  params := (plantStep_params k u).trans hw.params
  production := hw.production
  regs := by
    rcases plantStep_regs k u with e | ⟨-, e⟩ <;> rw [e]
    · exact hw.regs
    · exact hw.params ▸ hw.regs.after_plantEffect h k

theorem State.Awaits.met_after_plantStep (hw : u.Awaits p q n mask v) (hm : u.PollMet n mask v) (k : PlantStep) :
    (plantStep k u).PollMet n mask v := by
  intro hr
  rcases plantStep_regs k u with e | ⟨-, e⟩ <;> rw [e]
  · exact hm (running_of_plantStep hr)
  · exact hw.params ▸ hw.regs.meets_after_plantEffect h (hm (running_of_plantStep hr)) k

/-- The step awaited answers the poll: by its effect, or because there was nothing left to do. -/
theorem State.Awaits.met_of_plantStep (hw : u.Awaits p q n mask v) : (plantStep q u).PollMet n mask v := by
  intro hr
  rcases plantStep_cases q u with ⟨hoff, e⟩ | ⟨-, -, -, e⟩ | ⟨-, -, e⟩
  · by_contra hne
    rw [e] at hr hne
    rw [plantEnabled_eq (hw.params ▸ hw.production) ((running_iff u).1 hr).2, hw.params,
      hw.regs.plantCondition_of_not_meets h hne] at hoff
    cases hoff
  · rw [e, running_of_fault rfl] at hr
    cases hr
  · rw [e]
    exact hw.params ▸ hw.regs.meets_of_effect h

/-- The live plant answers a poll: unless one of its steps stops the machine, the condition holds when the plant has moved (R198). -/
theorem State.Awaits.met_of_plantAlone (hw : u.Awaits p q n mask v) (hl : p.plantLive = true) :
    (plantAlone u).PollMet n mask v := by
  by_cases hm : u.regs.Meets n mask v
  · exact (plantAlone_keeps (P := fun w => w.Awaits p q n mask v ∧ w.PollMet n mask v)
      (fun k _ ⟨hw, hm⟩ => ⟨hw.after_plantStep h k, hw.met_after_plantStep h hm k⟩) ⟨hw, fun _ => hm⟩).2
  · have hmem : q ∈ plantSteps u.params :=
      mem_plantSteps (hw.params ▸ hw.regs.plantCondition_of_not_meets h hm : plantCondition u.params u.regs q = true)
    rw [plantAlone, if_pos (hw.params ▸ hl), plantAll]
    exact foldl_plantStep_reaches (P := State.Awaits p q n mask v) (fun k _ hw => hw.after_plantStep h k)
      (fun k _ hw hm => hw.met_after_plantStep h hm k) (fun _ hw => hw.met_of_plantStep h) hmem hw

end

end Sys2Proof.Machine

/-! SUPPORT. Under a live plant every poll of the leaf, gate and Sequencer commands ends (R161, R198, R240): it comes after the write
that makes the plant answer it. -/

namespace Sys2Proof.Machine

/-! ## Programs whose polls are answered -/

/-- From register file `f` on, every poll of the program awaits a plant step. `f` counts up to the first store or poll; what the
registers hold after that is left open, since the plant moves between the micro-steps. -/
def pollsAnswered (p : Params) : List Micro → RegFile → Prop
  | [], _ => False
  | .done :: _, _ => True
  | .raise _ :: _, _ => True
  | .fail _ :: _, _ => True
  | .freqClk _ :: _, _ => False
  | .freqPll _ :: _, _ => False
  | .load _ :: rest, f => pollsAnswered p rest f
  | .barrier :: rest, f => pollsAnswered p rest f
  | .checkPllOff :: rest, f => pollsAnswered p rest f
  | .setSeq _ :: rest, f => pollsAnswered p rest f
  | .store n mask v :: rest, _ => ∀ t g, writeHazard p n g (afterWrite p n (merge mask v t) g) = none →
      pollsAnswered p rest (afterWrite p n (merge mask v t) g)
  | .poll n mask v :: rest, f => (∃ q, f.Awaits p q n mask v) ∧ ∀ g, pollsAnswered p rest g

/-- A plant step takes nothing from that. -/
theorem pollsAnswered_plantEffect {p : Params} (h : mapWf p) (k : PlantStep) {b : List Micro} {f : RegFile}
    (hb : pollsAnswered p b f) : pollsAnswered p b (plantEffect p f k) := by
  induction b with
  | nil => exact hb
  | cons m b ih =>
    cases m with
    | poll n mask v =>
      obtain ⟨⟨q, hq⟩, hrest⟩ := hb
      exact ⟨⟨q, hq.after_plantEffect h k⟩, hrest⟩
    | load _ | barrier | checkPllOff | setSeq _ => exact ih hb
    | _ => exact hb

/-- A write of `CLK_CFGR` that meets no hazard names the source shown, or one that may be selected (R230). -/
theorem selectable_of_no_hazard {p : Params} {f g : RegFile} (hz : writeHazard p .clkCfgr f g = none) :
    swOf p.regmap g.clkCfgr.r = swsOf p.regmap f.clkCfgr.r ∨ selectable p.regmap f (swOf p.regmap g.clkCfgr.r) = true := by
  by_contra hno
  obtain ⟨hne, hsel⟩ := not_or.1 hno
  have hglitch : RegName.clkCfgr = .clkCfgr ∧ swOf p.regmap g.clkCfgr.r ≠ swsOf p.regmap f.clkCfgr.r
      ∧ ¬ selectable p.regmap f (swOf p.regmap g.clkCfgr.r) = true := ⟨rfl, hne, hsel⟩
  unfold writeHazard at hz
  dsimp only at hz
  rw [if_pos hglitch, ite_self] at hz
  cases hz

/-- The PLL selected without a hazard: it is the source shown, or it is locked (R230). -/
theorem selectPll_reads {p : Params} (h : mapWf p) {v : Word} {g : RegFile} (hv : swOf p.regmap v = srcPll)
    (hz : writeHazard p .clkCfgr g (afterWrite p .clkCfgr v g) = none) :
    (afterWrite p .clkCfgr v g).rd p.regmap .sw = srcPll
      ∧ ((afterWrite p .clkCfgr v g).rd p.regmap .sws = srcPll ∨ (afterWrite p .clkCfgr v g).rd p.regmap .pllRdy = 1) := by
  have hsw : swOf p.regmap (afterWrite p .clkCfgr v g).clkCfgr.r = srcPll :=
    (afterWrite_clkCfgr_shows h v g (k := .sw) (by decide)).trans hv
  have hsws : (afterWrite p .clkCfgr v g).rd p.regmap .sws = g.rd p.regmap .sws :=
    rd_afterWrite_kept h (.inl (by decide)) _ _
  have hcr : (afterWrite p .clkCfgr v g).get .clkCr = g.get .clkCr := afterWrite_get_other (by decide)
  refine ⟨hsw, ?_⟩
  rcases selectable_of_no_hazard hz with hshown | hsel
  · exact .inl (hsws.trans (hshown.symm.trans hsw))
  · rw [hsw, selectable_iff] at hsel
    rcases hsel with ⟨hosc, -⟩ | ⟨-, hrdy⟩
    · exact absurd hosc (by decide)
    · exact .inr ((congrArg (fun x : Reg => pllRdyOf p.regmap x.r) hcr).trans hrdy)

/-- The same from every register file. -/
abbrev AlwaysAnswered (p : Params) (b : List Micro) : Prop := ∀ f, pollsAnswered p b f

section
variable {p : Params} {b : List Micro} (hb : AlwaysAnswered p b)
include hb

theorem AlwaysAnswered.store (n : RegName) (mask v : Word) : AlwaysAnswered p (maskedWrite n mask v ++ b) :=
  fun _ _ _ _ => hb _

theorem AlwaysAnswered.stores (mask v : RegName → Word) (l : List RegName) :
    AlwaysAnswered p ((l.flatMap fun n => maskedWrite n (mask n) (v n)) ++ b) := by
  induction l with
  | nil => exact hb
  | cons n l ih =>
    rw [List.flatMap_cons, List.append_assoc]
    exact ih.store _ _ _

variable (h : mapWf p)
include h

/-- A settling field written and waited for (R30, R57). -/
theorem AlwaysAnswered.settle {sf : SettlingField} {n : RegName} {mask v : Word}
    (hbits : SettlingField.bits p sf = some (n, mask)) (hv : v &&& mask = v) :
    AlwaysAnswered p (maskedWrite n mask v ++ .poll n mask v :: b) := by
  intro _ t g _
  refine ⟨⟨.settle sf, .settle hbits ?_⟩, hb⟩
  obtain ⟨h1, -⟩ := SettlingField.reg_ne hbits
  rw [(afterWrite_and h (fun hn => absurd hn h1) _ g).1]
  exact (merge_and_of_subset _ _ _ _ (SettlingField.takes h hbits _)).trans ((merge_and_mask _ _ _).trans hv)

theorem AlwaysAnswered.doScaling (l : Level) : AlwaysAnswered p (doScaling p l ++ b) :=
  hb.settle (sf := .vos) h rfl (FixedField.put_and_mask p.regmap .vos (vosEnc p l))

theorem AlwaysAnswered.doLatency {ws : Word} (hws : ws.toNat ≤ 15) : AlwaysAnswered p (doLatency p.regmap ws ++ b) := by
  obtain ⟨c, rfl⟩ : ∃ c : BitVec 4, ws = c.setWidth 32 := ⟨ws.setWidth 4, by bv_omega⟩
  exact AlwaysAnswered.settle (b := .barrier :: b) hb (sf := .latency) h rfl (FixedField.put_and_mask p.regmap .latency c)

omit h in
theorem AlwaysAnswered.doPllConfigure (w : PllWord) : AlwaysAnswered p (doPllConfigure p.regmap w ++ b) :=
  hb.stores _ _ _

/-- The PLL enabled and its lock waited for (R156). -/
theorem AlwaysAnswered.pllLock : AlwaysAnswered p (doPllEnable p.regmap ++ doWaitLock p.regmap ++ b) := by
  intro _ t g _
  refine ⟨⟨.pllLock, .pllLock ?_⟩, hb⟩
  have hon : (afterWrite p .clkCr (merge (FixedField.pllOn.mask p.regmap) (FixedField.pllOn.mask p.regmap) t) g).rd p.regmap .pllOn
      = 1 := by
    rw [rd_afterWrite h (by decide), if_pos ⟨rfl, by simp [FixedField.taken, pllFields], by decide⟩, merge_same]
    exact (pllEnable_word h t).2
  exact beq_iff_eq.2 hon

/-- The PLL selected and the mux waited for: the write that selects it met no hazard (R157, R230). -/
theorem AlwaysAnswered.muxSwitch :
    AlwaysAnswered p (maskedWrite .clkCfgr (FixedField.sw.mask p.regmap) (FixedField.sw.put p.regmap (srcPll.setWidth 32))
      ++ pollField p.regmap .sws (srcPll.setWidth 32) ++ b) := by
  intro _ t g hz
  obtain ⟨hsw, hsrc⟩ := selectPll_reads h (selectPll_word h rfl).1 hz
  exact ⟨⟨.muxSwitch, .muxSwitch hsw hsrc⟩, hb⟩

end

theorem alwaysAnswered_done (p : Params) : AlwaysAnswered p [.done] := fun _ => trivial

theorem gateBody_alwaysAnswered {p : Params} (h : mapWf p) {sf : SettlingField} {n : RegName} {mask : Word}
    (hbits : SettlingField.bits p sf = some (n, mask)) : AlwaysAnswered p (gateBody n mask) :=
  (alwaysAnswered_done p).settle h hbits (BitVec.and_self ..)

/-- Every poll of a whole `SEQ_RUN` (R152 to R158). -/
theorem seqBody_alwaysAnswered {p : Params} (h : mapWf p) (w : PllWord) (l : Level) {ws : Word} (hws : ws.toNat ≤ 15) :
    AlwaysAnswered p (seqBody p w l ws) := by
  have sets : ∀ {b} (q : SeqState), AlwaysAnswered p b → AlwaysAnswered p (.setSeq q :: b) := fun _ hb => hb
  have switched : AlwaysAnswered p (seqT6 p.regmap ++ [.setSeq .complete, .done]) := by
    rw [seqT6, List.append_assoc]
    exact (sets .switched (sets .complete (alwaysAnswered_done p))).muxSwitch h
  have locked := (sets .pllLocked switched).pllLock h
  have programmed := (sets .pllProgrammed locked).doPllConfigure w
  have slowed := (sets .latencySet programmed).doLatency h hws
  have scaled := (sets .scalingSet slowed).doScaling h l
  have ready : AlwaysAnswered p (pollField p.regmap .oscRdy 1 ++ .setSeq .oscillatorReady :: _) :=
    fun _ => ⟨⟨.oscReady, .oscReady⟩, sets .oscillatorReady scaled⟩
  simpa [seqBody_eq, seqT1, seqT2, seqT3, seqT4, seqT5] using ready

/-- Rejected, faulted, or a whole run with at most 15 wait states (R151). -/
theorem seqProgram_alwaysAnswered {s : State} (h : mapWf s.params) (cfg : PllWord) (pw : PowerWord) :
    AlwaysAnswered s.params (seqProgram cfg pw s) := by
  intro f
  unfold seqProgram
  split
  · trivial
  · split
    · trivial
    · next hvalid =>
      have hws : (pw.ws.setWidth 32).toNat ≤ 15 := by
        rw [BitVec.toNat_setWidth_of_le (by decide)]
        exact ((powerValid_iff pw).1 (not_not.1 hvalid).2).2
      split
      · trivial
      · exact seqBody_alwaysAnswered h _ _ hws f

/-! ## Their run -/

/-- A micro-step after which the command still runs leaves a program whose polls are answered; where it is no poll, or its condition
holds, it hands on to the next. -/
theorem runMicro_pollsAnswered {m : Micro} {rest : List Micro} {u : State} (hb : u.params.binding = .production)
    (hu : u.ph = m :: rest) (h : pollsAnswered u.params (m :: rest) u.regs) (hr : (runMicro m rest u).running = true) :
    pollsAnswered u.params (runMicro m rest u).ph (runMicro m rest u).regs
      ∧ ((∀ n mask v, m = .poll n mask v → u.regs.Meets n mask v) → (runMicro m rest u).ph = rest) := by
  cases m with
  | load n => exact ⟨h, fun _ => rfl⟩
  | store n mask v =>
    rcases memWrite_cases .engine n (merge mask v u.t) { u with ph := rest } with ⟨ht, -⟩ | ⟨-, x, -, e⟩ | ⟨-, hz, e⟩
    · rw [hb] at ht; cases ht
    · rw [runMicro, e, running_of_fault rfl] at hr; cases hr
    · rw [runMicro, e, logWrite_ph, logWrite_regs]
      exact ⟨h _ _ hz, fun _ => rfl⟩
  | poll n mask v =>
    by_cases hm : memRead u n &&& mask = v
    · rw [runMicro, if_pos hm]
      exact ⟨h.2 _, fun _ => rfl⟩
    · rw [runMicro, if_neg hm]
      exact ⟨hu ▸ h, fun hmeets => absurd (hmeets _ _ _ rfl) hm⟩
  | barrier => exact ⟨h, fun _ => rfl⟩
  | checkPllOff =>
    simp only [runMicro] at hr ⊢
    split
    · next hon => rw [if_pos hon, running_of_fault rfl] at hr; cases hr
    · exact ⟨h, fun _ => rfl⟩
  | setSeq q => exact ⟨h, fun _ => rfl⟩
  | freqClk d => exact h.elim
  | freqPll d => exact h.elim
  | raise e => simp [runMicro, State.running] at hr
  | done => simp [runMicro, State.running] at hr
  | fail f => simp [runMicro, State.running] at hr



/-- In the production binding of a live plant, while the command runs, its polls are answered. -/
structure State.PollsAnswered (u : State) : Prop where
  live : u.params.plantLive = true
  production : u.params.binding = .production
  map : mapWf u.params
  left : u.running = true → pollsAnswered u.params u.ph u.regs

theorem plantStep_pollsAnswered (q : PlantStep) {u : State} (h : u.PollsAnswered) : (plantStep q u).PollsAnswered := by
  have hp := plantStep_params q u
  refine ⟨hp ▸ h.live, hp ▸ h.production, hp ▸ h.map, fun hr => ?_⟩
  have hleft := h.left (running_of_plantStep hr)
  rw [hp, plantStep_ph]
  rcases plantStep_regs q u with e | ⟨-, e⟩ <;> rw [e]
  · exact hleft
  · exact pollsAnswered_plantEffect h.map q hleft

theorem plantAlone_pollsAnswered {u : State} (h : u.PollsAnswered) : (plantAlone u).PollsAnswered :=
  plantAlone_keeps (P := State.PollsAnswered) (fun q _ => plantStep_pollsAnswered q) h

/-- A running command stands before a micro-step, never at the end of its program. -/
theorem State.PollsAnswered.exists_cons {u : State} (h : u.PollsAnswered) (hr : u.running = true) :
    ∃ m rest, u.ph = m :: rest ∧ pollsAnswered u.params (m :: rest) u.regs := by
  have hleft := h.left hr
  cases hu : u.ph with
  | nil => rw [hu] at hleft; exact hleft.elim
  | cons m rest => exact ⟨m, rest, rfl, hu ▸ hleft⟩

theorem engineStep_pollsAnswered {u : State} (h : u.PollsAnswered) : (engineStep u).PollsAnswered := by
  have hp := engineStep_params u
  refine ⟨hp ▸ h.live, hp ▸ h.production, hp ▸ h.map, fun hr' => ?_⟩
  rw [hp]
  cases hr : u.running with
  | false =>
    rw [engineStep_of_not_running hr, hr] at hr'
    cases hr'
  | true =>
    obtain ⟨m, rest, hu, hleft⟩ := h.exists_cons hr
    rw [engineStep_cons hr hu] at hr' ⊢
    exact (runMicro_pollsAnswered h.production hu hleft hr').1

/-- A round of the plant and the engine ends the command or takes a micro-step off its program: where the engine polls, the plant has
answered. -/
theorem round_shortens {u : State} (h : u.PollsAnswered) (hr : u.running = true)
    (hr' : (engineStep (plantAlone u)).running = true) : (engineStep (plantAlone u)).ph.length < u.ph.length := by
  have hlive : (plantAlone u).running = true := by
    by_contra hn
    rw [engineStep_of_not_running (by simpa using hn)] at hr'
    exact hn hr'
  obtain ⟨m, rest, hu, hleft⟩ := h.exists_cons hr
  obtain ⟨m', rest', hu', hleft'⟩ := (plantAlone_pollsAnswered h).exists_cons hlive
  obtain ⟨rfl, rfl⟩ : m = m' ∧ rest = rest' := by simpa [hu] using hu'
  have hmeets : ∀ n mask v, m = .poll n mask v → (plantAlone u).regs.Meets n mask v := by
    rintro n mask v rfl
    obtain ⟨⟨q, hq⟩, -⟩ := hleft
    exact State.Awaits.met_of_plantAlone h.map ⟨rfl, h.production, hq⟩ h.live hlive
  rw [engineStep_cons hlive hu'] at hr' ⊢
  rw [(runMicro_pollsAnswered (plantAlone_pollsAnswered h).production hu' hleft' hr').2 hmeets, hu]
  exact Nat.lt_succ_self _

/-- With a live plant beside it the engine alone ends such a command within as many rounds as it has micro-steps. -/
theorem engineAlone_ends_live {k : Nat} {u : State} (h : u.PollsAnswered) (hk : u.ph.length ≤ k) :
    (engineAlone k u).running = false := by
  induction k generalizing u with
  | zero =>
    by_contra hr
    obtain ⟨m, rest, hu, -⟩ := h.exists_cons (by simpa using hr)
    simp [hu] at hk
  | succ k ih =>
    cases hr : u.running with
    | false => rwa [engineAlone_of_not_running hr]
    | true =>
      rw [engineAlone_succ hr]
      cases hr' : (engineStep (plantAlone u)).running with
      | false => rwa [engineAlone_of_not_running hr']
      | true =>
        have hlen := round_shortens h hr hr'
        exact ih (engineStep_pollsAnswered (plantAlone_pollsAnswered h)) (by omega)

/-! ## The commands -/

/-- Settles O46: each program's polls are answered, through the turns listed and then with the engine and the plant alone. -/
theorem pollsEndUnderALivePlant : Obligations.PollsEndUnderALivePlant := by
  intro i s t hplant h hl hb hexec hi
  have hbody : pollsAnswered s.params (programOf i s) s.regs := by
    have hdone := alwaysAnswered_done s.params
    rcases hi with ⟨level, a1, rfl⟩ | ⟨ws, a1, rfl⟩ | ⟨id, a1, rfl⟩ | ⟨id, a1, rfl⟩ | ⟨cfg, pw, rfl⟩ | ⟨⟨a0, a1, rfl⟩, hon⟩
      <;> simp only [programOf]
    case inl =>
      split
      · trivial
      · exact hdone.doScaling h _ _
    case inr.inl =>
      split
      · trivial
      · next hws => exact hdone.doLatency h (by omega) _
    case inr.inr.inl =>
      split
      · trivial
      · exact gateBody_alwaysAnswered h (SettlingField.bits_gpioen _ _) _
    case inr.inr.inr.inl =>
      split
      · trivial
      · next e he => exact gateBody_alwaysAnswered h (SettlingField.bits_usarten he) _
    case inr.inr.inr.inr.inl => exact seqProgram_alwaysAnswered h _ _ _
    case inr.inr.inr.inr.inr => exact ⟨⟨.pllLock, .pllLock (beq_iff_eq.2 hon)⟩, fun _ => trivial⟩
  obtain ⟨-, hrun⟩ := exec_next hexec
  rcases runTurns_internal_end (P := State.PollsAnswered) (fun _ _ hu => ⟨hu.live, hu.production, hu.map, hu.left⟩)
    (fun q _ => plantStep_pollsAnswered q) (fun _ => engineStep_pollsAnswered) hplant
    (s := s.accepted i (programOf i s)) ⟨hl, hb, h, fun _ => hbody⟩ hrun with hended | ⟨u, hu, rfl⟩
  · exact hended
  · exact engineAlone_ends_live hu (Nat.le_refl _)

end Sys2Proof.Machine

/-! SUPPORT. `SEQ_RUN` and the hazards of R230 (R157, R197): it programs the PLL while it is off, switches it on and never off, and
selects it only after it read the lock. -/

namespace Sys2Proof.Machine

/-! ## Writes that raise no `ClockGlitch` -/

/-- What `ClockGlitch` is raised for: the PLL switched off, or a source selected that may not be (R230). -/
theorem writeHazard_clockGlitch {p : Params} {n : RegName} {f g : RegFile} (hz : writeHazard p n f g = some .clockGlitch) :
    clearsPll p.regmap f g = true ∨ (n = .clkCfgr ∧ ¬ selectable p.regmap f (swOf p.regmap g.clkCfgr.r) = true) := by
  unfold writeHazard at hz
  dsimp only at hz
  split at hz
  · next hoff => exact .inl hoff.1
  · split at hz
    · next hsel => exact .inr ⟨hsel.1, hsel.2.2⟩
    · split at hz <;> cases hz

/-- A write meets no hazard of R230. -/
abbrev NoGlitch (p : Params) (n : RegName) (v : Word) (f : RegFile) : Prop :=
  writeHazard p n f (afterWrite p n v f) ≠ some .clockGlitch

section
variable {p : Params} (h : mapWf p) {v : Word} {f : RegFile}
include h

theorem noGlitch_other {n : RegName} (h1 : n ≠ .clkCr) (h2 : n ≠ .clkCfgr) : NoGlitch p n v f := by
  rw [NoGlitch, (harmless_other h h1 h2).hazard]
  nofun

/-- `CLK_CR` with the PLL off before, or on after. -/
theorem noGlitch_clkCr (hpll : f.pllOn p.regmap = false ∨ pllOnOf p.regmap v = 1) : NoGlitch p .clkCr v f := by
  refine fun hz => (writeHazard_clockGlitch hz).elim (fun hclr => ?_) fun hsel => nomatch hsel.1
  obtain ⟨-, hon, hclr⟩ := (clearsPll_afterWrite_iff h _ _ _).1 hclr
  rcases hpll with hoff | hset
  · exact absurd (hoff.symm.trans (beq_iff_eq.2 hon)) (by decide)
  · exact absurd (hset.symm.trans hclr) (by decide)

/-- `CLK_CFGR` with a locked PLL selected. -/
theorem noGlitch_selectPll (hsw : swOf p.regmap v = srcPll) (hrdy : f.rd p.regmap .pllRdy = 1) : NoGlitch p .clkCfgr v f := by
  refine fun hz => (writeHazard_clockGlitch hz).elim (fun hclr => ?_) fun hsel => hsel.2 ?_
  · exact absurd ((clearsPll_afterWrite_iff h _ _ _).1 hclr).1 (by decide)
  · exact (selectable_iff _ _ _).2 (.inr ⟨(afterWrite_clkCfgr_shows h v f (k := .sw) (by decide)).trans hsw, hrdy⟩)

end

/-! ## Programs all of whose writes are such -/

/-- What the plant leaves of the PLL: on or off as it was, and locked if it was (R31). -/
structure RegFile.PllKept (m : Regmap) (f g : RegFile) : Prop where
  on : g.pllOn m = f.pllOn m
  ready : f.rd m .pllRdy = 1 → g.rd m .pllRdy = 1

theorem RegFile.PllKept.refl (m : Regmap) (f : RegFile) : f.PllKept m f := ⟨rfl, id⟩

theorem RegFile.PllKept.trans {m : Regmap} {f g k : RegFile} (hfg : f.PllKept m g) (hgk : g.PllKept m k) : f.PllKept m k :=
  ⟨hgk.on.trans hfg.on, fun hr => hgk.ready (hfg.ready hr)⟩

theorem plantEffect_pllKept {p : Params} (h : mapWf p) (q : PlantStep) (f : RegFile) :
    f.PllKept p.regmap (plantEffect p f q) :=
  ⟨plantEffect_pllOn h q f, fun hr => by rw [rd_plantEffect_pllRdy h, hr, ite_self]⟩

/-- From register file `f` on, with the plant moving between the micro-steps, no store of the program meets a hazard of R230: what is
known of the PLL is that a check found it off, and what a poll read of it. -/
def glitchFree (p : Params) : List Micro → RegFile → Prop
  | [], _ => True
  | .done :: _, _ => True
  | .raise _ :: _, _ => True
  | .fail x :: _, _ => x ≠ .clockGlitch
  | .freqClk _ :: _, _ => False
  | .freqPll _ :: _, _ => False
  | .load _ :: rest, f => glitchFree p rest f
  | .barrier :: rest, f => glitchFree p rest f
  | .setSeq _ :: rest, f => glitchFree p rest f
  | .checkPllOff :: rest, f => ∀ g, f.PllKept p.regmap g → g.pllOn p.regmap = false → glitchFree p rest g
  | .poll n mask v :: rest, f => ∀ g, f.PllKept p.regmap g → g.Meets n mask v → glitchFree p rest g
  | .store n mask v :: rest, f => ∀ t g, f.PllKept p.regmap g →
      NoGlitch p n (merge mask v t) g ∧ glitchFree p rest (afterWrite p n (merge mask v t) g)

theorem glitchFree_of_pllKept {p : Params} {b : List Micro} {f g : RegFile} (hb : glitchFree p b f)
    (hfg : f.PllKept p.regmap g) : glitchFree p b g := by
  induction b with
  | nil => exact hb
  | cons m b ih =>
    cases m with
    | load _ | barrier | setSeq _ => exact ih hb
    | checkPllOff => exact fun k hgk => hb k (hfg.trans hgk)
    | poll n mask v => exact fun k hgk => hb k (hfg.trans hgk)
    | store n mask v => exact fun t k hgk => hb t k (hfg.trans hgk)
    | _ => exact hb

/-- The same from every register file. -/
abbrev AlwaysGlitchFree (p : Params) (b : List Micro) : Prop := ∀ f, glitchFree p b f

section
variable {p : Params} (h : mapWf p) {b : List Micro} (hb : AlwaysGlitchFree p b)
include h hb

/-- A register that is not the clock tree's written, and a poll (R121, R124). -/
theorem AlwaysGlitchFree.write_poll {n : RegName} (h1 : n ≠ .clkCr) (h2 : n ≠ .clkCfgr) (mask v : Word) :
    AlwaysGlitchFree p (maskedWrite n mask v ++ .poll n mask v :: b) :=
  fun _ _ _ _ => ⟨noGlitch_other h h1 h2, fun k _ _ => hb k⟩

/-- The registers of the PLL fields written, each once, with the PLL off where `CLK_CR` is still to come (R130). -/
theorem AlwaysGlitchFree.pllStores (mask v : RegName → Word) {l : List RegName} (hnodup : l.Nodup) (hcfgr : .clkCfgr ∉ l)
    {f : RegFile} (hoff : .clkCr ∈ l → f.pllOn p.regmap = false) :
    glitchFree p ((l.flatMap fun n => maskedWrite n (mask n) (v n)) ++ b) f := by
  induction l generalizing f with
  | nil => exact hb f
  | cons n l ih =>
    obtain ⟨hn, hnodup⟩ := List.nodup_cons.1 hnodup
    obtain ⟨hne, hcfgr⟩ := not_or.1 (mt List.mem_cons.2 hcfgr)
    intro t g hfg
    refine ⟨?glitch, ih hnodup hcfgr fun hl => ?off⟩
    case glitch =>
      by_cases hcr : n = .clkCr
      · subst hcr
        exact noGlitch_clkCr h (.inl (hfg.on.trans (hoff List.mem_cons_self)))
      · exact noGlitch_other h hcr (Ne.symm hne)
    case off =>
      have hcr : (afterWrite p n (merge (mask n) (v n) t) g).get .clkCr = g.get .clkCr :=
        afterWrite_get_other fun e => hn (e ▸ hl)
      refine (congrArg (fun x : Reg => pllOnOf p.regmap x.r == 1) hcr).trans (hfg.on.trans (hoff ?_))
      exact List.mem_cons_of_mem _ hl

omit h in
theorem AlwaysGlitchFree.seqT1 : AlwaysGlitchFree p (seqT1 p.regmap ++ b) := fun _ g _ _ => hb g

theorem AlwaysGlitchFree.seqT2 (l : Level) : AlwaysGlitchFree p (seqT2 p l ++ b) :=
  AlwaysGlitchFree.write_poll (b := .setSeq .scalingSet :: b) h hb (by decide) (by decide) _ _

theorem AlwaysGlitchFree.seqT3 (ws : Word) : AlwaysGlitchFree p (seqT3 p.regmap ws ++ b) :=
  AlwaysGlitchFree.write_poll (b := .barrier :: .setSeq .latencySet :: b) h hb (by decide) (by decide) _ _

theorem AlwaysGlitchFree.seqT4 (w : PllWord) (hcfgr : .clkCfgr ∉ pllRegs p.regmap) :
    AlwaysGlitchFree p (seqT4 p.regmap w ++ b) := by
  intro _ g _ hoff
  have hstores := AlwaysGlitchFree.pllStores (b := .setSeq .pllProgrammed :: b) h hb (pllFieldsMask p.regmap)
    (pllImage p.regmap w) (pllRegs_nodup p.regmap) hcfgr (f := g) fun _ => hoff
  simpa using hstores

omit hb in
/-- The PLL is enabled, and what follows finds it locked (R156). -/
theorem glitchFree_seqT5 (hb : ∀ f : RegFile, f.rd p.regmap .pllRdy = 1 → glitchFree p b f) :
    AlwaysGlitchFree p (seqT5 p.regmap ++ b) := by
  intro _ t g _
  refine ⟨noGlitch_clkCr h (.inr ?_), fun k _ hk => hb k ((FixedField.reads_iff h .pllRdy 1 _).1 hk)⟩
  rw [merge_same]
  exact (pllEnable_word h t).2

/-- The PLL is selected locked (R157). -/
theorem glitchFree_seqT6 {f : RegFile} (hrdy : f.rd p.regmap .pllRdy = 1) : glitchFree p (seqT6 p.regmap ++ b) f :=
  fun _ _ hfg => ⟨noGlitch_selectPll h (selectPll_word h rfl).1 (hfg.ready hrdy), fun k _ _ => hb k⟩

end

theorem seqBody_glitchFree {p : Params} (h : mapWf p) (hcfgr : .clkCfgr ∉ pllRegs p.regmap) (w : PllWord) (l : Level)
    (ws : Word) : AlwaysGlitchFree p (seqBody p w l ws) := by
  have hend : AlwaysGlitchFree p [.setSeq .complete, .done] := fun _ => trivial
  have hselect := glitchFree_seqT5 h fun f hrdy => glitchFree_seqT6 h hend (f := f) hrdy
  rw [seqBody_eq]
  exact .seqT1 (.seqT2 h (.seqT3 h (.seqT4 h hselect w hcfgr) ws) l)

theorem seqProgram_glitchFree {s : State} (h : mapWf s.params) (hcfgr : .clkCfgr ∉ pllRegs s.params.regmap) (cfg : PllWord)
    (pw : PowerWord) : AlwaysGlitchFree s.params (seqProgram cfg pw s) := by
  intro f
  unfold seqProgram
  split
  · trivial
  · split
    · trivial
    · split
      · exact nofun
      · exact seqBody_glitchFree h hcfgr _ _ _ f

/-! ## Their run -/

/-- In the production binding, a command that has raised no `ClockGlitch` and, while it runs, will raise none. -/
structure State.GlitchFree (u : State) : Prop where
  production : u.params.binding = .production
  map : mapWf u.params
  fault : u.fault ≠ some .clockGlitch
  left : u.running = true → glitchFree u.params u.ph u.regs

theorem plantStep_glitchFree (q : PlantStep) {u : State} (h : u.GlitchFree) : (plantStep q u).GlitchFree := by
  have hp := plantStep_params q u
  refine ⟨hp ▸ h.production, hp ▸ h.map, ?fault, fun hr => ?left⟩
  case fault =>
    rcases plantStep_cases q u with ⟨-, e⟩ | ⟨-, -, -, e⟩ | ⟨-, -, e⟩ <;> rw [e]
    · exact h.fault
    · exact nofun
    · exact h.fault
  case left =>
    have hleft := h.left (running_of_plantStep hr)
    rw [hp, plantStep_ph]
    rcases plantStep_regs q u with e | ⟨-, e⟩ <;> rw [e]
    · exact hleft
    · exact glitchFree_of_pllKept hleft (plantEffect_pllKept h.map q u.regs)

theorem runMicro_glitchFree {m : Micro} {rest : List Micro} {u : State} (hb : u.params.binding = .production)
    (hrun : u.running = true) (hu : u.ph = m :: rest) (h : glitchFree u.params (m :: rest) u.regs) :
    (runMicro m rest u).fault ≠ some .clockGlitch
      ∧ ((runMicro m rest u).running = true → glitchFree u.params (runMicro m rest u).ph (runMicro m rest u).regs) := by
  have hf : u.fault ≠ some .clockGlitch := by rw [((running_iff u).1 hrun).2]; nofun
  have hkept := RegFile.PllKept.refl u.params.regmap u.regs
  cases m with
  | load n => exact ⟨hf, fun _ => h⟩
  | store n mask v =>
    obtain ⟨hno, hrest⟩ := h u.t _ hkept
    rcases memWrite_cases .engine n (merge mask v u.t) { u with ph := rest } with ⟨ht, -⟩ | ⟨-, x, hz, e⟩ | ⟨-, -, e⟩
    · rw [hb] at ht; cases ht
    · rw [runMicro, e]
      exact ⟨fun hx => hno (hz.trans hx), fun hr => by rw [running_of_fault rfl] at hr; cases hr⟩
    · rw [runMicro, e, logWrite_fault, logWrite_ph, logWrite_regs]
      exact ⟨hf, fun _ => hrest⟩
  | poll n mask v =>
    simp only [runMicro]
    split
    · next hm => exact ⟨hf, fun _ => h _ hkept hm⟩
    · exact ⟨hf, fun _ => hu ▸ h⟩
  | barrier => exact ⟨hf, fun _ => h⟩
  | checkPllOff =>
    simp only [runMicro]
    split
    · exact ⟨nofun, fun hr => by rw [running_of_fault rfl] at hr; cases hr⟩
    · next hoff => exact ⟨hf, fun _ => h _ hkept (by simpa using hoff)⟩
  | setSeq q => exact ⟨hf, fun _ => h⟩
  | freqClk d => exact h.elim
  | freqPll d => exact h.elim
  | raise e => exact ⟨hf, fun _ => trivial⟩
  | done => exact ⟨hf, fun _ => trivial⟩
  | fail x => exact ⟨fun hx => h (Option.some.inj hx), fun hr => by rw [runMicro, running_of_fault rfl] at hr; cases hr⟩

theorem engineStep_glitchFree {u : State} (h : u.GlitchFree) : (engineStep u).GlitchFree := by
  cases hr : u.running with
  | false => rwa [engineStep_of_not_running hr]
  | true =>
    have hp := engineStep_params u
    cases hu : u.ph with
    | nil =>
      have hstays : engineStep u = u := by simp [engineStep, hu]
      rwa [hstays]
    | cons m rest =>
      obtain ⟨hfault, hleft⟩ := runMicro_glitchFree h.production hr hu (hu ▸ h.left hr)
      rw [← engineStep_cons hr hu] at hfault hleft
      exact ⟨hp ▸ h.production, hp ▸ h.map, hfault, hp ▸ hleft⟩

/-- Settles O40: no store of the program meets a hazard of R230, wherever the plant's turns fall. -/
theorem seqRunRaisesNoClockGlitch : Obligations.SeqRunRaisesNoClockGlitch := by
  intro s t cfg pw hinv hplant hcfgr hexec
  obtain ⟨⟨hmap, -⟩, hb, -⟩ := hinv
  obtain ⟨hi, hrun⟩ := exec_next hexec
  have hidle : s.fault ≠ some .clockGlitch := by rw [((idle_iff s).1 hi).2]; nofun
  have hend : t.GlitchFree :=
    runTurns_keeps_internal (P := State.GlitchFree) (fun _ _ hu => ⟨hu.production, hu.map, hu.fault, hu.left⟩)
      (fun q _ => plantStep_glitchFree q) (fun _ => engineStep_glitchFree) hplant
      (s := s.accepted (.seqRun cfg pw) (seqProgram cfg pw s))
      ⟨hb, hmap, hidle, fun _ => seqProgram_glitchFree hmap hcfgr cfg pw _⟩ hrun
  exact hend.fault

end Sys2Proof.Machine

/-! SUPPORT. What reset leads to (R220, R221), which writes and plant steps fault (R53, R230, R231), and what `Safe` is (R231,
R232). -/

namespace Sys2Proof.Machine

/-! ## Reset -/

/-- Settles O14: a stopped block takes no other step, a running one ends its run with it, and an idle one takes its turn. -/
theorem resetEndsFaultsAndHangs : Obligations.ResetEndsFaultsAndHangs := by
  intro s ts ha
  cases hf : s.fault with
  | some f => simp only [step, choose, hf, ha]; rfl
  | none =>
    cases hb : s.busy with
    | true => exact step_turn_last ((running_iff s).2 ⟨hb, hf⟩) ha rfl rfl
    | false => exact step_other_turn ((idle_iff s).2 ⟨hb, hf⟩) ha nofun

/-- The six domains of R86. -/
theorem domainOf_of_le {w : Word} (h : w.toNat ≤ 5) : ∃ d, domainOf w = some d := by
  unfold domainOf
  generalize w.toNat = k at h
  interval_cases k <;> exact ⟨_, rfl⟩

/-- After reset with the default profile no step of the plant is enabled. -/
theorem reset_undisturbed : State.reset.Undisturbed := by decide

/-- With no prescaler set every domain runs at the oscillator's frequency (R221). -/
theorem domainFreq_reset (d : ClockDomain) :
    domainFreq State.reset.params.regmap d fOsc (memRead State.reset .clkCfgr) = 16000000 := by
  cases d <;> rfl

/-- Settles O15: the source shown is the oscillator, and no prescaler is set. -/
theorem everyClockIsTheOscillatorAfterReset : Obligations.EveryClockIsTheOscillatorAfterReset := by
  intro domain a1 hdomain
  obtain ⟨d, hd⟩ := domainOf_of_le hdomain
  have hosc : swsOf State.reset.params.regmap (memRead State.reset .clkCfgr) = srcOsc := by decide
  rw [exec_getFreq_osc rfl reset_undisturbed hd a1 hosc, domainFreq_reset]
  rfl

/-! ## The writes that fault -/

section
variable {p : Params} {n : RegName} {f g : RegFile}

/-- A write that switches off the PLL in use (R53). -/
theorem writeHazard_of_clearsPll (hclr : clearsPll p.regmap f g = true) (hs : swsOf p.regmap f.clkCfgr.r = srcPll) :
    writeHazard p n f g = some .clockGlitch :=
  if_pos ⟨hclr, hs⟩

/-- A write that selects another source, one that may not be selected (R230). -/
theorem writeHazard_of_not_selectable (hne : swOf p.regmap g.clkCfgr.r ≠ swsOf p.regmap f.clkCfgr.r)
    (hsel : ¬ selectable p.regmap f (swOf p.regmap g.clkCfgr.r) = true) :
    writeHazard p .clkCfgr f g = some .clockGlitch := by
  unfold writeHazard
  dsimp only
  rw [if_pos (c := RegName.clkCfgr = .clkCfgr ∧ _) ⟨rfl, hne, hsel⟩, ite_self]

/-- A write that meets no hazard of R230 and changes `HPRE` so that `Safe` is false (R231). -/
theorem writeHazard_of_not_safe (hoff : clearsPll p.regmap f g = false)
    (hsel : swOf p.regmap g.clkCfgr.r = swsOf p.regmap f.clkCfgr.r
      ∨ selectable p.regmap f (swOf p.regmap g.clkCfgr.r) = true)
    (hhpre : hpreOf p.regmap g.clkCfgr.r ≠ hpreOf p.regmap f.clkCfgr.r) (hsafe : g.safe p = false) :
    writeHazard p n f g = some .flashTiming := by
  unfold writeHazard
  dsimp only
  rw [if_neg (by simp [hoff]), if_neg fun hc => hsel.elim hc.2.1 hc.2.2, if_pos ⟨hhpre, by simp [hsafe]⟩]

end

/-- A source that is not ready, or not wired, may not be selected (R230). -/
theorem not_selectable {m : Regmap} {f : RegFile} {src : BitVec 2}
    (h : (src = 0b10 ∧ pllRdyOf m f.clkCr.r = 0) ∨ (src = 0b00 ∧ oscRdyOf m f.clkCr.r = 0) ∨ src = 0b01 ∨ src = 0b11) :
    ¬ selectable m f src = true := by
  rw [selectable_iff]
  rcases h with ⟨rfl, hrdy⟩ | ⟨rfl, hrdy⟩ | rfl | rfl
  · simp [srcOsc, srcPll, hrdy]
  · simp [srcOsc, srcPll, hrdy]
  · simp [srcOsc, srcPll]
  · simp [srcOsc, srcPll]

section
variable {p : Params} (h : mapWf p) (v : Word) (f : RegFile)
include h

theorem swOf_afterWrite : swOf p.regmap (afterWrite p .clkCfgr v f).clkCfgr.r = swOf p.regmap v :=
  afterWrite_clkCfgr_shows h v f (k := .sw) (by decide)

theorem hpreOf_afterWrite : hpreOf p.regmap (afterWrite p .clkCfgr v f).clkCfgr.r = hpreOf p.regmap v :=
  afterWrite_clkCfgr_shows h v f (k := .hpre) (by decide)

end

/-- Settles O49: a bad select by `not_selectable`, and `PLL_ON` cleared by `clearsPll_afterWrite_iff`. -/
theorem selectingAnUnreadySourceFaults : Obligations.SelectingAnUnreadySourceFaults := by
  intro who v s hb h m c r
  refine ⟨fun hne hbad => memWrite_of_hazard hb ?select, fun hon hclr hs => memWrite_of_hazard hb ?switchOff⟩
  case select =>
    refine writeHazard_of_not_selectable ?_ ?_ <;> rw [swOf_afterWrite h]
    · exact hne
    · exact not_selectable hbad
  case switchOff =>
    exact writeHazard_of_clearsPll ((clearsPll_afterWrite_iff h .clkCr v s.regs).2 ⟨rfl, hon, hclr⟩) hs

/-! ## What `Safe` is -/

section
variable {p : Params} {f : RegFile}

/-- The count is enough when it is that of the first row that reaches the frequency, or more (R231, R232). -/
theorem latencyEnough_iff {l : Level} {core ws : Nat} :
    latencyEnough p l core ws = true ↔ ∃ pre row post, latencyRows p l = pre ++ row :: post
      ∧ (∀ r ∈ pre, r.maxFreq < core) ∧ core ≤ row.maxFreq ∧ row.waitStates ≤ ws := by
  have hfirst : latencyEnough p l core ws = true
      ↔ ∃ row, (latencyRows p l).find? (fun row => decide (core ≤ row.maxFreq)) = some row ∧ row.waitStates ≤ ws := by
    unfold latencyEnough minLatency
    cases (latencyRows p l).find? (fun row => decide (core ≤ row.maxFreq)) <;> simp
  rw [hfirst]
  simp only [List.find?_eq_some_iff_append, decide_eq_true_eq, Bool.not_eq_true', decide_eq_false_iff_not, not_le]
  constructor
  · rintro ⟨row, ⟨hrow, pre, post, hsplit, hpre⟩, hws⟩
    exact ⟨pre, row, post, hsplit, hpre, hrow, hws⟩
  · rintro ⟨pre, row, post, hsplit, hpre, hrow, hws⟩
    exact ⟨row, ⟨hrow, pre, post, hsplit, hpre⟩, hws⟩

/-- The core clock where the source shown has a frequency (R101). -/
theorem coreNow_eq_some {sys : Nat} (h : (swsOf p.regmap f.clkCfgr.r = 0b00 ∧ sys = 16000000)
      ∨ (swsOf p.regmap f.clkCfgr.r = 0b10 ∧ pllFreq p.regmap f = .ok sys)) :
    coreNow p.regmap f = some (coreFreq p.regmap sys f.clkCfgr.r) := by
  rcases h with ⟨hosc, rfl⟩ | ⟨hpll, hw⟩
  · simp [coreNow, hosc, srcOsc, srcPll, fOsc]
  · simp [coreNow, hpll, srcPll, hw]

/-- A source that is not wired, or a walk that faults, gives no core clock (R101, R103). -/
theorem coreNow_eq_none (h : swsOf p.regmap f.clkCfgr.r = 0b01 ∨ swsOf p.regmap f.clkCfgr.r = 0b11
      ∨ (swsOf p.regmap f.clkCfgr.r = 0b10 ∧ ∃ e, pllFreq p.regmap f = .error e)) :
    coreNow p.regmap f = none := by
  rcases h with hno | hno | ⟨hpll, e, hw⟩
  · simp [coreNow, hno, srcOsc, srcPll]
  · simp [coreNow, hno, srcOsc, srcPll]
  · simp [coreNow, hpll, srcPll, hw]

/-- With a core clock, `Safe` is its limit and its count at the level shown (R231). -/
theorem RegFile.safe_iff {core : Nat} {l : Level} (hcore : coreNow p.regmap f = some core)
    (hl : levelShown p (vosOf p.regmap f.pwrCr.r) = l) :
    f.safe p = true ↔ core ≤ fMax p l ∧ ∃ pre row post, latencyRows p l = pre ++ row :: post
      ∧ (∀ r ∈ pre, r.maxFreq < core) ∧ core ≤ row.maxFreq
      ∧ row.waitStates ≤ (latencyOf p.regmap f.flashAcr.r).toNat := by
  simp only [RegFile.safe, hcore, hl, Bool.and_eq_true, decide_eq_true_eq, latencyEnough_iff]

/-- Without a core clock `Safe` holds (R231). -/
theorem RegFile.safe_of_no_core (hcore : coreNow p.regmap f = none) : f.safe p = true := by
  simp only [RegFile.safe, hcore]

end

/-! ## The plant steps that fault -/

/-- A checked plant step that would make `Safe` false is not made (R231). -/
theorem plantStep_of_not_safe {s : State} {q : PlantStep} (he : plantEnabled s q = true) (hq : plantChecked q = true)
    (hsafe : (plantEffect s.params s.regs q).safe s.params = false) : plantStep q s = recordFault .flashTiming s := by
  simp [plantStep, he, hq, hsafe]

/-- Settles O50: `Safe` by the core clock and the level shown, the plant's checked steps by name, and the write by
`writeHazard_of_not_safe`. -/
theorem unsafeClockingFaults : Obligations.UnsafeClockingFaults := by
  refine ⟨fun p f => ⟨fun sys hsrc => ⟨?high, ?low⟩, ?noCore⟩, fun s q he hq hsafe => ?plant,
    fun who v s hb h hsel hhpre hsafe => memWrite_of_hazard hb ?write⟩
  case high => exact fun hhigh => RegFile.safe_iff (coreNow_eq_some hsrc) (if_pos hhigh)
  case low => exact fun hlow => RegFile.safe_iff (coreNow_eq_some hsrc) (if_neg hlow)
  case noCore => exact fun hno => RegFile.safe_of_no_core (coreNow_eq_none hno)
  case plant =>
    have hchecked : plantChecked q = true := by rcases hq with rfl | rfl | rfl <;> rfl
    exact plantStep_of_not_safe he hchecked hsafe
  case write =>
    refine writeHazard_of_not_safe ?off ?sel ?hpre ?safe
    case off =>
      rw [← Bool.not_eq_true, clearsPll_afterWrite_iff h]
      exact fun hc => absurd hc.1 (by decide)
    case sel =>
      rw [swOf_afterWrite h, selectable_iff]
      exact hsel.imp_right Or.symm
    case hpre => rwa [hpreOf_afterWrite h]
    case safe =>
      rw [afterWrite_clkCfgr_kept]
      exact hsafe

end Sys2Proof.Machine
